-- ==== Sys2Proof/Word.lean ====
section
/-! DEFINITION. The word types of HUFF-CORE. The bit-order helpers stand in Sys2Proof/Decode.lean. -/

namespace Sys2Proof

/-- A host-visible register or a command word: REG_BITS = 32 bits (00_scope.md R8). -/
abbrev Word := BitVec 32

/-- One byte of the input port's data (20_memory.md R43). -/
abbrev Byte := BitVec 8

/-- A bit string, written left to right in the order its bits travel on a stream (00_scope.md R10). -/
abbrev Bits := List Bool

/-- A fixed number of like entries: FREQ and CODE (10_state.md R17, R22). -/
structure Table (α : Type) (n : Nat) where
  entries : List α
  size_eq : entries.length = n
  deriving DecidableEq, Repr

/-- The table with every entry the same. -/
def Table.fill {α : Type} (n : Nat) (a : α) : Table α n := ⟨List.replicate n a, List.length_replicate⟩

/-- Entry i; an index outside the table has none. -/
def Table.get? {α : Type} {n : Nat} (t : Table α n) (i : Nat) : Option α := t.entries[i]?

/-- The table with entry i written; an index outside the table writes nothing. -/
def Table.set {α : Type} {n : Nat} (t : Table α n) (i : Nat) (a : α) : Table α n :=
  ⟨t.entries.set i a, (List.length_set).trans t.size_eq⟩

end Sys2Proof
end

