-- ==== Sys2Proof/Config.lean ====
section
/-! DEFINITION. What an implementation of HUFF-CORE fixes: the constants and the parameters of 00_scope.md R8, and the
free values the spec leaves open. -/

namespace Sys2Proof

/-- ALPHABET: the number of byte values (R8). -/
abbrev Config.alphabet : Nat := 256

/-- SENTINEL: the value of the end-of-stream leaf (R8). -/
abbrev Config.sentinel : Nat := 256

/-- NSYM: the number of symbols, 0..256 (R8). -/
abbrev Config.nsym : Nat := 257

/-- UNIT_BITS: the width of one input unit (R8). -/
abbrev Config.unitBits : Nat := 8

/-- LEAF_BITS: the width of a leaf value in the tree header (R8). -/
abbrev Config.leafBits : Nat := 9

/-- MAGIC_BITS: the width of the magic word (R8). -/
abbrev Config.magicBits : Nat := 32

/-- NODE_CAP: the number of entries of the node arena, 2 × NSYM − 1 (R8, D11). -/
abbrev Config.nodeCap : Nat := 513

/-- PQ_CAP: the most entries the priority queue holds, one per symbol (R8, R21). -/
abbrev Config.pqCap : Nat := 257

/-- MAX_CODE_LEN: the longest code a tree of NODE_CAP nodes can give (R8, D16). -/
abbrev Config.maxCodeLen : Nat := 256

/-- The default of the parameter HUFF_MAGIC (R8, R69, D21): [from general knowledge, not in source]. -/
def Config.defaultMagic : Word := 0xFACE8201#32

/-- The parameters of R8 that a model takes as arguments, fixed for one instance: COUNT_W, HUFF_MAGIC, TIEBREAK and
REG_BASE. They are plain data, so a statement about every state is a statement about every parameter (log entry 1). -/
structure Params where
  /-- COUNT_W, the width of every counter and weight, 8..32 (D10). -/
  countW    : Nat
  /-- HUFF_MAGIC, the value of the MAGIC register (R29, R69). -/
  huffMagic : Word
  /-- TIEBREAK (R91): entry i ranks node i among nodes of equal weight, lesser first; an absent entry ranks 0, and equal
  ranks are ordered by node index. The empty list is TB_REF. Log entry 2 says why this covers every tie-break. -/
  tieRank   : List Nat
  /-- REG_BASE, the address of the register space in the host's address map (R55). -/
  regBase   : Nat
  deriving DecidableEq, Repr

/-- The range R8 gives COUNT_W: 8..32. -/
def Params.ok (p : Params) : Bool := decide (8 ≤ p.countW) && decide (p.countW ≤ 32)

/-- MAX_BYTES = 2^COUNT_W − 2, the largest input length COUNT accepts (R8, D10). -/
def Params.maxBytes (p : Params) : Nat := 2 ^ p.countW - 2

/-- The rank of node i under TIEBREAK (R91). -/
def Params.rank (p : Params) (i : Nat) : Nat := p.tieRank.getD i 0

/-- The parameters at their defaults (R8): COUNT_W = 32, HUFF_MAGIC = 0xFACE8201, TB_REF. REG_BASE has no default in the
spec; 0 here is a DESIGN CHOICE, unsafe (log entry 3). -/
def Params.default : Params :=
  { countW := 32, huffMagic := Config.defaultMagic, tieRank := [], regBase := 0 }

/-- FREE VALUE (R58, R140): what the host reads from a register while BUSY = 1, one per draw. Nothing constrains it. -/
opaque Config.freeWord : Nat → Word

/-- FREE VALUE (R137): where a reset during a running command leaves the ports, one per draw. Nothing constrains it. -/
opaque Config.freeNat : Nat → Nat

end Sys2Proof
end

