-- ==== Sys2Proof/Syntax.lean ====
section
/-! DEFINITION. The syntax of HUFF-CORE: the fourteen commands and the six stream tokens, one constructor of Instr per row of
spec/opcode_table.json. -/

namespace Sys2Proof

/-- The commands of the opcode map (30_encoding.md R65), by themselves: what a CMD word can name. -/
inductive Op where
  | nop | clear | count | build | derive | wrMagic | wrHeader | encode | closeOut
  | rdMagic | rdHeader | decode | compress | decompress
  deriving DecidableEq, Repr

/-- One row of spec/opcode_table.json each: first the commands (R65), then the stream tokens (R68 to R77). A token is no
command (R63): it crosses a port inside a command. -/
inductive Instr where
  | nop
  | clear
  | count
  | build
  | derive
  | wrMagic
  | wrHeader
  | encode
  | closeOut
  | rdMagic
  | rdHeader
  | decode
  | compress
  | decompress
  /-- MAGIC, the 32-bit string of HUFF_MAGIC (R69). -/
  | magic
  /-- HDR_INTERNAL, the single bit 0 (R70). -/
  | hdrInternal
  /-- HDR_LEAF, the bit 1 and the leaf's 9-bit value (R71). -/
  | hdrLeaf (value : BitVec 9)
  /-- CODE_WORD, the code of a symbol 0..256 (R74). -/
  | codeWord (sym : BitVec 9)
  /-- PAD, 0 to 7 zero bits (R76). -/
  | pad (n : Nat)
  /-- INPUT_UNIT, one 8-bit unit of the input (R77). -/
  | inputUnit (u : Byte)
  deriving DecidableEq, Repr

/-- The instruction a command of the opcode map is. -/
def Op.instr : Op → Instr
  | .nop => .nop
  | .clear => .clear
  | .count => .count
  | .build => .build
  | .derive => .derive
  | .wrMagic => .wrMagic
  | .wrHeader => .wrHeader
  | .encode => .encode
  | .closeOut => .closeOut
  | .rdMagic => .rdMagic
  | .rdHeader => .rdHeader
  | .decode => .decode
  | .compress => .compress
  | .decompress => .decompress

/-- The command an instruction is; none for a stream token (R63). -/
def Instr.op? : Instr → Option Op
  | .nop => some .nop
  | .clear => some .clear
  | .count => some .count
  | .build => some .build
  | .derive => some .derive
  | .wrMagic => some .wrMagic
  | .wrHeader => some .wrHeader
  | .encode => some .encode
  | .closeOut => some .closeOut
  | .rdMagic => some .rdMagic
  | .rdHeader => some .rdHeader
  | .decode => some .decode
  | .compress => some .compress
  | .decompress => some .decompress
  | .magic => none
  | .hdrInternal => none
  | .hdrLeaf _ => none
  | .codeWord _ => none
  | .pad _ => none
  | .inputUnit _ => none

end Sys2Proof
end

