-- ==== Sys2Proof/WellFormed.lean ====
section
/-! DEFINITION. Which terms of Instr the encodings of 30_encoding.md can spell. -/

namespace Sys2Proof

/-- The ranges of the operands: a leaf value and a symbol are 0..256 (R71, R72, R74), a padding is 0..7 bits (R76). Commands
carry no operand (R67), and every 8-bit unit is one (R77). -/
def Instr.wf : Instr → Bool
  | .nop => true
  | .clear => true
  | .count => true
  | .build => true
  | .derive => true
  | .wrMagic => true
  | .wrHeader => true
  | .encode => true
  | .closeOut => true
  | .rdMagic => true
  | .rdHeader => true
  | .decode => true
  | .compress => true
  | .decompress => true
  | .magic => true
  | .hdrInternal => true
  | .hdrLeaf v => decide (v.toNat ≤ Config.sentinel)
  | .codeWord s => decide (s.toNat ≤ Config.sentinel)
  | .pad n => decide (n ≤ 7)
  | .inputUnit _ => true

end Sys2Proof
end

