-- ==== Sys2Proof/Decode.lean ====
section
/-! DEFINITION. The encodings of 30_encoding.md: the bit-order helpers, the command words, the stream tokens, their decoders
(total, rejecting by name) and after them their encoders. -/

namespace Sys2Proof

/-- bits_N(v): the N-bit string of v, most significant bit first (00_scope.md R10). -/
def bitsOf : Nat → Nat → Bits
  | 0, _ => []
  | n + 1, v => v.testBit n :: bitsOf n v

/-- num(s): the number whose bit string is s (00_scope.md R10); num("") = 0. -/
def num (s : Bits) : Nat := s.foldl (fun a b => 2 * a + b.toNat) 0

/-- Why a word or a bit string is no instruction. -/
inductive DecodeError where
  /-- A command word with RSVD = CMD[31:8] ≠ 0 (R66). -/
  | reservedBits
  /-- A command word with OP in 0x0E..0xFF (R66). -/
  | undefinedOpcode
  /-- The stream ends inside the token. -/
  | truncated
  /-- The first 32 bits are not HUFF_MAGIC (R69). -/
  | notMagic
  /-- A 9-bit leaf value of 257..511 (R72). -/
  | reservedLeafValue
  /-- No code of the code book begins the bits (R74). -/
  | noCode
  /-- More than 7 bits, or a bit that is not 0, in the padding (R76). -/
  | notPadding
  deriving DecidableEq, Repr

/-- The opcode map (R65): OP = CMD[7:0]. -/
def opOfCode (c : BitVec 8) : Option Op :=
  match c.toNat with
  | 0x00 => some .nop
  | 0x01 => some .clear
  | 0x02 => some .count
  | 0x03 => some .build
  | 0x04 => some .derive
  | 0x05 => some .wrMagic
  | 0x06 => some .wrHeader
  | 0x07 => some .encode
  | 0x08 => some .closeOut
  | 0x09 => some .rdMagic
  | 0x0A => some .rdHeader
  | 0x0B => some .decode
  | 0x0C => some .compress
  | 0x0D => some .decompress
  | _ => none

/-- The command a CMD word names, or why it names none (R64, R65, R66). -/
def decodeOp (w : Word) : Except DecodeError Op :=
  if w.extractLsb' 8 24 ≠ 0#24 then .error .reservedBits
  else
    match opOfCode (w.extractLsb' 0 8) with
    | some op => .ok op
    | none => .error .undefinedOpcode

/-- The instruction a CMD word is (R63: no stream token is a command). -/
def decodeCommand (w : Word) : Except DecodeError Instr :=
  match decodeOp w with
  | .ok op => .ok op.instr
  | .error e => .error e

/-- Where on a stream a token stands: a stream's order says which kind comes next (R68, R77). -/
inductive StreamPart where
  /-- The first 32 bits of a compressed stream (R69). -/
  | magic
  /-- The pre-order tree header (R70, R71). -/
  | header
  /-- The payload (R74, R75). -/
  | payload
  /-- What follows the payload's last code, to the end of the stream (R76). -/
  | padding
  /-- The uncompressed input (R77). -/
  | unit
  deriving DecidableEq, Repr

/-- What the encoding of a stream depends on besides the bits: HUFF_MAGIC (R69), and the codes of the symbols (R74). -/
structure StreamBook where
  magic : Word
  codes : List (BitVec 9 × Bits)
  deriving DecidableEq, Repr

/-- Takes the first n bits, if there are n. -/
def takeBits (n : Nat) (s : Bits) : Option (Bits × Bits) :=
  if n ≤ s.length then some (s.take n, s.drop n) else none

/-- The first code of the book that begins the bits (R74). -/
def findCode (s : Bits) : List (BitVec 9 × Bits) → Option (BitVec 9 × Bits)
  | [] => none
  | (sym, c) :: rest => if c.isPrefixOf s then some (sym, s.drop c.length) else findCode s rest

/-- A tree-header token (R70, R71, R72) and the bits after it. -/
def decodeHeaderToken : Bits → Except DecodeError (Instr × Bits)
  | [] => .error .truncated
  | false :: rest => .ok (.hdrInternal, rest)
  | true :: rest =>
    match takeBits Config.leafBits rest with
    | none => .error .truncated
    | some (v, rest') =>
      if num v ≤ Config.sentinel then .ok (.hdrLeaf (BitVec.ofNat 9 (num v)), rest')
      else .error .reservedLeafValue

/-- The token that begins the bits at a given part of a stream, and the bits after it. -/
def decodeToken (book : StreamBook) (part : StreamPart) (s : Bits) : Except DecodeError (Instr × Bits) :=
  match part with
  | .magic =>
    match takeBits Config.magicBits s with
    | none => .error .truncated
    | some (m, rest) => if num m = book.magic.toNat then .ok (.magic, rest) else .error .notMagic
  | .header => decodeHeaderToken s
  | .payload =>
    match findCode s book.codes with
    | none => .error .noCode
    | some (sym, rest) => .ok (.codeWord sym, rest)
  | .padding =>
    if s.length ≤ 7 ∧ s.all (fun b => !b) then .ok (.pad s.length, []) else .error .notPadding
  | .unit =>
    match takeBits Config.unitBits s with
    | none => .error .truncated
    | some (u, rest) => .ok (.inputUnit (BitVec.ofNat 8 (num u)), rest)

/-- Drops the reason of a rejection and the bits after a token. -/
def tokenOnly (r : Except DecodeError (Instr × Bits)) : Option Instr :=
  match r with
  | .ok (i, _) => some i
  | .error _ => none

/-- What the decoders read from a table row's word: 32 bits are a command word, or the magic token at the default HUFF_MAGIC;
9 to 16 bits hold the 10-bit leaf token, its first stream bit at bit 9; up to 8 bits hold the 1-bit internal token where bit 0
is 0, and an input unit where it is 1 (log entry 14). -/
def decodeTableWord (nbits w : Nat) : Option Instr :=
  let book : StreamBook := { magic := Config.defaultMagic, codes := [] }
  if nbits ≤ 8 then
    if w % 2 = 0 then tokenOnly (decodeToken book .header (bitsOf 1 w))
    else tokenOnly (decodeToken book .unit (bitsOf 8 w))
  else if nbits ≤ 16 then tokenOnly (decodeToken book .header (bitsOf 10 w))
  else if nbits = 32 then
    match decodeCommand (BitVec.ofNat 32 w) with
    | .ok i => some i
    | .error _ => tokenOnly (decodeToken book .magic (bitsOf 32 w))
  else none

/-- The opcode of a command (R65). -/
def Op.code : Op → BitVec 8
  | .nop => 0x00#8
  | .clear => 0x01#8
  | .count => 0x02#8
  | .build => 0x03#8
  | .derive => 0x04#8
  | .wrMagic => 0x05#8
  | .wrHeader => 0x06#8
  | .encode => 0x07#8
  | .closeOut => 0x08#8
  | .rdMagic => 0x09#8
  | .rdHeader => 0x0A#8
  | .decode => 0x0B#8
  | .compress => 0x0C#8
  | .decompress => 0x0D#8

/-- The whole CMD word of a command: zext_32(OP) (R65). -/
def Op.word (op : Op) : Word := op.code.zeroExtend 32

/-- The CMD word of an instruction that is a command; none for a stream token. -/
def encodeCommand (i : Instr) : Option Word := i.op?.map Op.word

/-- The code of a symbol in the book (R74). -/
def StreamBook.codeOf (book : StreamBook) (sym : BitVec 9) : Option Bits :=
  (book.codes.find? (fun e => e.1 == sym)).map Prod.snd

/-- The bits of a stream token (R69 to R77); none for a command, and for a symbol that has no code. -/
def encodeToken (book : StreamBook) : Instr → Option Bits
  | .magic => some (bitsOf Config.magicBits book.magic.toNat)
  | .hdrInternal => some [false]
  | .hdrLeaf v => some (true :: bitsOf Config.leafBits v.toNat)
  | .codeWord sym => book.codeOf sym
  | .pad n => some (List.replicate n false)
  | .inputUnit u => some (bitsOf Config.unitBits u.toNat)
  | .nop => none
  | .clear => none
  | .count => none
  | .build => none
  | .derive => none
  | .wrMagic => none
  | .wrHeader => none
  | .encode => none
  | .closeOut => none
  | .rdMagic => none
  | .rdHeader => none
  | .decode => none
  | .compress => none
  | .decompress => none

end Sys2Proof
end

