-- ==== Sys2Proof/Machine/State.lean ====
section
/-! DEFINITION. The state of HUFF-CORE and its environment as plain data, the ways a step can stop, and reset. -/

namespace Sys2Proof.Machine

/-- The error codes of STATUS.ERR (60_exceptions.md R117). -/
inductive ErrCode where
  | none | illegalCmd | sequence | format | truncHeader | truncPayload | walkOffLeaf | badLeafValue
  | nodeOverflow | lengthOverflow | uncodedSymbol
  deriving DecidableEq, Repr

/-- The decoder's state STATUS.DSTATE (10_state.md R23). -/
inductive DState where
  | atRoot | midWalk | done
  deriving DecidableEq, Repr

/-- The fields of STATUS (10_state.md R27); outClosed is also the output port's flag closed (20_memory.md R47). -/
structure Status where
  busy      : Bool
  done      : Bool
  freqValid : Bool
  treeValid : Bool
  codeValid : Bool
  outClosed : Bool
  ovr       : Bool
  dstate    : DState
  eos       : Bool
  err       : ErrCode
  deriving DecidableEq, Repr

/-- One entry of the node arena (10_state.md R19). -/
structure Node where
  isLeaf : Bool
  value  : Nat
  weight : Nat
  left   : Nat
  right  : Nat
  deriving DecidableEq, Repr

/-- One entry of the code table (10_state.md R22); LEN is the length of BITS (log entry 16). -/
structure CodeEntry where
  valid : Bool
  bits  : Bits
  deriving DecidableEq, Repr

/-- An entry that is unset (R22): VALID = 0, LEN = 0, BITS = "". -/
def CodeEntry.unset : CodeEntry := { valid := false, bits := [] }

/-- What the host and the platform do to the block (R14, R54, R79, R135; log entry 4). Addresses are in the host's address
map, widths in bytes. -/
inductive HostOp where
  /-- A register read. -/
  | read (addr width : Nat)
  /-- A register write. A CMD write also carries lag, the number of further host operations that land before the atomic step
  of the command it starts (R57; log entry 5). -/
  | write (addr width : Nat) (v : Word) (lag : Nat)
  /-- The pseudo-instruction wait: read STATUS until BUSY = 0 (R79). -/
  | wait
  /-- The host binds the input port to these bytes, at the first bit (R43, R142). While a command runs, late says that it has
  made its pass before the rewind, or its only pass, over the bytes that were there (R141; log entry 24). -/
  | bindInput (data : List Byte) (late : Bool)
  /-- The host binds a fresh, empty output stream (R47, R145). -/
  | bindOutput
  /-- The platform asserts reset (R135, R137). -/
  | reset
  deriving DecidableEq, Repr

/-- The whole machine: the block's state (10_state.md R15), the contents of the two ports (20_memory.md R43, R47), and what
the model needs of the host. INVENTORY.md lists each field with its rule. -/
structure State where
  /-- The hardwired parameters: MAGIC (R29), COUNT_W of CONFIG (R30), TIEBREAK, REG_BASE. -/
  params    : Params
  /-- FREQ (R17). -/
  freq      : Table Nat 256
  /-- NBYTES (R18). -/
  nbytes    : Nat
  /-- NODE, the entries in use; their number is NNODES (R19; log entry 7). -/
  nodes     : List Node
  /-- ROOT (R19). -/
  root      : Nat
  /-- PQ, empty but inside BUILD (R21). -/
  pq        : List Nat
  /-- CODE (R22). -/
  code      : Table CodeEntry 257
  /-- CUR (R23). -/
  cur       : Nat
  /-- STATUS (R27). -/
  status    : Status
  /-- CMD, the latched command word (R24, R26). -/
  cmd       : Word
  /-- ERR_INFO (R28). -/
  errInfo   : Word
  /-- BITS_IN (R34). -/
  bitsIn    : Word
  /-- BITS_OUT (R35). -/
  bitsOut   : Word
  /-- TBL_ADDR (R36). -/
  tblAddr   : Word
  /-- B, the bytes of the input port (R43). -/
  inData    : List Byte
  /-- p, the bit position of the input port (R43). -/
  inPos     : Nat
  /-- The bytes the host has bound after a running command's first pass: the port holds them from the command's rewind on, or
  from its end where it does not rewind (70_reset_and_hazards.md R141; log entry 24). -/
  lateInput : Option (List Byte)
  /-- O, the bits of the output port (R47). -/
  out       : Bits
  /-- The position inside a running command, where that is a stream token about to cross a port (R24). A command is one
  atomic step, so no run from reset puts a token here (log entry 13). -/
  token     : Option Instr
  /-- How many host operations still land before the running command's step (R57; log entry 5). -/
  lag       : Nat
  /-- What the host does next, in order (R57; log entry 4). -/
  hostOps   : List HostOp
  /-- What the host's reads returned, newest first (log entry 4). -/
  hostReads : List Word
  /-- How many free values were drawn (R58, R137; log entry 6). -/
  draws     : Nat
  deriving DecidableEq, Repr

/-- Ways the machine can stop that no rule of the spec describes; every one is raised only in states that no run reaches.
The hardware's own faults are recorded in STATUS.ERR and are next states (R119). -/
inductive Fault where
  /-- DERIVE, WR_HEADER: the arena holds no complete tree at ROOT although TREE_VALID = 1 (R20). Safe: the model stops. -/
  | brokenTree
  /-- DECODE: CUR or a child index names no node in use (R20). Safe: the model stops. -/
  | danglingNode
  /-- BUILD: the queue holds no node when the root is taken (R89 always queues the sentinel). Safe: the model stops. -/
  | emptyQueue
  /-- COUNT, ENCODE, DECODE, RD_HEADER: the bound of a loop ran out, which R110 and R150 exclude. Safe: the model stops. -/
  | loopBound
  /-- The sequencer: BUSY = 1 with a CMD word that names no command (R26). Safe: the model stops. -/
  | noCommandLatched
  deriving DecidableEq, Repr

/-- What the model does not answer, each by name. -/
inductive Refusal where
  /-- exec: an instruction without a meaning; none is left. Safe. -/
  | notModelled (mnemonic : String)
  /-- A host access that is narrow, wide, misaligned or outside the register space: the interface defines none (R52). Safe. -/
  | undefinedAccess
  /-- A stream token for a closed output port: the block never writes one (R48). Safe. -/
  | outputClosed
  /-- An input unit that is not the one at the input port (R77). Safe. -/
  | unitNotAtPort
  deriving DecidableEq, Repr

/-- How a command's pseudocode ends (R12, R119): it returns a value, or raises a fault with what it wrote so far kept. The
third way is the model's own stop. -/
inductive Run (α : Type) where
  | ok (a : α) (s : State)
  | raised (c : ErrCode) (info : Word) (s : State)
  | stuck (f : Fault)

/-- STATUS at reset: 0x00000000 (R135). -/
def Status.reset : Status :=
  { busy := false, done := false, freqValid := false, treeValid := false, codeValid := false, outClosed := false
    ovr := false, dstate := .atRoot, eos := false, err := .none }

/-- The machine right after reset (R41, R135), with default parameters, an input port without data and an empty, open output
port (R145). The environment's and the model's own fields are DESIGN CHOICES (log entries 3, 4, 5, 6, 19). -/
def State.reset : State :=
  { params := Params.default
    freq := Table.fill 256 0
    nbytes := 0
    nodes := []
    root := 0
    pq := []
    code := Table.fill 257 CodeEntry.unset
    cur := 0
    status := Status.reset
    cmd := 0#32
    errInfo := 0#32
    bitsIn := 0#32
    bitsOut := 0#32
    tblAddr := 0#32
    inData := []
    inPos := 0
    lateInput := none
    out := []
    token := none
    lag := 0
    hostOps := []
    hostReads := []
    draws := 0 }

end Sys2Proof.Machine
end

