-- ==== Sys2Proof/Machine/Flags.lean ====
section
/-! DEFINITION. The flags: STATUS as a word, the preconditions of the commands, and which commands read the input port. -/

namespace Sys2Proof.Machine

/-- STATUS.ERR of an error (60_exceptions.md R117). -/
def ErrCode.code : ErrCode → BitVec 8
  | .none => 0#8
  | .illegalCmd => 1#8
  | .sequence => 2#8
  | .format => 3#8
  | .truncHeader => 4#8
  | .truncPayload => 5#8
  | .walkOffLeaf => 6#8
  | .badLeafValue => 7#8
  | .nodeOverflow => 8#8
  | .lengthOverflow => 9#8
  | .uncodedSymbol => 10#8

/-- STATUS.DSTATE of a decoder state (10_state.md R23). -/
def DState.code : DState → BitVec 2
  | .atRoot => 0#2
  | .midWalk => 1#2
  | .done => 2#2

/-- STATUS as the host reads it: the layout of 10_state.md R27, reserved bits 0. -/
def Status.word (f : Status) : Word :=
  0#8 ++ f.err.code ++ 0#5 ++ BitVec.ofBool f.eos ++ f.dstate.code ++ 0#1 ++ BitVec.ofBool f.ovr
    ++ BitVec.ofBool f.outClosed ++ BitVec.ofBool f.codeValid ++ BitVec.ofBool f.treeValid
    ++ BitVec.ofBool f.freqValid ++ BitVec.ofBool f.done ++ BitVec.ofBool f.busy

/-- Pre(OP): what STATUS must hold for an accepted command to run (40_control.md R81). -/
def preHolds (op : Op) (f : Status) : Bool :=
  match op with
  | .nop => true
  | .clear => true
  | .count => true
  | .build => f.freqValid
  | .derive => f.treeValid
  | .wrMagic => !f.outClosed
  | .wrHeader => f.treeValid && !f.outClosed
  | .encode => f.codeValid && !f.outClosed
  | .closeOut => !f.outClosed
  | .rdMagic => true
  | .rdHeader => true
  | .decode => f.treeValid && !f.outClosed
  | .compress => !f.outClosed
  | .decompress => !f.outClosed

/-- The commands whose acceptance zeroes BITS_IN and EOS (40_control.md R80). -/
def readsInput : Op → Bool
  | .nop => false
  | .clear => false
  | .count => true
  | .build => false
  | .derive => false
  | .wrMagic => false
  | .wrHeader => false
  | .encode => true
  | .closeOut => false
  | .rdMagic => true
  | .rdHeader => true
  | .decode => true
  | .compress => true
  | .decompress => true

/-- The words accepted while an error is pending: CLEAR, and CLOSE_OUT on an open output (40_control.md R80, case 2). -/
def Status.acceptsUnderError (f : Status) (op : Op) : Bool :=
  decide (op = .clear) || (decide (op = .closeOut) && !f.outClosed)

end Sys2Proof.Machine
end

