-- ==== Sys2Proof/Machine/Ops.lean ====
section
/-! DEFINITION. The named operations every command is written from: the sequencing of a command's pseudocode, the four port
primitives, recording a fault and leaving one, accepting a command and running it to completion. -/

namespace Sys2Proof.Machine

/-- One after another: what follows a raise does not run (00_scope.md R12). -/
def Run.bind {α β : Type} (r : Run α) (f : α → State → Run β) : Run β :=
  match r with
  | .ok a s => f a s
  | .raised c info s => .raised c info s
  | .stuck e => .stuck e

/-- A step that runs on completion and on any fault (46_pipelines.md R111, R112). -/
def Run.closing {α : Type} (r : Run α) (close : State → State) : Run α :=
  match r with
  | .ok a s => .ok a (close s)
  | .raised c info s => .raised c info (close s)
  | .stuck e => .stuck e

/-- Bit k of the input stream: bit 7 − k mod 8 of byte k div 8 (20_memory.md R43). -/
def inBit (data : List Byte) (k : Nat) : Bool := (data.getD (k / 8) 0#8).getLsbD (7 - k % 8)

/-- The n bits of the input stream from position p. -/
def inField (data : List Byte) (p n : Nat) : Bits := (List.range n).map (fun i => inBit data (p + i))

/-- InRead(n) (20_memory.md R44, R45): a number, or END as none. -/
def inRead (n : Nat) (s : State) : Option Nat × State :=
  if s.inPos + n ≤ 8 * s.inData.length then
    (some (num (inField s.inData s.inPos n)),
      { s with inPos := s.inPos + n, bitsIn := s.bitsIn + BitVec.ofNat 32 n })
  else
    (none, { s with inPos := 8 * s.inData.length, status := { s.status with eos := true } })

/-- The bytes the input port presents from a rewind on: those of the first pass, unless the host has changed them since
(70_reset_and_hazards.md R141). -/
def State.secondPass (s : State) : List Byte := s.lateInput.getD s.inData

/-- InReset() (20_memory.md R46), where data changed after the first pass comes into sight (70_reset_and_hazards.md R141). -/
def inReset (s : State) : State := { s with inData := s.secondPass, inPos := 0, lateInput := none }

/-- The host binds the input port (20_memory.md R43): at once, or, while a command runs, after its first pass; a binding that
follows such a late one is late too (70_reset_and_hazards.md R141; log entry 24). -/
def bindInput (data : List Byte) (late : Bool) (s : State) : State :=
  if s.status.busy && (late || s.lateInput.isSome) then { s with lateInput := some data }
  else { s with inData := data, inPos := 0 }

/-- At the end of a command, data bound after its only pass is at the input port, at its first bit. -/
def takeLate (s : State) : State :=
  match s.lateInput with
  | none => s
  | some data => { s with inData := data, inPos := 0, lateInput := none }

/-- OutWrite(str) (20_memory.md R48). -/
def outWrite (str : Bits) (s : State) : State :=
  { s with out := s.out ++ str, bitsOut := s.bitsOut + BitVec.ofNat 32 str.length }

/-- The padding OutClose appends: to the next multiple of 8 bits, 0..7 (20_memory.md R49). -/
def padLength (n : Nat) : Nat := (8 - n % 8) % 8

/-- OutClose() (20_memory.md R49): the PAD token, then the port is closed. -/
def outClose (s : State) : State :=
  let t := outWrite (List.replicate (padLength s.out.length) false) s
  { t with status := { t.status with outClosed := true } }

/-- Recording a fault (60_exceptions.md R119): the one way every raise ends a command. -/
def recordFault (c : ErrCode) (info : Word) (s : State) : State :=
  { s with status := { s.status with err := c, busy := false }, errInfo := info }

/-- Completion without fault (40_control.md R80, last line). -/
def complete (s : State) : State := { s with status := { s.status with done := true, busy := false } }

/-- What a command's end leaves: completion, or the recorded fault. -/
def settle (r : Run Unit) : Host.Outcome State Fault Refusal :=
  match r with
  | .ok _ s => .next (complete s)
  | .raised c info s => .next (recordFault c info s)
  | .stuck f => .fault f

/-- Acceptance (40_control.md R80, case 4): the word is latched, DONE drops, BUSY rises. -/
def accept (op : Op) (s : State) : State :=
  { s with cmd := op.word, status := { s.status with done := false, busy := true } }

/-- What acceptance does for a command that reads the input port: BITS_IN and EOS are zeroed (40_control.md R80). -/
def startReading (op : Op) (s : State) : State :=
  if readsInput op then { s with bitsIn := 0#32, status := { s.status with eos := false } } else s

/-- A word that is no command, offered while idle with no error (60_exceptions.md R120). -/
def recordIllegal (w : Word) (s : State) : State :=
  { s with status := { s.status with err := .illegalCmd, done := false }, errInfo := w }

/-- A word dropped because a command runs (40_control.md R80, case 1). -/
def dropBusy (s : State) : State := { s with status := { s.status with ovr := true } }

/-- An accepted command up to its end: SEQUENCE if Pre is false, else its body (40_control.md R80, R81). -/
def runAccepted (op : Op) (body : State → Run Unit) (s : State) : Run Unit :=
  if preHolds op s.status then body (startReading op s) else .raised .sequence op.word s

/-- Offering the word of a command and, if it is accepted, running it to completion: the whole of 40_control.md R80. -/
def command (op : Op) (body : State → Run Unit) (s : State) : Host.Outcome State Fault Refusal :=
  if s.status.busy then .next (dropBusy s)
  else if s.status.err ≠ .none ∧ s.status.acceptsUnderError op = false then .next s
  else settle (runAccepted op body (accept op s))

/-- Leaving a recorded fault, and the body of CLEAR (40_control.md R84, 60_exceptions.md R125): every piece of block state
returns to its reset value; the host's declaration that a fresh, empty output port is bound empties O (R145; log entry 9).
CMD, BUSY and DONE belong to the command's acceptance and completion. -/
def clearBlock (s : State) : State :=
  { s with
    freq := Table.fill 256 0
    nbytes := 0
    nodes := []
    root := 0
    pq := []
    code := Table.fill 257 CodeEntry.unset
    cur := 0
    status := { Status.reset with busy := s.status.busy, done := s.status.done }
    errInfo := 0#32
    bitsIn := 0#32
    bitsOut := 0#32
    tblAddr := 0#32
    out := [] }

end Sys2Proof.Machine
end

