-- ==== Sys2Proof/Machine/Operands.lean ====
section
/-! DEFINITION. The operands. No command word carries one (30_encoding.md R67): every operand is state of the block or data on
a port. Here stand the views of the datapath arrays the commands read: the tree in the node arena, and the codes. -/

namespace Sys2Proof.Machine

/-- A code tree (00_scope.md R13): what the node arena holds below one of its nodes. -/
inductive Tree where
  | leaf (value : Nat)
  | node (left right : Tree)
  deriving DecidableEq, Repr

/-- The tree below node n of the arena, if the arena holds one of at most fuel levels with values 0..256; every tree that
BUILD or RD_HEADER completes has at most NNODES levels (10_state.md R20). -/
def treeAt (nodes : List Node) : Nat → Nat → Option Tree
  | 0, _ => none
  | fuel + 1, n =>
    match nodes[n]? with
    | none => none
    | some nd =>
      if nd.isLeaf then
        if nd.value ≤ Config.sentinel then some (.leaf nd.value) else none
      else
        match treeAt nodes fuel nd.left with
        | none => none
        | some l =>
          match treeAt nodes fuel nd.right with
          | none => none
          | some r => some (.node l r)

/-- The current tree: the one at ROOT (R19). -/
def State.tree (s : State) : Option Tree := treeAt s.nodes s.nodes.length s.root

/-- NODE[i].WEIGHT (R19); an index of no node in use, which no rule reads, gives 0. -/
def State.weight (s : State) (i : Nat) : Nat := (s.nodes[i]?.map Node.weight).getD 0

/-- CODE[sym].LEN (R22). -/
def CodeEntry.len (e : CodeEntry) : Nat := e.bits.length

/-- CODE[sym] (R22); a number that is no symbol, which no rule looks up, has no code. -/
def State.codeEntry (s : State) (sym : Nat) : CodeEntry := (s.code.get? sym).getD CodeEntry.unset

/-- Emitting the code of a symbol, or UNCODED_SYMBOL where it has none (45_payload_codec.md R105). -/
def emitCode (sym : Nat) (s : State) : Run Unit :=
  if (s.codeEntry sym).valid then .ok () (outWrite (s.codeEntry sym).bits s)
  else .raised .uncodedSymbol (BitVec.ofNat 32 sym) s

end Sys2Proof.Machine
end

