-- ==== Sys2Proof/Machine/CodeTable.lean ====
section
/-! DEFINITION. The code-table deriver: DERIVE (43_code_table.md R96 to R98). -/

namespace Sys2Proof.Machine

/-- Walk(n, path) (R96): left before right, so the leaf visited last keeps its entry. -/
def walk : Tree → Bits → Table CodeEntry 257 → Table CodeEntry 257
  | .leaf v, path, code => code.set v { valid := true, bits := path }
  | .node l r, path, code => walk r (path ++ [true]) (walk l (path ++ [false]) code)

/-- Execute(DERIVE) (R96). -/
def deriveBody (s : State) : Run Unit :=
  match s.tree with
  | none => .stuck .brokenTree
  | some t =>
    .ok () { s with
      code := walk t [] (Table.fill 257 CodeEntry.unset)
      status := { s.status with codeValid := true } }

/-- DERIVE (R96). -/
def execDerive (s : State) : Host.Outcome State Fault Refusal := command .derive deriveBody s

end Sys2Proof.Machine
end

