-- ==== Sys2Proof/Machine/Control.lean ====
section
/-! DEFINITION. The control commands NOP, CLEAR and CLOSE_OUT (40_control.md R83 to R85). -/

namespace Sys2Proof.Machine

/-- NOP (R83): skip. -/
def nopBody (s : State) : Run Unit := .ok () s

/-- CLEAR (R84). -/
def clearBody (s : State) : Run Unit := .ok () (clearBlock s)

/-- CLOSE_OUT (R85). -/
def closeOutBody (s : State) : Run Unit := .ok () (outClose s)

/-- NOP (R83). -/
def execNop (s : State) : Host.Outcome State Fault Refusal := command .nop nopBody s

/-- CLEAR (R84). -/
def execClear (s : State) : Host.Outcome State Fault Refusal := command .clear clearBody s

/-- CLOSE_OUT (R85). -/
def execCloseOut (s : State) : Host.Outcome State Fault Refusal := command .closeOut closeOutBody s

end Sys2Proof.Machine
end

