-- ==== Sys2Proof/Machine/Frequency.lean ====
section
/-! DEFINITION. The frequency counter: COUNT (41_frequency.md R86, R87). -/

namespace Sys2Proof.Machine

/-- Counting one unit (R86, R87): LENGTH_OVERFLOW at MAX_BYTES, else exactly 1 more in FREQ[u] and NBYTES. -/
def countUnit (u : Nat) (s : State) : Run Unit :=
  if s.nbytes = s.params.maxBytes then .raised .lengthOverflow (BitVec.ofNat 32 s.nbytes) s
  else .ok () { s with freq := s.freq.set u ((s.freq.get? u).getD 0 + 1), nbytes := s.nbytes + 1 }

/-- COUNT's loop: InRead(8) until END. Each pass takes a whole unit or is the last, so a bound of one more than the units
left is never met. -/
def countLoop : Nat → State → Run Unit
  | 0, _ => .stuck .loopBound
  | bound + 1, s =>
    match inRead 8 s with
    | (none, t) => .ok () t
    | (some u, t) => (countUnit u t).bind (fun _ t' => countLoop bound t')

/-- What COUNT does before its first read (R86, 10_state.md R39). -/
def countStart (s : State) : State :=
  { s with
    freq := Table.fill 256 0
    nbytes := 0
    status := { s.status with freqValid := false, treeValid := false, codeValid := false } }

/-- Execute(COUNT) (R86). -/
def countBody (s : State) : Run Unit :=
  (countLoop ((8 * s.inData.length - s.inPos) / 8 + 1) (countStart s)).bind
    (fun _ t => .ok () { t with status := { t.status with freqValid := true } })

/-- COUNT (R86). -/
def execCount (s : State) : Host.Outcome State Fault Refusal := command .count countBody s

end Sys2Proof.Machine
end

