-- ==== Sys2Proof/Machine/HeaderCodec.lean ====
section
/-! DEFINITION. The tree-header serializer and deserializer: WR_MAGIC, WR_HEADER, RD_MAGIC and RD_HEADER (44_header_codec.md
R99 to R104). -/

namespace Sys2Proof.Machine

/-- Emitting the MAGIC token (30_encoding.md R69). -/
def emitMagic (s : State) : State := outWrite (bitsOf Config.magicBits s.params.huffMagic.toNat) s

/-- Emitting the HDR_INTERNAL token (30_encoding.md R70). -/
def emitInternal (s : State) : State := outWrite [false] s

/-- Emitting the HDR_LEAF token (30_encoding.md R71): OutWrite("1"), then OutWrite(bits_9(v)). -/
def emitLeaf (v : Nat) (s : State) : State := outWrite (bitsOf Config.leafBits v) (outWrite [true] s)

/-- Execute(WR_MAGIC) (R99). -/
def wrMagicBody (s : State) : Run Unit := .ok () (emitMagic s)

/-- Ser(n) (R100): a pre-order walk, left then right. -/
def ser : Tree → State → State
  | .leaf v, s => emitLeaf v s
  | .node l r, s => ser r (ser l (emitInternal s))

/-- Execute(WR_HEADER) (R100). -/
def wrHeaderBody (s : State) : Run Unit :=
  match s.tree with
  | none => .stuck .brokenTree
  | some t => .ok () (ser t s)

/-- Execute(RD_MAGIC) (R101). -/
def rdMagicBody (s : State) : Run Unit :=
  match inRead 32 s with
  | (none, t) => .raised .format 0#32 t
  | (some v, t) =>
    if v ≠ t.params.huffMagic.toNat then .raised .format (BitVec.ofNat 32 v) t else .ok () t

/-- Alloc() and the write of the new entry (R102). -/
def alloc (nd : Node) (s : State) : Run Nat :=
  if s.nodes.length = Config.nodeCap then .raised .nodeOverflow s.bitsIn s
  else .ok s.nodes.length { s with nodes := s.nodes ++ [nd] }

/-- NODE[i].LEFT <- l ; NODE[i].RIGHT <- r (R102). -/
def setChildren (i l r : Nat) (s : State) : State :=
  { s with nodes := s.nodes.modify i (fun nd => { nd with left := l, right := r }) }

/-- Des() (R102, R103). Each level below the first has allocated a node, so a depth of one more than NODE_CAP is never
passed. -/
def des : Nat → State → Run Nat
  | 0, _ => .stuck .loopBound
  | bound + 1, s =>
    match inRead 1 s with
    | (none, t) => .raised .truncHeader t.bitsIn t
    | (some b, t) =>
      if b = 1 then
        match inRead 9 t with
        | (none, u) => .raised .truncHeader u.bitsIn u
        | (some v, u) =>
          if v > Config.sentinel then .raised .badLeafValue (BitVec.ofNat 32 v) u
          else alloc { isLeaf := true, value := v, weight := 0, left := 0, right := 0 } u
      else
        (alloc { isLeaf := false, value := 0, weight := 0, left := 0, right := 0 } t).bind fun i u =>
          (des bound u).bind fun l u' =>
            (des bound u').bind fun r u'' => .ok i (setChildren i l r u'')

/-- Execute(RD_HEADER) (R102). -/
def rdHeaderBody (s : State) : Run Unit :=
  (des (Config.nodeCap + 1)
      { s with nodes := [], status := { s.status with treeValid := false, codeValid := false } }).bind
    fun r t => .ok () { t with root := r, status := { t.status with treeValid := true } }

/-- WR_MAGIC (R99). -/
def execWrMagic (s : State) : Host.Outcome State Fault Refusal := command .wrMagic wrMagicBody s

/-- WR_HEADER (R100). -/
def execWrHeader (s : State) : Host.Outcome State Fault Refusal := command .wrHeader wrHeaderBody s

/-- RD_MAGIC (R101). -/
def execRdMagic (s : State) : Host.Outcome State Fault Refusal := command .rdMagic rdMagicBody s

/-- RD_HEADER (R102). -/
def execRdHeader (s : State) : Host.Outcome State Fault Refusal := command .rdHeader rdHeaderBody s

end Sys2Proof.Machine
end

