-- ==== Sys2Proof/Machine/PayloadCodec.lean ====
section
/-! DEFINITION. The payload encoder and decoder: ENCODE and DECODE (45_payload_codec.md R105 to R110). -/

namespace Sys2Proof.Machine

/-- ENCODE's loop (R105): InRead(8) until END, each unit's code written. -/
def encodeLoop : Nat → State → Run Unit
  | 0, _ => .stuck .loopBound
  | bound + 1, s =>
    match inRead 8 s with
    | (none, t) => .ok () t
    | (some u, t) => (emitCode u t).bind (fun _ t' => encodeLoop bound t')

/-- Execute(ENCODE) (R105): rewind, the units' codes, then the sentinel's. -/
def encodeBody (s : State) : Run Unit :=
  (encodeLoop (s.secondPass.length + 1) (inReset s)).bind (fun _ t => emitCode Config.sentinel t)

/-- DECODE's loop (R107, R108): one bit a pass, so one more pass than bits left is never met (R110). -/
def decodeLoop : Nat → State → Run Unit
  | 0, _ => .stuck .loopBound
  | bound + 1, s =>
    match inRead 1 s with
    | (none, t) => .raised .truncPayload t.bitsIn t
    | (some b, t) =>
      match t.nodes[t.cur]? with
      | none => .stuck .danglingNode
      | some nd =>
        let c := if b = 0 then nd.left else nd.right
        match t.nodes[c]? with
        | none => .stuck .danglingNode
        | some cn =>
          if cn.isLeaf then
            if cn.value = Config.sentinel then
              .ok () { t with cur := c, status := { t.status with dstate := .done } }
            else
              let u := outWrite (bitsOf 8 cn.value) t
              decodeLoop bound { u with cur := u.root, status := { u.status with dstate := .atRoot } }
          else decodeLoop bound { t with cur := c, status := { t.status with dstate := .midWalk } }

/-- Execute(DECODE) (R107, R109): the root is looked at before the first read. -/
def decodeBody (s : State) : Run Unit :=
  let t : State := { s with cur := s.root, status := { s.status with dstate := .atRoot } }
  match t.nodes[t.root]? with
  | none => .stuck .danglingNode
  | some nd =>
    if nd.isLeaf then
      if nd.value = Config.sentinel then .ok () { t with status := { t.status with dstate := .done } }
      else .raised .walkOffLeaf (BitVec.ofNat 32 nd.value) t
    else decodeLoop (8 * t.inData.length - t.inPos + 1) t

/-- ENCODE (R105). -/
def execEncode (s : State) : Host.Outcome State Fault Refusal := command .encode encodeBody s

/-- DECODE (R107). -/
def execDecode (s : State) : Host.Outcome State Fault Refusal := command .decode decodeBody s

end Sys2Proof.Machine
end

