-- ==== Sys2Proof/Machine/TreeBuilder.lean ====
section
/-! DEFINITION. The tree builder: BUILD (42_tree_builder.md R89 to R93). -/

namespace Sys2Proof.Machine

/-- NewLeaf(v, w) (R89): the next arena entry becomes a leaf and is queued. -/
def newLeaf (v w : Nat) (s : State) : State :=
  { s with
    nodes := s.nodes ++ [{ isLeaf := true, value := v, weight := w, left := 0, right := 0 }]
    pq := s.pq ++ [s.nodes.length] }

/-- Step 1 of the build (R89, R90): a leaf for every value with a count, in ascending value order from v. -/
def addLeaves : List Nat → Nat → State → State
  | [], _, s => s
  | w :: ws, v, s => addLeaves ws (v + 1) (if w > 0 then newLeaf v w s else s)

/-- Whether node i leaves the queue before node j: lesser WEIGHT, then TIEBREAK's rank, then index; with the default
TIEBREAK the order is TB_REF (R91). -/
def before (s : State) (i j : Nat) : Bool :=
  if s.weight i ≠ s.weight j then decide (s.weight i < s.weight j)
  else if s.params.rank i ≠ s.params.rank j then decide (s.params.rank i < s.params.rank j)
  else decide (i < j)

/-- The least element of a queue (R91). -/
def least (s : State) : List Nat → Option Nat
  | [] => none
  | i :: rest =>
    match least s rest with
    | none => some i
    | some j => if before s j i then some j else some i

/-- PopMin() (R89, R91); none when the queue is empty. -/
def popMin (s : State) : Option (Nat × State) :=
  (least s s.pq).map (fun i => (i, { s with pq := s.pq.erase i }))

/-- The internal node over a, removed first, and b, removed second (R89, R92, R93), queued. -/
def newInternal (a b : Nat) (s : State) : State :=
  { s with
    nodes := s.nodes ++ [{ isLeaf := false, value := 0, weight := s.weight a + s.weight b, left := a, right := b }]
    pq := s.pq ++ [s.nodes.length] }

/-- The merges (R89, R94): while two nodes are queued, merge the two least. Each merge shortens the queue by one, so as many
passes as nodes are queued are enough. -/
def mergeLoop : Nat → State → State
  | 0, s => s
  | bound + 1, s =>
    match popMin s with
    | none => s
    | some (a, s1) =>
      match popMin s1 with
      | none => s
      | some (b, s2) => mergeLoop bound (newInternal a b s2)

/-- All leaves, the sentinel's last, of weight 1 (R89, R90), in an empty arena. -/
def buildLeaves (s : State) : State :=
  newLeaf Config.sentinel 1
    (addLeaves s.freq.entries 0
      { s with nodes := [], pq := [], status := { s.status with treeValid := false, codeValid := false } })

/-- Execute(BUILD) (R89). -/
def buildBody (s : State) : Run Unit :=
  let t := buildLeaves s
  match popMin (mergeLoop t.pq.length t) with
  | none => .stuck .emptyQueue
  | some (r, u) => .ok () { u with root := r, status := { u.status with treeValid := true } }

/-- BUILD (R89). -/
def execBuild (s : State) : Host.Outcome State Fault Refusal := command .build buildBody s

end Sys2Proof.Machine
end

