-- ==== Sys2Proof/Machine/Pipelines.lean ====
section
/-! DEFINITION. The whole-pipeline commands COMPRESS and DECOMPRESS (46_pipelines.md R111 to R113). -/

namespace Sys2Proof.Machine

/-- The stages of COMPRESS in order, each by its own body (R111). -/
def compressStages (s : State) : Run Unit :=
  (countBody s).bind fun _ s1 =>
    (buildBody s1).bind fun _ s2 =>
      (deriveBody s2).bind fun _ s3 =>
        (wrMagicBody s3).bind fun _ s4 =>
          (wrHeaderBody s4).bind fun _ s5 => encodeBody s5

/-- The stages of DECOMPRESS in order, each by its own body (R112). -/
def decompressStages (s : State) : Run Unit :=
  (rdMagicBody s).bind fun _ s1 => (rdHeaderBody s1).bind fun _ s2 => decodeBody s2

/-- Execute(COMPRESS) (R111): the output is closed on every exit path (R113). -/
def compressBody (s : State) : Run Unit := (compressStages s).closing outClose

/-- Execute(DECOMPRESS) (R112): the output is closed on every exit path (R113). -/
def decompressBody (s : State) : Run Unit := (decompressStages s).closing outClose

/-- COMPRESS (R111). -/
def execCompress (s : State) : Host.Outcome State Fault Refusal := command .compress compressBody s

/-- DECOMPRESS (R112). -/
def execDecompress (s : State) : Host.Outcome State Fault Refusal := command .decompress decompressBody s

end Sys2Proof.Machine
end

