-- ==== Sys2Proof/Machine/Tokens.lean ====
section
/-! DEFINITION. The stream tokens (30_encoding.md R69 to R77). A token is no command (R63): inside a command it crosses a
port, and that crossing is its meaning (log entry 13). The output tokens are written, the input unit is read. -/

namespace Sys2Proof.Machine

/-- Passing a token to the output port, which must be open: the block never writes to a closed one (20_memory.md R48). A
recorded error is not looked at: a token crosses under it, and an uncoded CODE_WORD replaces ERR and ERR_INFO (DESIGN CHOICE:
60_exceptions.md R124 speaks of commands only; log entry 25). -/
def emit (write : State → Run Unit) (s : State) : Host.Outcome State Fault Refusal :=
  if s.status.outClosed then .refused .outputClosed
  else
    match write s with
    | .ok _ t => .next t
    | .raised c info t => .next (recordFault c info t)
    | .stuck f => .fault f

/-- MAGIC (R69), as WR_MAGIC writes it. -/
def execMagic (s : State) : Host.Outcome State Fault Refusal := emit (fun t => .ok () (emitMagic t)) s

/-- HDR_INTERNAL (R70), as WR_HEADER writes it. -/
def execHdrInternal (s : State) : Host.Outcome State Fault Refusal := emit (fun t => .ok () (emitInternal t)) s

/-- HDR_LEAF (R71), as WR_HEADER writes it. -/
def execHdrLeaf (value : BitVec 9) (s : State) : Host.Outcome State Fault Refusal :=
  emit (fun t => .ok () (emitLeaf value.toNat t)) s

/-- CODE_WORD (R74, R75), as ENCODE writes it: a symbol without a code faults UNCODED_SYMBOL (45_payload_codec.md R105; log
entry 13), also where an error is already recorded (log entry 25). -/
def execCodeWord (sym : BitVec 9) (s : State) : Host.Outcome State Fault Refusal := emit (emitCode sym.toNat) s

/-- PAD (R76), as OutClose appends it. -/
def execPad (n : Nat) (s : State) : Host.Outcome State Fault Refusal :=
  emit (fun t => .ok () (outWrite (List.replicate n false) t)) s

/-- INPUT_UNIT (R77), as COUNT and ENCODE read it with InRead(8): the unit at the input port is u. It is read under a
recorded error too (log entry 25). -/
def execInputUnit (u : Byte) (s : State) : Host.Outcome State Fault Refusal :=
  match inRead 8 s with
  | (some v, t) => if v = u.toNat then .next t else .refused .unitNotAtPort
  | (none, _) => .refused .unitNotAtPort

end Sys2Proof.Machine
end

