-- ==== Sys2Proof/Machine/Dispatch.lean ====
section
/-! DEFINITION. The one match over Instr: each arm calls its instruction's meaning. -/

namespace Sys2Proof.Machine

/-- The meaning of an instruction: for a command, offering its word and running it to completion (40_control.md R80); for a
stream token, its crossing of a port (30_encoding.md R69 to R77). -/
def exec (i : Instr) (s : State) : Host.Outcome State Fault Refusal :=
  match i with
  -- the commands (30_encoding.md R65)
  | .nop => Sys2Proof.Machine.execNop s
  | .clear => Sys2Proof.Machine.execClear s
  | .count => Sys2Proof.Machine.execCount s
  | .build => Sys2Proof.Machine.execBuild s
  | .derive => Sys2Proof.Machine.execDerive s
  | .wrMagic => Sys2Proof.Machine.execWrMagic s
  | .wrHeader => Sys2Proof.Machine.execWrHeader s
  | .encode => Sys2Proof.Machine.execEncode s
  | .closeOut => Sys2Proof.Machine.execCloseOut s
  | .rdMagic => Sys2Proof.Machine.execRdMagic s
  | .rdHeader => Sys2Proof.Machine.execRdHeader s
  | .decode => Sys2Proof.Machine.execDecode s
  | .compress => Sys2Proof.Machine.execCompress s
  | .decompress => Sys2Proof.Machine.execDecompress s
  -- the stream tokens (30_encoding.md R69 to R77)
  | .magic => Sys2Proof.Machine.execMagic s
  | .hdrInternal => Sys2Proof.Machine.execHdrInternal s
  | .hdrLeaf value => Sys2Proof.Machine.execHdrLeaf value s
  | .codeWord sym => Sys2Proof.Machine.execCodeWord sym s
  | .pad n => Sys2Proof.Machine.execPad n s
  | .inputUnit u => Sys2Proof.Machine.execInputUnit u s

end Sys2Proof.Machine
end

