-- ==== Sys2Proof/Machine/HostPort.lean ====
section
/-! DEFINITION. The host's side: the register interface (10_state.md R25 to R38, 20_memory.md R52 to R58), the offering of
command words (40_control.md R80), binding the ports, and reset (70_reset_and_hazards.md R135, R137). What runs a command is an
argument here, so that Machine/Step.lean can give exec. -/

namespace Sys2Proof.Machine

/-- The offset of a host access in the register space: an aligned 32-bit access at REG_BASE + 0x00..0xFC (R52, R54, R55). Any
other access is none the interface defines. -/
def regOffset (p : Params) (addr width : Nat) : Option Nat :=
  if width = 4 ∧ p.regBase ≤ addr ∧ addr - p.regBase < 256 ∧ (addr - p.regBase) % 4 = 0 then some (addr - p.regBase)
  else none

/-- CONFIG (R30): COUNT_W in bits 7:0, NODE_CAP in bits 23:8. -/
def configWord (p : Params) : Word := 0#8 ++ BitVec.ofNat 16 Config.nodeCap ++ BitVec.ofNat 8 p.countW

/-- TBL_ADDR.INDEX (R36). -/
def tblIndex (a : Word) : Nat := (a.extractLsb' 0 12).toNat

/-- TBL_ADDR.WORD (R36). -/
def tblWord (a : Word) : Nat := (a.extractLsb' 12 3).toNat

/-- TBL_ADDR.TABLE (R36). -/
def tblTable (a : Word) : Nat := (a.extractLsb' 16 4).toNat

/-- The bits of TBL_ADDR that a write takes: the reserved bits 15 and 31:20 stay 0 (R36). -/
def tblAddrMask : Word := 0x000F7FFF#32

/-- Word w of a code's bits, first bit at bit 31 of word 0, zeros after the code (R37). -/
def codeWordBits (bits : Bits) (w : Nat) : Word :=
  BitVec.ofNat 32 (num ((List.range 32).map (fun j => bits.getD (32 * w + j) false)))

/-- A one-bit field at bit 31 beside a 9-bit field at bits 8:0, the other bits 0 (R37, tables 1 and 3). -/
def flagAndField (flag : Bool) (v : Nat) : Word := BitVec.ofBool flag ++ 0#22 ++ BitVec.ofNat 9 v

/-- TBL_DATA for table 3, one word of a node (R37). -/
def nodeWord (nd : Node) (w : Nat) : Word :=
  match w with
  | 0 => flagAndField nd.isLeaf nd.value
  | 1 => BitVec.ofNat 32 nd.weight
  | 2 => if nd.isLeaf then 0xFFFFFFFF#32 else BitVec.ofNat 32 nd.left
  | 3 => if nd.isLeaf then 0xFFFFFFFF#32 else BitVec.ofNat 32 nd.right
  | _ => 0#32

/-- TBL_DATA (R37): the word TBL_ADDR selects, computed at the read; any selection outside the tables reads 0. -/
def tblData (s : State) : Word :=
  let index := tblIndex s.tblAddr
  let w := tblWord s.tblAddr
  match tblTable s.tblAddr with
  | 0 => if w = 0 then BitVec.ofNat 32 ((s.freq.get? index).getD 0) else 0#32
  | 1 => if w = 0 then flagAndField (s.codeEntry index).valid (s.codeEntry index).len else 0#32
  | 2 => codeWordBits (s.codeEntry index).bits w
  | 3 =>
    match s.nodes[index]? with
    | some nd => nodeWord nd w
    | none => 0#32
  | _ => 0#32

/-- The register at an offset while BUSY = 0 (R25 to R38); reserved offsets read 0. -/
def regValue (s : State) (off : Nat) : Word :=
  match off with
  | 0x00 => s.cmd
  | 0x04 => s.status.word
  | 0x08 => s.errInfo
  | 0x0C => s.params.huffMagic
  | 0x10 => configWord s.params
  | 0x14 => BitVec.ofNat 32 (s.nbytes % 2 ^ s.params.countW)
  | 0x18 => (BitVec.ofNat 10 s.nodes.length).zeroExtend 32
  | 0x1C => (BitVec.ofNat 10 s.root).zeroExtend 32
  | 0x20 => s.bitsIn
  | 0x24 => s.bitsOut
  | 0x28 => s.tblAddr
  | 0x2C => tblData s
  | _ => 0#32

/-- MemRead(off, 4) (R54, R58): while BUSY = 1 a free value, but for STATUS.BUSY, which reads 1. No read has a side effect on
the block (R53); the host keeps the value, and a free value counts as drawn. -/
def memRead (off : Nat) (s : State) : State :=
  if s.status.busy then
    let v := if off = 0x04 then Config.freeWord s.draws ||| 1#32 else Config.freeWord s.draws
    { s with hostReads := v :: s.hostReads, draws := s.draws + 1 }
  else { s with hostReads := regValue s off :: s.hostReads }

/-- Offering a word (40_control.md R80): dropped, illegal, or accepted. An accepted command with no host operation to land
before its atomic step is run at once; otherwise it waits, latched, with BUSY = 1 (R57; log entry 5). -/
def offer (run : Instr → State → Host.Outcome State Fault Refusal) (w : Word) (lag : Nat) (s : State) :
    Host.Outcome State Fault Refusal :=
  if s.status.busy then .next (dropBusy s)
  else
    match decodeOp w with
    | .error _ => if s.status.err ≠ .none then .next s else .next (recordIllegal w s)
    | .ok op =>
      if s.status.err ≠ .none ∧ s.status.acceptsUnderError op = false then .next s
      else if lag = 0 then run op.instr s
      else .next { accept op s with lag := lag }

/-- MemWrite(off, 4, v) (R54): a CMD write offers v, a TBL_ADDR write takes effect at any time (R36), every other write is
ignored (R38). -/
def memWrite (run : Instr → State → Host.Outcome State Fault Refusal) (off : Nat) (v : Word) (lag : Nat) (s : State) :
    Host.Outcome State Fault Refusal :=
  match off with
  | 0x00 => offer run v lag s
  | 0x28 => .next { s with tblAddr := v &&& tblAddrMask }
  | _ => .next s

/-- The body of a command without the closing step of a pipeline, which a reset does not run (R137). -/
def unclosedBody : Op → State → Run Unit
  | .nop => nopBody
  | .clear => clearBody
  | .count => countBody
  | .build => buildBody
  | .derive => deriveBody
  | .wrMagic => wrMagicBody
  | .wrHeader => wrHeaderBody
  | .encode => encodeBody
  | .closeOut => closeOutBody
  | .rdMagic => rdMagicBody
  | .rdHeader => rdHeaderBody
  | .decode => decodeBody
  | .compress => compressStages
  | .decompress => decompressStages

/-- The bits the running command would have written (R137). -/
def wouldWrite (s : State) : Bits :=
  match decodeOp s.cmd with
  | .error _ => []
  | .ok op =>
    match runAccepted op (unclosedBody op) s with
    | .ok _ t => t.out.drop s.out.length
    | .raised _ _ t => t.out.drop s.out.length
    | .stuck _ => []

/-- Whether the host has a fresh, empty output port bound while a command runs: it has issued CLEAR, or the port it had is
closed and takes no more bits (R145). -/
def freshOutput (s : State) : Bool :=
  s.status.outClosed ||
    match decodeOp s.cmd with
    | .ok op => decide (op = .clear)
    | .error _ => false

/-- Reset (R135): every piece of block state at its reset value, the parameters hardwired. With BUSY = 0 it does no port
operation and stands for a fresh output port (R145; log entry 9). With BUSY = 1 it leaves the input at a free position, and an
open output with a free number of the bits the command would have written; a closed one is a fresh port after it as well
(R137, R145; log entry 10). -/
def resetBlock (s : State) : State :=
  let t : State :=
    { State.reset with
      params := s.params
      inData := s.inData
      inPos := s.inPos
      lateInput := s.lateInput
      hostOps := s.hostOps
      hostReads := s.hostReads
      draws := s.draws }
  if s.status.busy then
    { t with
      inData := s.secondPass
      inPos := Config.freeNat s.draws % (8 * s.secondPass.length + 1)
      lateInput := none
      out := if freshOutput s then [] else s.out ++ (wouldWrite s).take (Config.freeNat (s.draws + 1))
      draws := s.draws + 2 }
  else t

/-- One operation of the host or the platform (R14). A poll of the pseudo-instruction wait that reads BUSY = 1 is repeated
(R79). Binding a port changes no block state; a fresh output bound while a command runs is there before the command's step
(R47, R57; log entries 11 and 20). -/
def hostStep (run : Instr → State → Host.Outcome State Fault Refusal) (op : HostOp) (s : State) :
    Host.Outcome State Fault Refusal :=
  match op with
  | .read addr width =>
    match regOffset s.params addr width with
    | none => .refused .undefinedAccess
    | some off => .next (memRead off s)
  | .write addr width v lag =>
    match regOffset s.params addr width with
    | none => .refused .undefinedAccess
    | some off => memWrite run off v lag s
  | .wait =>
    let t := memRead 0x04 s
    if s.status.busy then .next { t with hostOps := .wait :: t.hostOps } else .next t
  | .bindInput data late => .next (bindInput data late s)
  | .bindOutput => .next { s with out := [] }
  | .reset => .next (resetBlock s)

/-- The notation of 30_encoding.md R78 and R79 as host operations: cmd, wr, rd, run and tbl. -/
def cmdOp (p : Params) (op : Op) (lag : Nat) : HostOp := .write p.regBase 4 op.word lag

/-- `wr REG, v` (R78), by the register's offset. -/
def wrOp (p : Params) (off : Nat) (v : Word) : HostOp := .write (p.regBase + off) 4 v 0

/-- `rd REG` (R78), by the register's offset. -/
def rdOp (p : Params) (off : Nat) : HostOp := .read (p.regBase + off) 4

/-- `run MNEMONIC` (R79). -/
def runOps (p : Params) (op : Op) (lag : Nat) : List HostOp := [cmdOp p op lag, .wait]

/-- `tbl T, I, W` (R79). -/
def tblOps (p : Params) (table index word : Nat) : List HostOp :=
  [wrOp p 0x28 (BitVec.ofNat 32 (table * 2 ^ 16 + word * 2 ^ 12 + index)), rdOp p 0x2C]

end Sys2Proof.Machine
end

