-- ==== Sys2Proof/Machine/Sequencer.lean ====
section
/-! DEFINITION. Who moves next (20_memory.md R57) and where an instruction is fetched: the host's next operation, the latched
command, or a token inside a running command. What runs an instruction is an argument, which Machine/Step.lean gives. -/

namespace Sys2Proof.Machine

/-- The atomic step of the latched command (R57): its word is offered again with BUSY lowered. Between its acceptance and
this step nothing the acceptance checks has changed, so it is accepted as before and runs to completion (log entry 17). Data
that the host has bound after the command's only pass is at the input port then (log entry 24). -/
def blockStep (run : Instr → State → Host.Outcome State Fault Refusal) (s : State) : Host.Outcome State Fault Refusal :=
  match decodeCommand s.cmd with
  | .error _ => .fault .noCommandLatched
  | .ok i =>
    match run i { s with status := { s.status with busy := false }, lag := 0 } with
    | .next t => .next (takeLate t)
    | .fault f => .fault f
    | .refused r => .refused r

/-- One step of the machine. A token under way crosses its port; a running command that no further host operation precedes
takes its atomic step; otherwise the host moves; an idle block with an idle host keeps its state (60_exceptions.md R134). -/
def stepWith (run : Instr → State → Host.Outcome State Fault Refusal) (s : State) : Host.Outcome State Fault Refusal :=
  match s.token with
  | some t => run t { s with token := none }
  | none =>
    if s.status.busy && (decide (s.lag = 0) || s.hostOps.isEmpty) then blockStep run s
    else
      match s.hostOps with
      | [] => .next s
      | op :: rest => hostStep run op { s with hostOps := rest, lag := s.lag - 1 }

/-- Placing an instruction where the next step fetches it (log entries 4 and 13): a stream token as the token under way, with
an input unit also at the input port; any other word as the host's next CMD write, to be run at once, with one more
operation before a running command's own step. -/
def placeWord (s : State) (nbits w : Nat) : State :=
  match decodeTableWord nbits w with
  | some (.inputUnit u) => { s with token := some (.inputUnit u), inData := [u], inPos := 0 }
  | some .magic => { s with token := some .magic }
  | some .hdrInternal => { s with token := some .hdrInternal }
  | some (.hdrLeaf v) => { s with token := some (.hdrLeaf v) }
  | some (.codeWord sym) => { s with token := some (.codeWord sym) }
  | some (.pad n) => { s with token := some (.pad n) }
  | _ =>
    { s with
      token := none
      lag := s.lag + 1
      hostOps := .write s.params.regBase 4 (BitVec.ofNat 32 w) 0 :: s.hostOps }

end Sys2Proof.Machine
end

