-- ==== Sys2Proof/Machine/Step.lean ====
section
/-! DEFINITION. The step of the machine, and where an instruction is placed for it. -/

namespace Sys2Proof.Machine

/-- One step (20_memory.md R57): Machine/Sequencer.lean's step, with exec running the instructions. -/
def step (s : State) : Host.Outcome State Fault Refusal := stepWith exec s

/-- The state with a table row's word placed where step fetches its next instruction. -/
def State.withFetchWord (s : State) (nbits w : Nat) : State := placeWord s nbits w

end Sys2Proof.Machine
end

