-- ==== Sys2Proof/Safety.lean ====
section
/-! DEFINITION. The terms in which claims speak of HUFF-CORE: when the block is ready for a command, what a tree spells on a
stream, what the ports hold, and the invariant that every step keeps. None of these is used by the machine. -/

namespace Sys2Proof.Machine

/-- The block accepts every command word: it is idle and no error is recorded (40_control.md R80). -/
abbrev State.Ready (s : State) : Prop := s.status.busy = false ∧ s.status.err = ErrCode.none

/-- FREQ[v] (10_state.md R17). -/
def State.count (s : State) (v : Nat) : Nat := (s.freq.get? v).getD 0

/-- header(n) of a tree (30_encoding.md R70, R71). -/
def Tree.header : Tree → Bits
  | .leaf v => true :: bitsOf Config.leafBits v
  | .node l r => false :: (l.header ++ r.header)

/-- How many nodes a tree has. -/
def Tree.size : Tree → Nat
  | .leaf _ => 1
  | .node l r => 1 + l.size + r.size

/-- The arena entries of a tree read from a header, numbered from base in pre-order (44_header_codec.md R102). -/
def Tree.arena : Nat → Tree → List Node
  | _, .leaf v => [{ isLeaf := true, value := v, weight := 0, left := 0, right := 0 }]
  | base, .node l r =>
    { isLeaf := false, value := 0, weight := 0, left := base + 1, right := base + 1 + l.size }
      :: (l.arena (base + 1) ++ r.arena (base + 1 + l.size))

/-- The values of a tree's leaves, left to right. -/
def Tree.leaves : Tree → List Nat
  | .leaf v => [v]
  | .node l r => l.leaves ++ r.leaves

/-- A place between two tokens of a tree header at which reading it can be cut: before a token, inside the left subtree of an
internal node, or inside its right subtree with the left one whole (44_header_codec.md R102, R103). -/
inductive HeaderCut where
  | here
  | inLeft (left : HeaderCut)
  | inRight (left : Tree) (right : HeaderCut)
  deriving DecidableEq, Repr

/-- The bits of the header before the cut (30_encoding.md R70, R71). -/
def HeaderCut.bits : HeaderCut → Bits
  | .here => []
  | .inLeft l => false :: l.bits
  | .inRight l r => false :: (l.header ++ r.bits)

/-- How many nodes are allocated before the cut. -/
def HeaderCut.size : HeaderCut → Nat
  | .here => 0
  | .inLeft l => 1 + l.size
  | .inRight l r => 1 + l.size + r.size

/-- The arena entries allocated before the cut, numbered from base; LEFT and RIGHT of the internal nodes that the cut leaves
unfinished are still 0 (60_exceptions.md R121). -/
def HeaderCut.arena : Nat → HeaderCut → List Node
  | _, .here => []
  | base, .inLeft l => { isLeaf := false, value := 0, weight := 0, left := 0, right := 0 } :: l.arena (base + 1)
  | base, .inRight l r =>
    { isLeaf := false, value := 0, weight := 0, left := 0, right := 0 }
      :: (l.arena (base + 1) ++ r.arena (base + 1 + l.size))

/-- The values of the leaves before the cut. -/
def HeaderCut.leaves : HeaderCut → List Nat
  | .here => []
  | .inLeft l => l.leaves
  | .inRight l r => l.leaves ++ r.leaves

/-- A beginning of a header that RD_HEADER reads without a fault: values 0..256, and no more nodes than the arena holds. -/
abbrev HeaderCut.Readable (c : HeaderCut) : Prop := (∀ v ∈ c.leaves, v ≤ Config.sentinel) ∧ c.size ≤ Config.nodeCap

/-- What an input that ends inside the next token has of it: nothing, or the tag of a leaf and less than its field (R103). -/
abbrev CutToken (part : Bits) : Prop := part = [] ∨ (part.head? = some true ∧ part.length < 1 + Config.leafBits)

/-- The subtree a path leads to, 0 for a step to the left and 1 for a step to the right (00_scope.md R13, Code). -/
def Tree.follow : Tree → Bits → Option Tree
  | t, [] => some t
  | .leaf _, _ :: _ => none
  | .node l r, b :: path => if b then r.follow path else l.follow path

/-- The path of the last leaf of value v in the left-first walk, if there is one (43_code_table.md R96, corner case b). -/
def Tree.lastPath (v : Nat) : Tree → Option Bits
  | .leaf w => if w = v then some [] else none
  | .node l r =>
    match r.lastPath v with
    | some path => some (true :: path)
    | none => (l.lastPath v).map (fun path => false :: path)

/-- The code-table entry a tree gives a symbol (43_code_table.md R96). -/
def Tree.entry (t : Tree) (v : Nat) : CodeEntry :=
  match t.lastPath v with
  | some path => { valid := true, bits := path }
  | none => CodeEntry.unset

/-- The sum over the leaves of weight times depth, the root standing at depth d (42_tree_builder.md R94). -/
def Tree.pathWeight (weight : Nat → Nat) : Nat → Tree → Nat
  | d, .leaf v => weight v * d
  | d, .node l r => l.pathWeight weight (d + 1) + r.pathWeight weight (d + 1)

/-- The weight of a symbol's leaf: its count, or 1 for the sentinel (42_tree_builder.md R93). -/
def State.leafWeight (s : State) (v : Nat) : Nat := if v = Config.sentinel then 1 else s.count v

/-- The byte values with a count, in ascending order (42_tree_builder.md R90). -/
def State.counted (s : State) : List Nat := (List.range Config.alphabet).filter (fun v => decide (0 < s.count v))

/-- The bits the input port has not yet delivered (20_memory.md R43). -/
def State.inBits (s : State) : Bits := inField s.inData s.inPos (8 * s.inData.length - s.inPos)

/-- The whole units from bit position p of an input (30_encoding.md R77, 20_memory.md R45). -/
def unitsFrom (data : List Byte) (p : Nat) : List Nat :=
  (List.range ((8 * data.length - p) / 8)).map (fun k => num (inField data (p + 8 * k) 8))

/-- The bytes of an output whose length is a multiple of 8 (20_memory.md R50). -/
def outBytes (o : Bits) : List Byte :=
  (List.range (o.length / 8)).map (fun k => BitVec.ofNat 8 (num ((o.drop (8 * k)).take 8)))

/-- The payload of a list of bytes under the block's code table (30_encoding.md R75). -/
def State.payload (s : State) (bytes : List Byte) : Bits :=
  bytes.flatMap (fun b => (s.codeEntry b.toNat).bits) ++ (s.codeEntry Config.sentinel).bits

/-- A code book whose symbols are distinct and of whose codes none begins another (30_encoding.md R74). -/
def uniquelyReadable (book : StreamBook) : Prop :=
  book.codes.Pairwise (fun e f => e.1 ≠ f.1 ∧ ¬ e.2 <+: f.2 ∧ ¬ f.2 <+: e.2)

/-- The encodings of the block's own streams: its HUFF_MAGIC, and the codes of its code table (30_encoding.md R69, R74). -/
def State.book (s : State) : StreamBook :=
  { magic := s.params.huffMagic
    codes := ((List.range Config.nsym).filter (fun v => (s.codeEntry v).valid)).map
      (fun v => (BitVec.ofNat 9 v, (s.codeEntry v).bits)) }

/-- Pre(OP) as the table of 40_control.md R81 gives it, over the bits of STATUS. -/
def commandNeeds (f : Status) : Op → Prop
  | .nop => True
  | .clear => True
  | .count => True
  | .build => f.freqValid = true
  | .derive => f.treeValid = true
  | .wrMagic => f.outClosed = false
  | .wrHeader => f.treeValid = true ∧ f.outClosed = false
  | .encode => f.codeValid = true ∧ f.outClosed = false
  | .closeOut => f.outClosed = false
  | .rdMagic => True
  | .rdHeader => True
  | .decode => f.treeValid = true ∧ f.outClosed = false
  | .compress => f.outClosed = false
  | .decompress => f.outClosed = false

/-- The part of a stream a token stands in; none for a command (30_encoding.md R63, R68, R77). -/
def streamPart : Instr → Option StreamPart
  | .magic => some .magic
  | .hdrInternal => some .header
  | .hdrLeaf _ => some .header
  | .codeWord _ => some .payload
  | .pad _ => some .padding
  | .inputUnit _ => some .unit
  | .nop => none
  | .clear => none
  | .count => none
  | .build => none
  | .derive => none
  | .wrMagic => none
  | .wrHeader => none
  | .encode => none
  | .closeOut => none
  | .rdMagic => none
  | .rdHeader => none
  | .decode => none
  | .compress => none
  | .decompress => none

/-- DECOMPRESS ends in a fault: what it had written is padded to a whole byte, the output is closed, and the error and its
information are recorded (46_pipelines.md R112, R113). -/
def State.Rejects (s : State) (c : ErrCode) (info : Word) (written : Bits) : Prop :=
  ∃ (t : State) (pad : Nat), exec .decompress s = .next t ∧ pad < 8 ∧
    t.out = s.out ++ written ++ List.replicate pad false ∧ t.out.length % 8 = 0 ∧
    t.bitsOut = s.bitsOut + BitVec.ofNat 32 (written.length + pad) ∧ t.errInfo = info ∧ t.cmd = 0x0000000D#32 ∧
    t.status.err = c ∧ t.status.done = false ∧ t.status.busy = false ∧ t.status.outClosed = true

/-- What holds between any two steps of a run from reset. -/
structure State.Inv (s : State) : Prop where
  /-- COUNT_W is in its range (00_scope.md R8). -/
  params_ok : s.params.ok = true
  /-- NBYTES is the sum of FREQ (10_state.md R18). -/
  count_sum : s.nbytes = s.freq.entries.sum
  /-- No counter wraps (41_frequency.md R87). -/
  count_fits : s.nbytes ≤ s.params.maxBytes
  /-- The arena has NODE_CAP entries (10_state.md R19). -/
  nodes_fit : s.nodes.length ≤ Config.nodeCap
  /-- PQ is empty between commands (10_state.md R21). -/
  queue_empty : s.pq = []
  /-- The input position is in the data (20_memory.md R43). -/
  in_range : s.inPos ≤ 8 * s.inData.length
  /-- The reserved bits of TBL_ADDR read 0 (10_state.md R36). -/
  tbl_reserved : s.tblAddr &&& ~~~tblAddrMask = 0#32
  /-- A valid tree is complete, without sharing or cycles, with values 0..256, and fills the arena (10_state.md R20,
  44_header_codec.md R104). -/
  tree_whole : s.status.treeValid = true → ∃ t, s.tree = some t ∧ t.size = s.nodes.length
  /-- CODE_VALID = 1 ⇒ TREE_VALID = 1 (40_control.md R82). -/
  code_link : s.status.codeValid = true → s.status.treeValid = true
  /-- A valid code table is that of the current tree (10_state.md R27). -/
  code_current : s.status.codeValid = true → ∀ t, s.tree = some t → ∀ v, v < Config.nsym → s.codeEntry v = t.entry v
  /-- LEN is at most MAX_CODE_LEN, and an unset entry has no bits (10_state.md R22). -/
  code_fits : ∀ v, (s.codeEntry v).len ≤ Config.maxCodeLen ∧
    ((s.codeEntry v).valid = false → (s.codeEntry v).bits = [])
  /-- While BUSY = 1 DONE is 0, and CMD holds a word that was accepted (10_state.md R26, 40_control.md R80). -/
  running : s.status.busy = true → s.status.done = false ∧
    ∃ op, decodeOp s.cmd = .ok op ∧ (s.status.err = ErrCode.none ∨ s.status.acceptsUnderError op = true)
  /-- Data bound after a command's first pass waits only while the command runs (70_reset_and_hazards.md R141; log entry 24). -/
  late_running : s.status.busy = false → s.lateInput = none
  /-- A command is one atomic step, so no token is left under way between steps (20_memory.md R57; log entry 13). -/
  no_token : s.token = none

end Sys2Proof.Machine
end

