-- ==== Sys2Proof/Certificates/Slice0/Obligations.lean ====
section
/-! DEFINITION. The statements about HUFF-CORE for the provers. Each docstring says which sentence of spec/ it formalises. -/

open Sys2Proof Sys2Proof.Machine

/-! ### Encodings -/

/-- R65: the fourteen command words, and no other word is a command. -/
def Obligations.CommandWordsAreTheOpcodeMap : Prop :=
  ∀ (w : Word) (i : Instr), decodeCommand w = .ok i ↔
    (w, i) ∈ [(0x00000000#32, Instr.nop), (0x00000001#32, .clear), (0x00000002#32, .count), (0x00000003#32, .build),
      (0x00000004#32, .derive), (0x00000005#32, .wrMagic), (0x00000006#32, .wrHeader), (0x00000007#32, .encode),
      (0x00000008#32, .closeOut), (0x00000009#32, .rdMagic), (0x0000000A#32, .rdHeader), (0x0000000B#32, .decode),
      (0x0000000C#32, .compress), (0x0000000D#32, .decompress)]

/-- R66, R120: a word with a reserved bit set or an opcode above 0x0D, offered while the block is idle with no error, records
ILLEGAL_CMD with the word and changes nothing else. -/
def Obligations.IllegalWordIsRecorded : Prop :=
  ∀ (w : Word) (lag : Nat) (s : State), s.Ready →
    (w.extractLsb' 8 24 ≠ 0#24 ∨ 0x0D < (w.extractLsb' 0 8).toNat) →
    (∀ i, decodeCommand w ≠ .ok i) ∧
    memWrite exec 0x00 w lag s
      = .next { s with errInfo := w, status := { s.status with err := .illegalCmd, done := false, busy := false } }

/-- R68 to R77: at its part of a stream every well-formed token is read back from its own encoding, whatever follows it;
for a code word the book's codes are prefix-free (R74), and padding is followed by nothing (R76). -/
def Obligations.TokenDecodingInvertsEncoding : Prop :=
  ∀ (book : StreamBook) (part : StreamPart) (i : Instr) (bits rest : Bits),
    i.wf = true → streamPart i = some part → uniquelyReadable book → encodeToken book i = some bits →
    (part = .padding → rest = []) → decodeToken book part (bits ++ rest) = .ok (i, rest)

/-! ### The machine as a whole -/

/-- The invariant holds of the machine right after reset (R41). -/
def Obligations.InvariantHoldsAtReset : Prop := State.reset.Inv

/-- Every step from a state that meets the invariant ends in one that meets it: R18, R20, R21, R82, R87 and R104 hold between
any two steps of a run. -/
def Obligations.StepKeepsInvariant : Prop := ∀ s t : State, s.Inv → step s = .next t → t.Inv

/-- From a state that meets the invariant no step is a fault of the model: the loops and walks of every command end (R110,
R150) and meet only nodes that exist (R109). -/
def Obligations.StepNeverStopsUnderInvariant : Prop := ∀ (s : State) (f : Fault), s.Inv → step s ≠ .fault f

/-- What a step runs: a placed instruction, the command word the host writes next, the latched command of a running block,
or the token under way, each as exec gives it; an idle block with an idle host keeps its state (R134). After a latched command
that did not rewind, input data bound since its pass is at the port (log entry 24). Where no token is under way and no latched
command's turn has come, it runs the host's next operation, whichever that is (R14, R57; log entries 4 and 5): among these wait
reads STATUS, and again while it reads BUSY = 1 (R79), and bindOutput empties O and no more (R47; log entries 11 and 20). -/
def Obligations.StepRunsTheDecodedInstruction : Prop :=
  (∀ (s : State) (op : Op), step (s.withFetchWord 32 op.word.toNat) = exec op.instr { s with token := none }) ∧
  (∀ (s : State) (w : Word) (i : Instr) (rest : List HostOp), s.token = none → s.status.busy = false →
    s.hostOps = .write s.params.regBase 4 w 0 :: rest → decodeCommand w = .ok i →
    step s = exec i { s with hostOps := rest, lag := s.lag - 1 }) ∧
  (∀ (s : State) (i : Instr), s.token = none → s.status.busy = true → s.lag = 0 ∨ s.hostOps = [] →
    decodeCommand s.cmd = .ok i →
    (s.lateInput = none → step s = exec i { s with lag := 0, status := { s.status with busy := false } }) ∧
    (∀ t, exec i { s with lag := 0, status := { s.status with busy := false } } = .next t →
      step s = .next
        { t with
          inData := t.secondPass
          inPos := if t.lateInput = none then t.inPos else 0
          lateInput := none })) ∧
  (∀ (s : State) (i : Instr), s.token = some i → step s = exec i { s with token := none }) ∧
  (∀ s : State, s.token = none → s.status.busy = false → s.hostOps = [] → step s = .next s) ∧
  (∀ (s : State) (op : HostOp) (rest : List HostOp), s.token = none → s.status.busy = false ∨ s.lag ≠ 0 →
    s.hostOps = op :: rest → step s = hostStep exec op { s with hostOps := rest, lag := s.lag - 1 }) ∧
  (∀ s : State, s.status.busy = false → hostStep exec .wait s = .next (memRead 0x04 s)) ∧
  (∀ s : State, s.status.busy = true →
    hostStep exec .wait s = .next { memRead 0x04 s with hostOps := .wait :: s.hostOps }) ∧
  (∀ s : State, hostStep exec .bindOutput s = .next { s with out := [] })

/-- R57: a command whose atomic step is deferred ends as it would have ended at once, if nothing lands in between. -/
def Obligations.DeferredCommandEndsAsAtOnce : Prop :=
  ∀ (s : State) (op : Op) (lag : Nat), s.Ready → s.token = none → s.hostOps = [] → s.lateInput = none →
    ∃ t, memWrite exec 0x00 op.word (lag + 1) s = .next t ∧ t.status.busy = true ∧ t.cmd = op.word ∧
      step t = exec op.instr { s with lag := 0 }

/-! ### Offering a command -/

/-- R80 case 1, R139: while BUSY = 1 a CMD write is dropped and sets OVR, whatever the word. -/
def Obligations.BusyCommandsAreDropped : Prop :=
  ∀ s : State, s.status.busy = true →
    (∀ op : Op, exec op.instr s = .next { s with status := { s.status with ovr := true } }) ∧
    (∀ (w : Word) (lag : Nat), memWrite exec 0x00 w lag s = .next { s with status := { s.status with ovr := true } })

/-- R80 case 2: with an error pending every word is dropped but CLEAR, and CLOSE_OUT on an open output. -/
def Obligations.CommandsUnderErrorAreDropped : Prop :=
  ∀ s : State, s.status.busy = false → s.status.err ≠ ErrCode.none →
    (∀ op : Op, op ≠ .clear → (op = .closeOut → s.status.outClosed = true) → exec op.instr s = .next s) ∧
    (∀ (w : Word) (lag : Nat), w ≠ 0x00000001#32 → (w = 0x00000008#32 → s.status.outClosed = true) →
      memWrite exec 0x00 w lag s = .next s)

/-- R81: an accepted command faults with SEQUENCE exactly when its precondition is false, and then it touches no other state
and no port. -/
def Obligations.FalsePreconditionFaultsSequence : Prop :=
  ∀ (op : Op) (s : State), s.Ready →
    (¬ commandNeeds s.status op → exec op.instr s
      = .next { s with
          cmd := op.word
          errInfo := op.word
          status := { s.status with done := false, busy := false, err := .sequence } }) ∧
    (commandNeeds s.status op → ∀ t, exec op.instr s = .next t → t.status.err ≠ .sequence)

/-- R126: no command but CLEAR changes a recorded error or its information. -/
def Obligations.RecordedErrorIsSticky : Prop :=
  ∀ (op : Op) (s t : State), s.status.err ≠ ErrCode.none → op ≠ .clear → exec op.instr s = .next t →
    t.status.err = s.status.err ∧ t.errInfo = s.errInfo

/-! ### Control commands -/

/-- R83: NOP, the word 0x00000000, sets DONE, is latched, and changes nothing else; under a recorded error it is dropped, and
while BUSY = 1 it sets OVR like any word; from reset it leaves STATUS = 0x00000002. -/
def Obligations.NopOnlyCompletes : Prop :=
  decodeCommand 0x00000000#32 = .ok .nop ∧
  (∀ s : State, s.Ready →
    exec .nop s = .next { s with cmd := 0x00000000#32, status := { s.status with done := true } }) ∧
  (∀ s : State, s.status.busy = false → s.status.err ≠ ErrCode.none → exec .nop s = .next s) ∧
  (∀ s : State, s.status.busy = true → exec .nop s = .next { s with status := { s.status with ovr := true } }) ∧
  (∃ t, exec .nop State.reset = .next t ∧ t.status.word = 0x00000002#32)

/-- R84: CLEAR returns every piece of block state to its reset value but DONE and CMD, also under a recorded error, and
leaves the input port; that it gives an empty open output port is R145's way to model the host's fresh port (log entry 9). -/
def Obligations.ClearGivesResetValues : Prop :=
  ∀ s : State, s.status.busy = false →
    exec .clear s = .next
      { s with
        freq := Table.fill 256 0
        nbytes := 0
        nodes := []
        root := 0
        pq := []
        code := Table.fill 257 CodeEntry.unset
        cur := 0
        cmd := 0x00000001#32
        errInfo := 0#32
        bitsIn := 0#32
        bitsOut := 0#32
        tblAddr := 0#32
        out := []
        status :=
          { busy := false, done := true, freqValid := false, treeValid := false, codeValid := false
            outClosed := false, ovr := false, dstate := .atRoot, eos := false, err := .none } }

/-- R136: reset and CLEAR have the same effect but for DONE and CMD. -/
def Obligations.ClearMatchesReset : Prop :=
  ∀ s : State, s.status.busy = false →
    (resetBlock s).status.done = false ∧ (resetBlock s).cmd = 0#32 ∧
    exec .clear s = .next
      { resetBlock s with
        cmd := 0x00000001#32
        status := { (resetBlock s).status with done := true }
        token := s.token
        lag := s.lag }

/-- R85, R49: CLOSE_OUT, also under a recorded error, appends zero bits to the next multiple of 8 bits, counts them, closes
the port, and leaves ERR and ERR_INFO. -/
def Obligations.CloseOutPadsAndCloses : Prop :=
  ∀ s : State, s.status.busy = false → s.status.outClosed = false →
    ∃ pad, pad < 8 ∧ (s.out.length + pad) % 8 = 0 ∧
      exec .closeOut s = .next
        { s with
          cmd := 0x00000008#32
          out := s.out ++ List.replicate pad false
          bitsOut := s.bitsOut + BitVec.ofNat 32 pad
          status := { s.status with outClosed := true, done := true, busy := false } }

/-! ### Frequency counter -/

/-- R86, R45: from any position COUNT counts the whole units left, drops a partial one, and completes; and no field changes
that its rule does not name. -/
def Obligations.CountCountsTheUnits : Prop :=
  ∀ s : State, s.Ready → (unitsFrom s.inData s.inPos).length ≤ s.params.maxBytes →
    ∃ freq : Table Nat 256,
      (∀ v, v < 256 → freq.get? v = some ((unitsFrom s.inData s.inPos).count v)) ∧
      exec .count s = .next
        { s with
          freq := freq
          nbytes := (unitsFrom s.inData s.inPos).length
          inPos := 8 * s.inData.length
          bitsIn := BitVec.ofNat 32 (8 * (unitsFrom s.inData s.inPos).length)
          cmd := 0x00000002#32
          status := { s.status with
            freqValid := true, treeValid := false, codeValid := false, eos := true, done := true } }

/-- R88: from position 0 of input B, FREQ[v] is how often v stands in B, and NBYTES is the length of B. -/
def Obligations.CountOfAWholeInput : Prop :=
  ∀ s : State, s.Ready → s.inPos = 0 → s.inData.length ≤ s.params.maxBytes →
    ∃ t, exec .count s = .next t ∧ t.status.done = true ∧ t.status.freqValid = true ∧
      (∀ v : Byte, t.count v.toNat = s.inData.count v) ∧ t.nbytes = s.inData.length

/-- R87: after a COUNT, completed or not, no counter passes NBYTES, NBYTES is the sum of FREQ and at most MAX_BYTES. -/
def Obligations.CountersNeverWrap : Prop :=
  ∀ s t : State, s.Ready → exec .count s = .next t →
    t.nbytes = t.freq.entries.sum ∧ t.nbytes ≤ t.params.maxBytes ∧ ∀ v, t.count v ≤ t.nbytes

/-- R86, R121: a unit read while NBYTES = MAX_BYTES faults LENGTH_OVERFLOW; it is consumed and not counted, and FREQ and
NBYTES hold the units before it. -/
def Obligations.CountStopsAtMaxBytes : Prop :=
  ∀ s : State, s.Ready → s.params.maxBytes < (unitsFrom s.inData s.inPos).length →
    ∃ freq : Table Nat 256,
      (∀ v, v < 256 → freq.get? v = some (((unitsFrom s.inData s.inPos).take s.params.maxBytes).count v)) ∧
      exec .count s = .next
        { s with
          freq := freq
          nbytes := s.params.maxBytes
          inPos := s.inPos + 8 * (s.params.maxBytes + 1)
          bitsIn := BitVec.ofNat 32 (8 * (s.params.maxBytes + 1))
          errInfo := BitVec.ofNat 32 s.params.maxBytes
          cmd := 0x00000002#32
          status := { s.status with
            freqValid := false, treeValid := false, codeValid := false, eos := false, done := false
            err := .lengthOverflow } }

/-! ### Tree builder -/

/-- R89, R90, R94: BUILD completes; its leaves are the counted values in ascending order and the sentinel, of weight 1; then
come the internal nodes, one fewer; the root is the last; and the arena holds a complete tree of all its nodes. -/
def Obligations.BuildMakesLeavesAndMerges : Prop :=
  ∀ s : State, s.Ready → s.status.freqValid = true →
    ∃ (inner : List Node) (tree : Tree),
      (∀ nd ∈ inner, nd.isLeaf = false ∧ nd.value = 0) ∧ inner.length = s.counted.length ∧
      tree.size = 2 * s.counted.length + 1 ∧ tree.leaves.Perm (s.counted ++ [256]) ∧
      ∃ t, exec .build s = .next t ∧ t.tree = some tree ∧
        t = { s with
          nodes :=
            s.counted.map (fun v => { isLeaf := true, value := v, weight := s.count v, left := 0, right := 0 })
              ++ { isLeaf := true, value := 256, weight := 1, left := 0, right := 0 } :: inner
          root := 2 * s.counted.length
          pq := []
          cmd := 0x00000003#32
          status := { s.status with treeValid := true, codeValid := false, done := true } }

/-- R89, R91 to R94: every internal node is formed from the two nodes that leave the queue first, the first removed LEFT and the
second RIGHT, where the queue holds the earlier nodes that no earlier internal node has as a child; its weight is the sum of
theirs; and the root's weight is the sum of all counts and 1. -/
def Obligations.BuildWeightsAreSums : Prop :=
  ∀ s t : State, s.Ready → s.status.freqValid = true → exec .build s = .next t →
    (∀ (i : Nat) (nd : Node), t.nodes[i]? = some nd → nd.isLeaf = false →
      nd.left < i ∧ nd.right < i ∧ nd.left ≠ nd.right ∧ nd.weight = t.weight nd.left + t.weight nd.right ∧
      before t nd.left nd.right = true ∧
      (s.params.tieRank = [] → t.weight nd.left < t.weight nd.right ∨
        (t.weight nd.left = t.weight nd.right ∧ nd.left < nd.right)) ∧
      ∀ j, j < i →
        (∀ (k : Nat) (other : Node), k < i → t.nodes[k]? = some other → other.isLeaf = false →
          other.left ≠ j ∧ other.right ≠ j) →
        (j ≠ nd.left → before t nd.left j = true) ∧ (j ≠ nd.left → j ≠ nd.right → before t nd.right j = true)) ∧
    t.weight t.root = s.freq.entries.sum + 1

/-- R91 under TB_REF: PopMin removes the queued node of least weight, and among those of equal weight the one of least
index, and nothing else. -/
def Obligations.PopMinTakesTheLeastPair : Prop :=
  ∀ s : State, s.params.tieRank = [] → s.pq.Nodup → s.pq ≠ [] →
    ∃ i, i ∈ s.pq ∧ popMin s = some (i, { s with pq := s.pq.filter (fun j => j ≠ i) }) ∧
      ∀ j ∈ s.pq, j ≠ i → s.weight i < s.weight j ∨ (s.weight i = s.weight j ∧ i < j)

/-- R94, under every tie-break: the built tree's weighted path length is least among all trees with its leaves. -/
def Obligations.BuiltTreeIsOptimal : Prop :=
  ∀ (s t : State) (tree other : Tree), s.Ready → s.status.freqValid = true → exec .build s = .next t →
    t.tree = some tree → other.leaves.Perm tree.leaves →
    tree.pathWeight s.leafWeight 0 ≤ other.pathWeight s.leafWeight 0

/-! ### Code-table deriver -/

/-- R96: DERIVE completes; a symbol's entry is the path of its leaf, of the one visited last where there are several, and is
unset where there is none. -/
def Obligations.DeriveRecordsThePaths : Prop :=
  ∀ (s : State) (tree : Tree), s.Ready → s.status.treeValid = true → s.tree = some tree →
    ∃ code : Table CodeEntry 257,
      (∀ v, v < 257 → code.get? v = some (tree.entry v)) ∧
      exec .derive s = .next
        { s with
          code := code
          cmd := 0x00000004#32
          status := { s.status with codeValid := true, done := true } }

/-- R97 (c): no valid code begins another symbol's valid code; and each leads from the root to a leaf of its symbol. -/
def Obligations.DerivedCodesArePrefixFree : Prop :=
  ∀ (s t : State) (tree : Tree), s.Ready → s.status.treeValid = true → s.tree = some tree →
    exec .derive s = .next t →
    (∀ v, v < 257 → (t.codeEntry v).valid = true → tree.follow (t.codeEntry v).bits = some (.leaf v)) ∧
    (∀ a b, a < 257 → b < 257 → a ≠ b → (t.codeEntry a).valid = true → (t.codeEntry b).valid = true →
      ¬ (t.codeEntry a).bits <+: (t.codeEntry b).bits)

/-! ### Tree header -/

/-- R99, R69: WR_MAGIC appends HUFF_MAGIC, most significant bit first. -/
def Obligations.WrMagicWritesTheMagic : Prop :=
  ∀ s : State, s.Ready → s.status.outClosed = false →
    ∃ bits : Bits, bits.length = 32 ∧ (∀ k, k < 32 → bits[k]? = some (s.params.huffMagic.getMsbD k)) ∧
      exec .wrMagic s = .next
        { s with
          out := s.out ++ bits
          bitsOut := s.bitsOut + 32#32
          cmd := 0x00000005#32
          status := { s.status with done := true } }

/-- R100, R71, R73: WR_HEADER appends header(ROOT), of 11 L − 1 bits for a tree of L leaves. -/
def Obligations.WrHeaderWritesTheTree : Prop :=
  ∀ (s : State) (tree : Tree), s.Ready → s.status.treeValid = true → s.status.outClosed = false →
    s.tree = some tree →
    exec .wrHeader s = .next
      { s with
        out := s.out ++ tree.header
        bitsOut := s.bitsOut + BitVec.ofNat 32 (11 * tree.leaves.length - 1)
        cmd := 0x00000006#32
        status := { s.status with done := true } }

/-- R101: RD_MAGIC reads 32 bits and completes if they are HUFF_MAGIC; any other value faults FORMAT with it, and fewer than
32 bits fault FORMAT with 0 and EOS. -/
def Obligations.RdMagicChecksTheWord : Prop :=
  ∀ s : State, s.Ready →
    (∀ rest, s.inBits = bitsOf 32 s.params.huffMagic.toNat ++ rest →
      exec .rdMagic s = .next
        { s with
          inPos := s.inPos + 32
          bitsIn := 32#32
          cmd := 0x00000009#32
          status := { s.status with eos := false, done := true } }) ∧
    (∀ (w : Word) (rest : Bits), w ≠ s.params.huffMagic → s.inBits = bitsOf 32 w.toNat ++ rest →
      exec .rdMagic s = .next
        { s with
          inPos := s.inPos + 32
          bitsIn := 32#32
          errInfo := w
          cmd := 0x00000009#32
          status := { s.status with eos := false, done := false, err := .format } }) ∧
    (s.inBits.length < 32 →
      exec .rdMagic s = .next
        { s with
          inPos := 8 * s.inData.length
          bitsIn := 0#32
          errInfo := 0#32
          cmd := 0x00000009#32
          status := { s.status with eos := true, done := false, err := .format } })

/-- R102: from the header of a tree RD_HEADER builds the arena of that tree, numbered in pre-order, with ROOT = 0 and every
weight 0, and reads no bit after it. -/
def Obligations.RdHeaderReadsTheTree : Prop :=
  ∀ (s : State) (tree : Tree) (rest : Bits), s.Ready → (∀ v ∈ tree.leaves, v ≤ 256) → tree.size ≤ 513 →
    s.inBits = tree.header ++ rest →
    exec .rdHeader s = .next
      { s with
        nodes := tree.arena 0
        root := 0
        inPos := s.inPos + tree.header.length
        bitsIn := BitVec.ofNat 32 tree.header.length
        cmd := 0x0000000A#32
        status := { s.status with treeValid := true, codeValid := false, eos := false, done := true } } ∧
    treeAt (tree.arena 0) tree.size 0 = some tree

/-- R102, R103, R121: an input that ends inside a header, between two tokens or inside a leaf's field, faults TRUNC_HEADER with
the bits delivered, which are those before a cut field; NODE holds exactly the nodes allocated so far, no tree is valid, and
neither the output nor the frequency table nor the code table changes. -/
def Obligations.RdHeaderFaultsOnTruncation : Prop :=
  ∀ (s : State) (cut : HeaderCut) (part : Bits), s.Ready → cut.Readable → CutToken part → s.inBits = cut.bits ++ part →
    ∃ delivered : Nat, delivered = cut.bits.length + (if part = [] then 0 else 1) ∧
      exec .rdHeader s = .next
        { s with
          nodes := cut.arena 0
          inPos := 8 * s.inData.length
          bitsIn := BitVec.ofNat 32 delivered
          errInfo := BitVec.ofNat 32 delivered
          cmd := 0x0000000A#32
          status := { s.status with
            treeValid := false, codeValid := false, eos := true, done := false, err := .truncHeader } }

/-- R72, R102, R103: a leaf field of 257..511 after any well-formed beginning of a header faults BAD_LEAF_VALUE with the value,
after its 9 bits and before a node is taken for it. -/
def Obligations.RdHeaderFaultsOnABadLeaf : Prop :=
  ∀ (s : State) (cut : HeaderCut) (v : Nat) (rest : Bits), s.Ready → cut.Readable → 256 < v → v < 512 →
    s.inBits = cut.bits ++ true :: (bitsOf 9 v ++ rest) →
    exec .rdHeader s = .next
      { s with
        nodes := cut.arena 0
        inPos := s.inPos + (cut.bits.length + 10)
        bitsIn := BitVec.ofNat 32 (cut.bits.length + 10)
        errInfo := BitVec.ofNat 32 v
        cmd := 0x0000000A#32
        status := { s.status with
          treeValid := false, codeValid := false, eos := false, done := false, err := .badLeafValue } }

/-- R102, R103: the token of a 514th node, internal or a leaf, after any beginning of a header with 513 nodes, faults
NODE_OVERFLOW with the bits delivered; so a stream of 514 or more 0 bits faults at its 514th bit. -/
def Obligations.RdHeaderOverflowsAtTheCapacity : Prop :=
  (∀ (s : State) (cut : HeaderCut) (token rest : Bits), s.Ready → cut.Readable → cut.size = 513 →
    token = [false] ∨ (∃ v, v ≤ 256 ∧ token = true :: bitsOf 9 v) → s.inBits = cut.bits ++ token ++ rest →
    exec .rdHeader s = .next
      { s with
        nodes := cut.arena 0
        inPos := s.inPos + (cut.bits ++ token).length
        bitsIn := BitVec.ofNat 32 (cut.bits ++ token).length
        errInfo := BitVec.ofNat 32 (cut.bits ++ token).length
        cmd := 0x0000000A#32
        status := { s.status with
          treeValid := false, codeValid := false, eos := false, done := false, err := .nodeOverflow } }) ∧
  (∀ (s : State) (rest : Bits), s.Ready → s.inBits = List.replicate 514 false ++ rest →
    exec .rdHeader s = .next
      { s with
        nodes := List.replicate 513 { isLeaf := false, value := 0, weight := 0, left := 0, right := 0 }
        inPos := s.inPos + 514
        bitsIn := 514#32
        errInfo := 514#32
        cmd := 0x0000000A#32
        status := { s.status with
          treeValid := false, codeValid := false, eos := false, done := false, err := .nodeOverflow } })

/-! ### Payload -/

/-- R105, R75: ENCODE rewinds the input, appends the code of every byte the port then holds and then the sentinel's. -/
def Obligations.EncodeWritesThePayload : Prop :=
  ∀ s : State, s.Ready → s.status.codeValid = true → s.status.outClosed = false →
    (∀ b ∈ s.secondPass, (s.codeEntry b.toNat).valid = true) → (s.codeEntry 256).valid = true →
    exec .encode s = .next
      { s with
        out := s.out ++ s.payload s.secondPass
        bitsOut := s.bitsOut + BitVec.ofNat 32 (s.payload s.secondPass).length
        inData := s.secondPass
        inPos := 8 * s.secondPass.length
        lateInput := none
        bitsIn := BitVec.ofNat 32 (8 * s.secondPass.length)
        cmd := 0x00000007#32
        status := { s.status with eos := true, done := true } }

/-- R105, R121: the first byte without a code faults UNCODED_SYMBOL with it, after the codes of the bytes before it; if every
byte has one and the sentinel has none, UNCODED_SYMBOL with 256. -/
def Obligations.EncodeFaultsOnAnUncodedSymbol : Prop :=
  ∀ s : State, s.Ready → s.status.codeValid = true → s.status.outClosed = false →
    (∀ (pre post : List Byte) (u : Byte), s.secondPass = pre ++ u :: post →
      (∀ b ∈ pre, (s.codeEntry b.toNat).valid = true) → (s.codeEntry u.toNat).valid = false →
      exec .encode s = .next
        { s with
          out := s.out ++ pre.flatMap (fun b => (s.codeEntry b.toNat).bits)
          bitsOut := s.bitsOut + BitVec.ofNat 32 (pre.flatMap (fun b => (s.codeEntry b.toNat).bits)).length
          inData := s.secondPass
          inPos := 8 * (pre.length + 1)
          lateInput := none
          bitsIn := BitVec.ofNat 32 (8 * (pre.length + 1))
          errInfo := BitVec.ofNat 32 u.toNat
          cmd := 0x00000007#32
          status := { s.status with eos := false, done := false, err := .uncodedSymbol } }) ∧
    ((∀ b ∈ s.secondPass, (s.codeEntry b.toNat).valid = true) → (s.codeEntry 256).valid = false →
      exec .encode s = .next
        { s with
          out := s.out ++ s.secondPass.flatMap (fun b => (s.codeEntry b.toNat).bits)
          bitsOut := s.bitsOut + BitVec.ofNat 32 (s.secondPass.flatMap (fun b => (s.codeEntry b.toNat).bits)).length
          inData := s.secondPass
          inPos := 8 * s.secondPass.length
          lateInput := none
          bitsIn := BitVec.ofNat 32 (8 * s.secondPass.length)
          errInfo := 256#32
          cmd := 0x00000007#32
          status := { s.status with eos := true, done := false, err := .uncodedSymbol } })

/-- R107, R108: where the input spells paths from the root to leaves of byte values and then a path to a sentinel leaf, DECODE
appends those bytes, stops at that leaf after the path's last bit, and reads no bit after it; with a sentinel leaf as the
root it reads none at all. -/
def Obligations.DecodeEmitsTheBytes : Prop :=
  ∀ (s : State) (tree : Tree) (spelled : List (Byte × Bits)) (last rest : Bits), s.Ready →
    s.status.treeValid = true → s.status.outClosed = false → s.tree = some tree →
    (∀ e ∈ spelled, tree.follow e.2 = some (.leaf e.1.toNat)) → tree.follow last = some (.leaf 256) →
    s.inBits = spelled.flatMap Prod.snd ++ last ++ rest →
    ∃ (cur : Nat) (nd : Node), s.nodes[cur]? = some nd ∧ nd.isLeaf = true ∧ nd.value = 256 ∧
      exec .decode s = .next
        { s with
          cur := cur
          out := s.out ++ (spelled.map Prod.fst).flatMap (fun b => bitsOf 8 b.toNat)
          bitsOut := s.bitsOut + BitVec.ofNat 32 (8 * spelled.length)
          inPos := s.inPos + (spelled.flatMap Prod.snd ++ last).length
          bitsIn := BitVec.ofNat 32 (spelled.flatMap Prod.snd ++ last).length
          cmd := 0x0000000B#32
          status := { s.status with dstate := .done, eos := false, done := true } }

/-- R107, R109: a root that is a leaf other than the sentinel faults WALK_OFF_LEAF with its value, without reading a bit. -/
def Obligations.DecodeFaultsOnALeafRoot : Prop :=
  ∀ (s : State) (v : Nat), s.Ready → s.status.treeValid = true → s.status.outClosed = false →
    s.tree = some (.leaf v) → v ≠ 256 →
    exec .decode s = .next
      { s with
        cur := s.root
        bitsIn := 0#32
        errInfo := BitVec.ofNat 32 v
        cmd := 0x0000000B#32
        status := { s.status with dstate := .atRoot, eos := false, done := false, err := .walkOffLeaf } }

/-- R107, R108, R121: where the input ends at an internal node, DECODE faults TRUNC_PAYLOAD with the bits delivered; the
bytes decoded so far are on the output, and DSTATE says whether the walk stands at the root. -/
def Obligations.DecodeFaultsOnTruncation : Prop :=
  ∀ (s : State) (tree left right : Tree) (spelled : List (Byte × Bits)) (last : Bits), s.Ready →
    s.status.treeValid = true → s.status.outClosed = false → s.tree = some tree →
    (∀ e ∈ spelled, tree.follow e.2 = some (.leaf e.1.toNat)) → tree.follow last = some (.node left right) →
    s.inBits = spelled.flatMap Prod.snd ++ last →
    ∃ cur : Nat,
      exec .decode s = .next
        { s with
          cur := cur
          out := s.out ++ (spelled.map Prod.fst).flatMap (fun b => bitsOf 8 b.toNat)
          bitsOut := s.bitsOut + BitVec.ofNat 32 (8 * spelled.length)
          inPos := 8 * s.inData.length
          bitsIn := BitVec.ofNat 32 s.inBits.length
          errInfo := BitVec.ofNat 32 s.inBits.length
          cmd := 0x0000000B#32
          status := { s.status with
            dstate := if last = [] then .atRoot else .midWalk
            eos := true, done := false, err := .truncPayload } }

/-! ### Pipelines -/

/-- R111, R68, R141: COMPRESS completes and appends the magic word, the header of the tree it built, the payload of the data its
encode pass reads, and zero padding to a whole byte, and closes the output. That data is the input, or, undetected, other data
of bytes that the count pass met. The tree is the one BUILD makes of the counts of COUNT (R94). -/
def Obligations.CompressWritesTheStream : Prop :=
  ∀ s : State, s.Ready → s.status.outClosed = false → s.inPos = 0 → s.inData.length ≤ s.params.maxBytes →
    (∀ b ∈ s.secondPass, b ∈ s.inData) →
    ∃ (t : State) (tree : Tree) (pad : Nat), exec .compress s = .next t ∧ t.tree = some tree ∧ pad < 8 ∧
      t.out = s.out ++ bitsOf 32 s.params.huffMagic.toNat ++ tree.header ++ t.payload s.secondPass
        ++ List.replicate pad false ∧
      t.out.length % 8 = 0 ∧ (∀ v : Byte, t.count v.toNat = s.inData.count v) ∧
      (∀ v, v < 257 → t.codeEntry v = tree.entry v) ∧ (∀ b ∈ s.inData, (t.codeEntry b.toNat).valid = true) ∧
      (t.codeEntry 256).valid = true ∧ t.nbytes = s.inData.length ∧ tree.leaves.Perm (t.counted ++ [256]) ∧
      (∃ u w, exec .count s = .next u ∧ exec .build u = .next w ∧ t.nodes = w.nodes ∧ t.root = w.root) ∧
      t.inData = s.secondPass ∧ t.inPos = 8 * s.secondPass.length ∧
      t.bitsIn = BitVec.ofNat 32 (8 * (s.inData.length + s.secondPass.length)) ∧
      t.cmd = 0x0000000C#32 ∧ t.errInfo = s.errInfo ∧
      t.status = { s.status with
        freqValid := true, treeValid := true, codeValid := true, outClosed := true, eos := true, done := true }

/-- R141, R111: data that the host binds while a command runs, after its first pass, is what the port holds from the rewind on
(log entry 24); the first byte of it that the count pass did not meet faults UNCODED_SYMBOL in COMPRESS, with the codes of the
bytes before it written, under the tree BUILD makes of the counts of the first pass, and the output closed. -/
def Obligations.CompressOfChangedInput : Prop :=
  (∀ (s : State) (data : List Byte), s.status.busy = true →
    hostStep exec (.bindInput data true) s = .next { s with lateInput := some data } ∧
    ({ s with lateInput := some data } : State).secondPass = data) ∧
  (∀ (s : State) (data : List Byte) (late : Bool), s.status.busy = false ∨ (late = false ∧ s.lateInput = none) →
    hostStep exec (.bindInput data late) s = .next { s with inData := data, inPos := 0 }) ∧
  (∀ s : State, s.lateInput = none → s.secondPass = s.inData) ∧
  (∀ (s : State) (pre post : List Byte) (u : Byte), s.Ready → s.status.outClosed = false → s.inPos = 0 →
    s.inData.length ≤ s.params.maxBytes → s.secondPass = pre ++ u :: post → (∀ b ∈ pre, b ∈ s.inData) → u ∉ s.inData →
    ∃ (t : State) (tree : Tree) (pad : Nat), exec .compress s = .next t ∧ t.tree = some tree ∧ pad < 8 ∧
      t.out = s.out ++ bitsOf 32 s.params.huffMagic.toNat ++ tree.header
        ++ pre.flatMap (fun b => (t.codeEntry b.toNat).bits) ++ List.replicate pad false ∧
      t.out.length % 8 = 0 ∧ (∀ v : Byte, t.count v.toNat = s.inData.count v) ∧
      (∀ v, v < 257 → t.codeEntry v = tree.entry v) ∧ tree.leaves.Perm (t.counted ++ [256]) ∧
      (∃ u w, exec .count s = .next u ∧ exec .build u = .next w ∧ t.nodes = w.nodes ∧ t.root = w.root) ∧
      t.inData = s.secondPass ∧ t.inPos = 8 * (pre.length + 1) ∧
      t.bitsIn = BitVec.ofNat 32 (8 * (s.inData.length + pre.length + 1)) ∧
      t.cmd = 0x0000000C#32 ∧ t.errInfo = BitVec.ofNat 32 u.toNat ∧
      t.status = { s.status with
        freqValid := true, treeValid := true, codeValid := true, outClosed := true, eos := true, done := false
        err := .uncodedSymbol })

/-- R114: with L leaves, the stream before padding has T = 32 + (11 L − 1) + the sum of FREQ[v] × LEN[v] over the byte values
+ LEN[256] bits, and 8 × ⌈T / 8⌉ − T bits of padding follow, so that the output is ⌈T / 8⌉ bytes. -/
def Obligations.CompressOutputLength : Prop :=
  ∀ (s t : State) (tree : Tree) (T : Nat), s.Ready → s.status.outClosed = false → s.inPos = 0 → s.out = [] →
    s.secondPass = s.inData → s.inData.length ≤ s.params.maxBytes → exec .compress s = .next t → t.tree = some tree →
    T = 32 + (11 * tree.leaves.length - 1)
      + ((List.range 256).map (fun v => t.count v * (t.codeEntry v).len)).sum + (t.codeEntry 256).len →
    (outBytes t.out).length = (T + 7) / 8 ∧
    ∃ stream : Bits, stream.length = T ∧ t.out = stream ++ List.replicate (8 * ((T + 7) / 8) - T) false

/-- R111: COMPRESS of an input longer than MAX_BYTES faults LENGTH_OVERFLOW with nothing written but the padding of what
was there, and closes the output. -/
def Obligations.CompressFaultsOnOverflow : Prop :=
  ∀ s : State, s.Ready → s.status.outClosed = false → s.inPos = 0 → s.params.maxBytes < s.inData.length →
    ∃ (t : State) (pad : Nat), exec .compress s = .next t ∧ pad < 8 ∧ t.out = s.out ++ List.replicate pad false ∧
      t.out.length % 8 = 0 ∧ t.errInfo = BitVec.ofNat 32 s.params.maxBytes ∧
      t.status = { s.status with
        freqValid := false, treeValid := false, codeValid := false, outClosed := true, eos := false, done := false
        err := .lengthOverflow }

/-- R112: from a stream of the magic word, a tree's header and a payload that ends at a sentinel leaf, DECOMPRESS appends the
payload's bytes and zero padding to a whole byte, reads no bit after the payload, and closes the output. -/
def Obligations.DecompressReadsTheStream : Prop :=
  ∀ (s : State) (tree : Tree) (spelled : List (Byte × Bits)) (last rest : Bits), s.Ready →
    s.status.outClosed = false → (∀ v ∈ tree.leaves, v ≤ 256) → tree.size ≤ 513 →
    (∀ e ∈ spelled, tree.follow e.2 = some (.leaf e.1.toNat)) → tree.follow last = some (.leaf 256) →
    s.inBits = bitsOf 32 s.params.huffMagic.toNat ++ tree.header ++ spelled.flatMap Prod.snd ++ last ++ rest →
    ∃ (cur pad : Nat), pad < 8 ∧ (s.out.length + pad) % 8 = 0 ∧
      exec .decompress s = .next
        { s with
          nodes := tree.arena 0
          root := 0
          cur := cur
          out := s.out ++ (spelled.map Prod.fst).flatMap (fun b => bitsOf 8 b.toNat) ++ List.replicate pad false
          bitsOut := s.bitsOut + BitVec.ofNat 32 (8 * spelled.length + pad)
          inPos := 8 * s.inData.length - rest.length
          bitsIn := BitVec.ofNat 32 (s.inBits.length - rest.length)
          cmd := 0x0000000D#32
          status := { s.status with
            treeValid := true, codeValid := false, outClosed := true, dstate := .done, eos := false, done := true } }

/-- R112, R116, R117: what DECOMPRESS does with an input that is no compressed stream. Its faults are those of its stages: FORMAT
where the first 32 bits are not HUFF_MAGIC or there are fewer, TRUNC_HEADER, BAD_LEAF_VALUE and NODE_OVERFLOW in the header,
WALK_OFF_LEAF where the root is a leaf of a byte value, and TRUNC_PAYLOAD where the input ends before a sentinel leaf; each with
the bytes decoded so far written and the output closed. So (R116 b) a beginning of a COMPRESS output that is cut in the header
or before the last bit of its payload faults TRUNC_HEADER or TRUNC_PAYLOAD. -/
def Obligations.DecompressRejectsMalformedInput : Prop :=
  ∀ s : State, s.Ready → s.status.outClosed = false →
    (s.inBits.length < 32 → s.Rejects .format 0#32 []) ∧
    (∀ (w : Word) (rest : Bits), w ≠ s.params.huffMagic → s.inBits = bitsOf 32 w.toNat ++ rest → s.Rejects .format w []) ∧
    (∀ (cut : HeaderCut) (part : Bits), cut.Readable → CutToken part →
      s.inBits = bitsOf 32 s.params.huffMagic.toNat ++ cut.bits ++ part →
      s.Rejects .truncHeader (BitVec.ofNat 32 (32 + cut.bits.length + (if part = [] then 0 else 1))) []) ∧
    (∀ (cut : HeaderCut) (v : Nat) (rest : Bits), cut.Readable → 256 < v → v < 512 →
      s.inBits = bitsOf 32 s.params.huffMagic.toNat ++ cut.bits ++ true :: (bitsOf 9 v ++ rest) →
      s.Rejects .badLeafValue (BitVec.ofNat 32 v) []) ∧
    (∀ (cut : HeaderCut) (token rest : Bits), cut.Readable → cut.size = 513 →
      token = [false] ∨ (∃ v, v ≤ 256 ∧ token = true :: bitsOf 9 v) →
      s.inBits = bitsOf 32 s.params.huffMagic.toNat ++ cut.bits ++ token ++ rest →
      s.Rejects .nodeOverflow (BitVec.ofNat 32 (32 + (cut.bits ++ token).length)) []) ∧
    (∀ (v : Nat) (rest : Bits), v < 256 →
      s.inBits = bitsOf 32 s.params.huffMagic.toNat ++ (Tree.leaf v).header ++ rest →
      s.Rejects .walkOffLeaf (BitVec.ofNat 32 v) []) ∧
    (∀ (tree left right : Tree) (spelled : List (Byte × Bits)) (last : Bits), (∀ v ∈ tree.leaves, v ≤ 256) →
      tree.size ≤ 513 → (∀ e ∈ spelled, tree.follow e.2 = some (.leaf e.1.toNat)) →
      tree.follow last = some (.node left right) →
      s.inBits = bitsOf 32 s.params.huffMagic.toNat ++ tree.header ++ spelled.flatMap Prod.snd ++ last →
      s.Rejects .truncPayload (BitVec.ofNat 32 s.inBits.length)
        ((spelled.map Prod.fst).flatMap (fun b => bitsOf 8 b.toNat))) ∧
    (∀ (c t : State) (tree : Tree), c.Ready → c.status.outClosed = false → c.inPos = 0 → c.out = [] →
      c.secondPass = c.inData → c.inData.length ≤ c.params.maxBytes → c.params.huffMagic = s.params.huffMagic →
      exec .compress c = .next t → t.tree = some tree → s.inBits <+: t.out →
      (32 ≤ s.inBits.length → s.inBits.length < 32 + tree.header.length → ∃ info, s.Rejects .truncHeader info []) ∧
      (32 + tree.header.length ≤ s.inBits.length →
        s.inBits.length < 32 + tree.header.length + (t.payload c.inData).length →
        ∃ k, s.Rejects .truncPayload (BitVec.ofNat 32 s.inBits.length)
          ((c.inData.take k).flatMap (fun b => bitsOf 8 b.toNat))))

/-- R113: however COMPRESS or DECOMPRESS ends, the output is closed at a whole byte, and what was on it is still there. -/
def Obligations.PipelinesCloseTheOutput : Prop :=
  ∀ (op : Op) (s t : State), op = .compress ∨ op = .decompress → s.Ready → s.status.outClosed = false →
    exec op.instr s = .next t →
    t.status.outClosed = true ∧ t.out.length % 8 = 0 ∧ s.out <+: t.out ∧
      (t.status.done = true ∨ t.status.err ≠ ErrCode.none)

/-- R115: for every byte sequence of at most MAX_BYTES bytes, DECOMPRESS of what COMPRESS wrote, each from the first bit with
an empty output, gives the sequence back, and neither faults. -/
def Obligations.DecompressInvertsCompress : Prop :=
  ∀ s u : State, s.Ready → s.status.outClosed = false → s.inPos = 0 → s.out = [] →
    s.secondPass = s.inData → s.inData.length ≤ s.params.maxBytes →
    ∃ t, exec .compress s = .next t ∧ t.status.err = ErrCode.none ∧ t.status.done = true ∧
      (u.Ready → u.status.outClosed = false → u.inPos = 0 → u.out = [] →
        u.params.huffMagic = s.params.huffMagic → u.inData = outBytes t.out →
        ∃ w, exec .decompress u = .next w ∧ w.status.err = ErrCode.none ∧ w.status.done = true ∧
          outBytes w.out = s.inData)

/-! ### Stream tokens -/

/-- R69 to R76: on an open port every output token appends exactly its encoding and counts its bits. That a lone token does so,
also under a recorded error, is the model's choice (log entries 13 and 25). -/
def Obligations.OutputTokensAreWritten : Prop :=
  ∀ (s : State) (i : Instr) (part : StreamPart) (bits : Bits), i.wf = true → streamPart i = some part →
    part ≠ .unit → s.status.outClosed = false → encodeToken s.book i = some bits →
    exec i s = .next { s with out := s.out ++ bits, bitsOut := s.bitsOut + BitVec.ofNat 32 bits.length }

/-- R77, R43: an input unit that is at the input port is read, 8 bits of BITS_IN; at a byte boundary it is that byte. That a lone
token does so, also under a recorded error, is the model's choice (log entries 13 and 25). -/
def Obligations.InputUnitIsRead : Prop :=
  (∀ (s : State) (u : Byte) (rest : Bits), s.inBits = bitsOf 8 u.toNat ++ rest →
    exec (.inputUnit u) s = .next { s with inPos := s.inPos + 8, bitsIn := s.bitsIn + 8#32 }) ∧
  (∀ (s : State) (k : Nat) (u : Byte), s.inPos = 8 * k → s.inData[k]? = some u →
    exec (.inputUnit u) s = .next { s with inPos := s.inPos + 8, bitsIn := s.bitsIn + 8#32 })

/-- Where a token does not cross, all of it the model's choice: at a closed port it is refused (log entry 15; R48), a lone
CODE_WORD of a symbol without a code records UNCODED_SYMBOL, as R105 has ENCODE do (log entry 13), in the place of an error that
is already recorded (log entry 25), and a unit that is not at the input port is refused (log entry 15; R77). -/
def Obligations.TokensThatDoNotCross : Prop :=
  (∀ (s : State) (i : Instr) (part : StreamPart), streamPart i = some part → part ≠ .unit →
    s.status.outClosed = true → exec i s = .refused .outputClosed) ∧
  (∀ (s : State) (sym : BitVec 9), s.status.outClosed = false → (s.codeEntry sym.toNat).valid = false →
    exec (.codeWord sym) s = .next
      { s with
        errInfo := BitVec.ofNat 32 sym.toNat
        status := { s.status with err := .uncodedSymbol, busy := false } }) ∧
  (∀ (s : State) (u : Byte), s.inBits.take 8 ≠ bitsOf 8 u.toNat →
    exec (.inputUnit u) s = .refused .unitNotAtPort)

/-! ### Frames: who writes what -/

/-- R43, R57 and the hardwired registers R29, R30: no instruction changes the parameters, what the host does and has read, or the
input data, but that the rewind of ENCODE and COMPRESS brings data that the host has bound since the first pass into sight
(R141; log entry 24); and only CLEAR writes TBL_ADDR. -/
def Obligations.InstructionsLeaveTheHostAlone : Prop :=
  ∀ (i : Instr) (s t : State), exec i s = .next t →
    t.params = s.params ∧ t.secondPass = s.secondPass ∧
    (s.lateInput = none ∨ (i ≠ .encode ∧ i ≠ .compress) → t.inData = s.inData ∧ t.lateInput = s.lateInput) ∧ t.token = s.token ∧ t.lag = s.lag ∧ t.hostOps = s.hostOps ∧
    t.hostReads = s.hostReads ∧ t.draws = s.draws ∧ (i ≠ .clear → t.tblAddr = s.tblAddr)

/-- R17, R19, R22, R23: the frequency table is written only by COUNT, the tree only by BUILD and RD_HEADER, the code table
only by DERIVE, the decoder's state only by DECODE, each also as a pipeline's stage, and all of them by CLEAR. -/
def Obligations.DatapathWriters : Prop :=
  ∀ (i : Instr) (s t : State), exec i s = .next t → i ≠ .clear →
    (i ≠ .count → i ≠ .compress → t.freq = s.freq ∧ t.nbytes = s.nbytes) ∧
    (i ≠ .build → i ≠ .rdHeader → i ≠ .compress → i ≠ .decompress →
      t.nodes = s.nodes ∧ t.root = s.root) ∧
    (i ≠ .build → i ≠ .compress → t.pq = s.pq) ∧
    (i ≠ .derive → i ≠ .compress → t.code = s.code) ∧
    (i ≠ .decode → i ≠ .decompress → t.cur = s.cur ∧ t.status.dstate = s.status.dstate)

/-- R34, R35, R48, R53: only the readers move the input; no instruction but CLEAR takes a bit from the output, and BITS_OUT
rises by the bits appended; the others append nothing. -/
def Obligations.PortWriters : Prop :=
  ∀ (i : Instr) (s t : State), exec i s = .next t → i ≠ .clear →
    (i ≠ .count → i ≠ .encode → i ≠ .rdMagic → i ≠ .rdHeader → i ≠ .decode → i ≠ .compress → i ≠ .decompress →
      (∀ u, i ≠ .inputUnit u) → t.inPos = s.inPos ∧ t.bitsIn = s.bitsIn ∧ t.status.eos = s.status.eos) ∧
    (∃ bits, t.out = s.out ++ bits ∧ t.bitsOut = s.bitsOut + BitVec.ofNat 32 bits.length) ∧
    (i = .nop ∨ i = .count ∨ i = .build ∨ i = .derive ∨ i = .rdMagic ∨ i = .rdHeader ∨ (∃ u, i = .inputUnit u) →
      t.out = s.out ∧ t.bitsOut = s.bitsOut)

/-- R26, R27, R28, R39: the writers of the flags, of CMD and of ERR_INFO; the last clause, that a lone token leaves CMD and DONE,
is the model's choice (log entry 13). -/
def Obligations.FlagWriters : Prop :=
  ∀ (i : Instr) (s t : State), exec i s = .next t → i ≠ .clear →
    (i ≠ .count → i ≠ .compress → t.status.freqValid = s.status.freqValid) ∧
    (i ≠ .count → i ≠ .build → i ≠ .rdHeader → i ≠ .compress → i ≠ .decompress →
      t.status.treeValid = s.status.treeValid) ∧
    (i ≠ .count → i ≠ .build → i ≠ .derive → i ≠ .rdHeader → i ≠ .compress → i ≠ .decompress →
      t.status.codeValid = s.status.codeValid) ∧
    (i ≠ .closeOut → i ≠ .compress → i ≠ .decompress → t.status.outClosed = s.status.outClosed) ∧
    (s.status.busy = false → t.status.ovr = s.status.ovr ∧ t.status.busy = false) ∧
    (t.errInfo ≠ s.errInfo → t.status.err ≠ ErrCode.none) ∧
    (streamPart i ≠ none → t.cmd = s.cmd ∧ t.status.done = s.status.done)

/-! ### Registers and reset -/

/-- R27, R23, R117: where STATUS holds each field, with the numbers of DSTATE and of ERR; its reserved bits read 0. -/
def Obligations.StatusWordLayout : Prop :=
  ∀ f : Status,
    f.word.getLsbD 0 = f.busy ∧ f.word.getLsbD 1 = f.done ∧ f.word.getLsbD 2 = f.freqValid ∧
    f.word.getLsbD 3 = f.treeValid ∧ f.word.getLsbD 4 = f.codeValid ∧ f.word.getLsbD 5 = f.outClosed ∧
    f.word.getLsbD 6 = f.ovr ∧ f.word.getLsbD 7 = false ∧
    (f.dstate, f.word.extractLsb' 8 2) ∈ [(DState.atRoot, 0#2), (.midWalk, 1#2), (.done, 2#2)] ∧
    f.word.getLsbD 10 = f.eos ∧ f.word.extractLsb' 11 5 = 0#5 ∧
    (f.err, f.word.extractLsb' 16 8) ∈
      [(ErrCode.none, 0#8), (.illegalCmd, 1#8), (.sequence, 2#8), (.format, 3#8), (.truncHeader, 4#8),
        (.truncPayload, 5#8), (.walkOffLeaf, 6#8), (.badLeafValue, 7#8), (.nodeOverflow, 8#8), (.lengthOverflow, 9#8),
        (.uncodedSymbol, 10#8)] ∧
    f.word.extractLsb' 24 8 = 0#8

/-- R36: a write of TBL_ADDR takes INDEX, WORD and TABLE and no reserved bit, whether or not BUSY = 1; TBL_ADDR then reads so
while idle. -/
def Obligations.TblAddrTakesItsFields : Prop :=
  ∀ (s : State) (v : Word) (lag : Nat), ∃ a : Word,
    a.extractLsb' 0 12 = v.extractLsb' 0 12 ∧ a.extractLsb' 12 3 = v.extractLsb' 12 3 ∧ a.getLsbD 15 = false ∧
    a.extractLsb' 16 4 = v.extractLsb' 16 4 ∧ a.extractLsb' 20 12 = 0#12 ∧
    memWrite exec 0x28 v lag s = .next { s with tblAddr := a } ∧ regValue { s with tblAddr := a } 0x28 = a

/-- R38: a read of a reserved offset returns 0 (while BUSY = 0; R58 leaves reads open otherwise), and a write to one or to a
read-only register is ignored. -/
def Obligations.ReservedAndReadOnlyRegisters : Prop :=
  ∀ s : State,
    (∀ off, 0x30 ≤ off → off ≤ 0xFC → s.status.busy = false →
      memRead off s = { s with hostReads := 0#32 :: s.hostReads }) ∧
    (∀ (off : Nat) (v : Word) (lag : Nat),
      (0x30 ≤ off ∧ off ≤ 0xFC) ∨ off ∈ [0x04, 0x08, 0x0C, 0x10, 0x14, 0x18, 0x1C, 0x20, 0x24, 0x2C] →
      memWrite exec off v lag s = .next s)

/-- R37: what TBL_DATA reads for each table, and that any other selection reads 0. -/
def Obligations.TblDataReadsTheSelectedWord : Prop :=
  ∀ (s : State) (table index word : Nat), table < 16 → index < 4096 → word < 8 →
    s.tblAddr = BitVec.ofNat 32 (table * 2 ^ 16 + word * 2 ^ 12 + index) →
    (table = 0 → word = 0 → index < 256 → regValue s 0x2C = BitVec.ofNat 32 (s.count index)) ∧
    (table = 1 → word = 0 → index < 257 →
      (regValue s 0x2C).getLsbD 31 = (s.codeEntry index).valid ∧
      (regValue s 0x2C).extractLsb' 0 9 = BitVec.ofNat 9 (s.codeEntry index).len ∧
      (regValue s 0x2C).extractLsb' 9 22 = 0#22) ∧
    (table = 2 → index < 257 → ∀ j, j < 32 →
      (regValue s 0x2C).getLsbD (31 - j) = (s.codeEntry index).bits.getD (32 * word + j) false) ∧
    (∀ nd, table = 3 → s.nodes[index]? = some nd →
      (word = 0 → (regValue s 0x2C).getLsbD 31 = nd.isLeaf ∧
        (regValue s 0x2C).extractLsb' 0 9 = BitVec.ofNat 9 nd.value ∧
        (regValue s 0x2C).extractLsb' 9 22 = 0#22) ∧
      (word = 1 → regValue s 0x2C = BitVec.ofNat 32 nd.weight) ∧
      (word = 2 → regValue s 0x2C = if nd.isLeaf then 0xFFFFFFFF#32 else BitVec.ofNat 32 nd.left) ∧
      (word = 3 → regValue s 0x2C = if nd.isLeaf then 0xFFFFFFFF#32 else BitVec.ofNat 32 nd.right)) ∧
    (3 < table ∨ (table = 0 ∧ (word ≠ 0 ∨ 256 ≤ index)) ∨ (table = 1 ∧ (word ≠ 0 ∨ 257 ≤ index)) ∨
      (table = 2 ∧ 257 ≤ index) ∨ (table = 3 ∧ (s.nodes.length ≤ index ∨ 3 < word)) → regValue s 0x2C = 0#32)

/-- R53, R58, and the register map of R25 to R36: a read changes nothing of the block; while BUSY = 1 a read of STATUS has bit 0
set, and while BUSY = 0 a read returns the register: CMD, STATUS, ERR_INFO, MAGIC, CONFIG with COUNT_W and NODE_CAP, NBYTES cut to
COUNT_W bits, NNODES and ROOT cut to 10 bits, BITS_IN, BITS_OUT and TBL_ADDR. -/
def Obligations.ReadsReturnTheRegisters : Prop :=
  ∀ s : State,
    (∀ off : Nat, ∃ (v : Word) (n : Nat),
      memRead off s = { s with hostReads := v :: s.hostReads, draws := n } ∧
      (s.status.busy = true → off = 0x04 → v.getLsbD 0 = true) ∧
      (s.status.busy = false → v = regValue s off ∧ n = s.draws)) ∧
    regValue s 0x00 = s.cmd ∧ regValue s 0x04 = s.status.word ∧ regValue s 0x08 = s.errInfo ∧
    regValue s 0x0C = s.params.huffMagic ∧
    (regValue s 0x10).extractLsb' 0 8 = BitVec.ofNat 8 s.params.countW ∧ (regValue s 0x10).extractLsb' 8 16 = 513#16 ∧
    (regValue s 0x10).extractLsb' 24 8 = 0#8 ∧
    (s.params.countW ≤ 32 → (regValue s 0x14).toNat = s.nbytes % 2 ^ s.params.countW) ∧
    (regValue s 0x18).toNat = s.nodes.length % 2 ^ 10 ∧ (regValue s 0x1C).toNat = s.root % 2 ^ 10 ∧
    regValue s 0x20 = s.bitsIn ∧ regValue s 0x24 = s.bitsOut ∧ regValue s 0x28 = s.tblAddr

/-- R52, R54, R55: a host access of 32 bits at REG_BASE plus a multiple of 4 below 256 is the read or the write of the register
there; one that is not 32 bits wide, not at a multiple of 4, or outside the 256 bytes at REG_BASE is refused (log entry 12). -/
def Obligations.OnlyDefinedAccessesAreTaken : Prop :=
  (∀ (s : State) (off : Nat) (v : Word) (lag : Nat), off < 256 → off % 4 = 0 →
    hostStep exec (.read (s.params.regBase + off) 4) s = .next (memRead off s) ∧
    hostStep exec (.write (s.params.regBase + off) 4 v lag) s = memWrite exec off v lag s) ∧
  (∀ (s : State) (addr width : Nat) (v : Word) (lag : Nat),
    width ≠ 4 ∨ addr < s.params.regBase ∨ s.params.regBase + 256 ≤ addr ∨ (addr - s.params.regBase) % 4 ≠ 0 →
    hostStep exec (.read addr width) s = .refused .undefinedAccess ∧
    hostStep exec (.write addr width v lag) s = .refused .undefinedAccess)

/-- R135, R137, R145: a reset puts every register and array at its reset value; with BUSY = 0 it touches neither the input nor its
data and, as R145 models the host's fresh port, gives an empty output (log entry 9); with BUSY = 1 the input stands anywhere in
the data the host has bound, and the output holds what it held and a beginning of what the command would have written, unclosed
(log entry 10), or is the fresh port of R145 where it was closed or the command is CLEAR. What the command would have written is
what exec of it appends, without the padding with which a pipeline closes the output (R137). -/
def Obligations.ResetGivesResetValues : Prop :=
  (∀ s : State, ∃ (pos : Nat) (out : Bits) (draws : Nat),
    hostStep exec .reset s = .next
      { State.reset with
        params := s.params
        inData := if s.status.busy then s.secondPass else s.inData
        inPos := pos
        lateInput := if s.status.busy then none else s.lateInput
        out := out
        hostOps := s.hostOps
        hostReads := s.hostReads
        draws := draws } ∧
    (s.status.busy = false → pos = s.inPos ∧ out = []) ∧
    (s.status.busy = true → pos ≤ 8 * s.secondPass.length ∧
      (s.status.outClosed = true ∨ s.cmd = 0x00000001#32 → out = []) ∧
      (s.status.outClosed = false → s.cmd ≠ 0x00000001#32 → ∃ bits, bits <+: wouldWrite s ∧ out = s.out ++ bits))) ∧
  (∀ (s t : State) (op : Op), s.status.busy = true → s.cmd = op.word → op ≠ .clear → s.status.outClosed = false →
    s.status.err = ErrCode.none ∨ op = .closeOut →
    exec op.instr { s with status := { s.status with busy := false } } = .next t →
    ∃ pad, pad < 8 ∧ t.out = s.out ++ wouldWrite s ++ List.replicate pad false ∧
      (op ≠ .compress → op ≠ .decompress → pad = 0))
end

