-- ==== Sys2Proof/Laws/Bits.lean ====
section
/-! SUPPORT. What holds of bit strings, of the bits of the input stream, of padding, and of tables. -/

namespace Sys2Proof

/-! ### bits_N and num (00_scope.md R10) -/

@[simp] theorem bitsOf_length (n v : Nat) : (bitsOf n v).length = n := by
  induction n with
  | zero => rfl
  | succ n ih => simp [bitsOf, ih]

@[simp] theorem num_nil : num [] = 0 := rfl

theorem num_append (s t : Bits) : num (s ++ t) = num s * 2 ^ t.length + num t := by
  have key : ∀ (t : Bits) (a : Nat),
      t.foldl (fun a b => 2 * a + b.toNat) a = a * 2 ^ t.length + t.foldl (fun a b => 2 * a + b.toNat) 0 := by
    intro t
    induction t with
    | nil => simp
    | cons b t ih =>
      intro a
      rw [List.foldl_cons, ih, List.foldl_cons, ih (2 * 0 + b.toNat), List.length_cons, pow_succ]
      ring
  rw [num, List.foldl_append, key]
  rfl

theorem num_cons (b : Bool) (s : Bits) : num (b :: s) = b.toNat * 2 ^ s.length + num s := by
  simpa [num] using num_append [b] s

theorem num_lt (s : Bits) : num s < 2 ^ s.length := by
  induction s with
  | nil => simp
  | cons b s ih =>
    rw [num_cons, List.length_cons, pow_succ]
    cases b <;> simp <;> omega

theorem num_bitsOf (n v : Nat) : num (bitsOf n v) = v % 2 ^ n := by
  induction n with
  | zero => simp [bitsOf, Nat.mod_one]
  | succ n ih =>
    have b : (v.testBit n).toNat = v / 2 ^ n % 2 := by
      rw [Nat.testBit_eq_decide_div_mod_eq]
      rcases Nat.mod_two_eq_zero_or_one (v / 2 ^ n) with h | h <;> simp [h]
    rw [bitsOf, num_cons, ih, bitsOf_length, b, Nat.mod_pow_succ]
    ring

theorem num_bitsOf_of_lt {n v : Nat} (h : v < 2 ^ n) : num (bitsOf n v) = v := by
  rw [num_bitsOf, Nat.mod_eq_of_lt h]

theorem num_bitsOf_toNat {n : Nat} (v : BitVec n) : num (bitsOf n v.toNat) = v.toNat := num_bitsOf_of_lt v.isLt

/-- Bit k of bits_N(v), counted from the first, is bit N − 1 − k of v. -/
theorem bitsOf_getElem? (n v k : Nat) (h : k < n) : (bitsOf n v)[k]? = some (v.testBit (n - 1 - k)) := by
  induction n generalizing k with
  | zero => omega
  | succ n ih =>
    cases k with
    | zero => simp [bitsOf]
    | succ k =>
      rw [bitsOf, List.getElem?_cons_succ, ih k (by omega)]
      congr 2
      omega

/-- bits_N(v) reads only the low N bits of v. -/
theorem bitsOf_mod (n m v : Nat) (h : n ≤ m) : bitsOf n (v % 2 ^ m) = bitsOf n v := by
  induction n with
  | zero => rfl
  | succ n ih =>
    rw [bitsOf, bitsOf, ih (by omega), Nat.testBit_mod_two_pow]
    simp [show n < m by omega]

/-- A bit string is the bits of its number. -/
theorem bitsOf_num (s : Bits) : bitsOf s.length (num s) = s := by
  induction s with
  | nil => rfl
  | cons b s ih =>
    have hl := num_lt s
    have low : (b.toNat * 2 ^ s.length + num s) % 2 ^ s.length = num s := by
      rw [Nat.mul_add_mod_self_right, Nat.mod_eq_of_lt hl]
    have high : (b.toNat * 2 ^ s.length + num s).testBit s.length = b := by
      rw [Nat.testBit_eq_decide_div_mod_eq, Nat.mul_comm, Nat.mul_add_div (Nat.two_pow_pos _), Nat.div_eq_of_lt hl]
      cases b <;> rfl
    rw [num_cons, List.length_cons, bitsOf, high, ← bitsOf_mod s.length s.length _ le_rfl, low, ih]

/-- Bit strings of one length with one number are equal. -/
theorem num_inj {s t : Bits} (hl : s.length = t.length) (h : num s = num t) : s = t := by
  rw [← bitsOf_num s, ← bitsOf_num t, hl, h]

@[simp] theorem takeBits_append (a b : Bits) : takeBits a.length (a ++ b) = some (a, b) := by
  simp [takeBits]

theorem takeBits_short {n : Nat} {s : Bits} (h : s.length < n) : takeBits n s = none := by
  simp [takeBits, Nat.not_le.mpr h]

/-! ### Tables -/

@[simp] theorem Table.get?_fill {α : Type} (n : Nat) (a : α) (i : Nat) :
    (Table.fill n a).get? i = if i < n then some a else none := by
  simp [Table.fill, Table.get?, List.getElem?_replicate]

theorem Table.get?_set {α : Type} {n : Nat} (t : Table α n) (i j : Nat) (a : α) :
    (t.set i a).get? j = if i = j ∧ j < n then some a else t.get? j := by
  unfold Table.set Table.get?
  by_cases h : i = j
  · subst h
    by_cases hl : i < n
    · simp [hl, t.size_eq]
    · simp [hl, t.size_eq]
  · simp [h]

theorem Table.get?_lt {α : Type} {n : Nat} (t : Table α n) {i : Nat} (h : i < n) : ∃ a, t.get? i = some a :=
  ⟨_, List.getElem?_eq_getElem (h.trans_eq t.size_eq.symm)⟩

theorem Table.get?_ge {α : Type} {n : Nat} (t : Table α n) {i : Nat} (h : n ≤ i) : t.get? i = none :=
  List.getElem?_eq_none (t.size_eq.trans_le h)

/-- Tables with the same entries are equal. -/
theorem Table.ext_get? {α : Type} {n : Nat} {t u : Table α n} (h : ∀ i, i < n → t.get? i = u.get? i) : t = u := by
  obtain ⟨l, hl⟩ := t
  obtain ⟨m, hm⟩ := u
  have e : l = m := List.ext_getElem? fun i => by
    by_cases hi : i < n
    · exact h i hi
    · rw [List.getElem?_eq_none (by omega), List.getElem?_eq_none (by omega)]
  subst e
  rfl

namespace Machine

/-! ### The input stream (20_memory.md R43) -/

@[simp] theorem inField_length (data : List Byte) (p n : Nat) : (inField data p n).length = n := by simp [inField]

@[simp] theorem inField_zero (data : List Byte) (p : Nat) : inField data p 0 = [] := rfl

/-- A field is its beginning and the field after it. -/
theorem inField_add (data : List Byte) (p m n : Nat) :
    inField data p (m + n) = inField data p m ++ inField data (p + m) n := by
  simp [inField, List.range_add, Nat.add_assoc, Function.comp_def]

theorem inField_take (data : List Byte) (p : Nat) {m n : Nat} (h : m ≤ n) : (inField data p n).take m = inField data p m := by
  obtain ⟨k, rfl⟩ := Nat.exists_eq_add_of_le h
  rw [inField_add, List.take_append_of_le_length (by simp), List.take_of_length_le (by simp)]

theorem inField_drop (data : List Byte) (p : Nat) {m n : Nat} (h : m ≤ n) :
    (inField data p n).drop m = inField data (p + m) (n - m) := by
  obtain ⟨k, rfl⟩ := Nat.exists_eq_add_of_le h
  rw [inField_add, List.drop_append_of_le_length (by simp), List.drop_of_length_le (by simp)]
  simp

/-- The 8 bits from a byte boundary are that byte. -/
theorem inField_byte (data : List Byte) (k : Nat) :
    inField data (8 * k) 8 = bitsOf 8 (data.getD k 0#8).toNat := by
  have e : ∀ j, j < 8 → inBit data (8 * k + j) = (data.getD k 0#8).toNat.testBit (7 - j) := by
    intro j hj
    rw [inBit, show (8 * k + j) / 8 = k by omega, show (8 * k + j) % 8 = j by omega]
    rfl
  simp [inField, bitsOf, List.range_succ, e]
  simpa using e 0 (by omega)

/-! ### Padding (20_memory.md R49) -/

theorem padLength_lt (n : Nat) : padLength n < 8 := Nat.mod_lt _ (by omega)

theorem add_padLength (n : Nat) : (n + padLength n) % 8 = 0 := by unfold padLength; omega

theorem padLength_of_aligned {n : Nat} (h : n % 8 = 0) : padLength n = 0 := by simp [padLength, h]

/-- The padding is determined by its bounds. -/
theorem padLength_unique {n pad : Nat} (hp : pad < 8) (h : (n + pad) % 8 = 0) : pad = padLength n := by
  unfold padLength; omega

end Machine

end Sys2Proof
end

