-- ==== Sys2Proof/Laws/State.lean ====
section
/-! SUPPORT. What each field is after each shared update of the state: one lemma a field, so that no proof unfolds an update. -/

namespace Sys2Proof.Machine

variable (s : State)

/-! ### After InReset (20_memory.md R46) -/

@[simp] theorem inReset_params : (inReset s).params = s.params := rfl
@[simp] theorem inReset_freq : (inReset s).freq = s.freq := rfl
@[simp] theorem inReset_nbytes : (inReset s).nbytes = s.nbytes := rfl
@[simp] theorem inReset_nodes : (inReset s).nodes = s.nodes := rfl
@[simp] theorem inReset_root : (inReset s).root = s.root := rfl
@[simp] theorem inReset_pq : (inReset s).pq = s.pq := rfl
@[simp] theorem inReset_code : (inReset s).code = s.code := rfl
@[simp] theorem inReset_cur : (inReset s).cur = s.cur := rfl
@[simp] theorem inReset_status : (inReset s).status = s.status := rfl
@[simp] theorem inReset_cmd : (inReset s).cmd = s.cmd := rfl
@[simp] theorem inReset_errInfo : (inReset s).errInfo = s.errInfo := rfl
@[simp] theorem inReset_bitsIn : (inReset s).bitsIn = s.bitsIn := rfl
@[simp] theorem inReset_bitsOut : (inReset s).bitsOut = s.bitsOut := rfl
@[simp] theorem inReset_tblAddr : (inReset s).tblAddr = s.tblAddr := rfl
@[simp] theorem inReset_inData : (inReset s).inData = s.secondPass := rfl
@[simp] theorem inReset_inPos : (inReset s).inPos = 0 := rfl
@[simp] theorem inReset_out : (inReset s).out = s.out := rfl
@[simp] theorem inReset_token : (inReset s).token = s.token := rfl
@[simp] theorem inReset_lag : (inReset s).lag = s.lag := rfl
@[simp] theorem inReset_lateInput : (inReset s).lateInput = none := rfl
@[simp] theorem inReset_hostOps : (inReset s).hostOps = s.hostOps := rfl
@[simp] theorem inReset_hostReads : (inReset s).hostReads = s.hostReads := rfl
@[simp] theorem inReset_draws : (inReset s).draws = s.draws := rfl

/-! ### After OutWrite (20_memory.md R48) -/

@[simp] theorem outWrite_params (str : Bits) : (outWrite str s).params = s.params := rfl
@[simp] theorem outWrite_freq (str : Bits) : (outWrite str s).freq = s.freq := rfl
@[simp] theorem outWrite_nbytes (str : Bits) : (outWrite str s).nbytes = s.nbytes := rfl
@[simp] theorem outWrite_nodes (str : Bits) : (outWrite str s).nodes = s.nodes := rfl
@[simp] theorem outWrite_root (str : Bits) : (outWrite str s).root = s.root := rfl
@[simp] theorem outWrite_pq (str : Bits) : (outWrite str s).pq = s.pq := rfl
@[simp] theorem outWrite_code (str : Bits) : (outWrite str s).code = s.code := rfl
@[simp] theorem outWrite_cur (str : Bits) : (outWrite str s).cur = s.cur := rfl
@[simp] theorem outWrite_status (str : Bits) : (outWrite str s).status = s.status := rfl
@[simp] theorem outWrite_cmd (str : Bits) : (outWrite str s).cmd = s.cmd := rfl
@[simp] theorem outWrite_errInfo (str : Bits) : (outWrite str s).errInfo = s.errInfo := rfl
@[simp] theorem outWrite_bitsIn (str : Bits) : (outWrite str s).bitsIn = s.bitsIn := rfl
@[simp] theorem outWrite_bitsOut (str : Bits) : (outWrite str s).bitsOut = s.bitsOut + BitVec.ofNat 32 str.length := rfl
@[simp] theorem outWrite_tblAddr (str : Bits) : (outWrite str s).tblAddr = s.tblAddr := rfl
@[simp] theorem outWrite_inData (str : Bits) : (outWrite str s).inData = s.inData := rfl
@[simp] theorem outWrite_inPos (str : Bits) : (outWrite str s).inPos = s.inPos := rfl
@[simp] theorem outWrite_out (str : Bits) : (outWrite str s).out = s.out ++ str := rfl
@[simp] theorem outWrite_token (str : Bits) : (outWrite str s).token = s.token := rfl
@[simp] theorem outWrite_lag (str : Bits) : (outWrite str s).lag = s.lag := rfl
@[simp] theorem outWrite_lateInput (str : Bits) : (outWrite str s).lateInput = s.lateInput := rfl
@[simp] theorem outWrite_hostOps (str : Bits) : (outWrite str s).hostOps = s.hostOps := rfl
@[simp] theorem outWrite_hostReads (str : Bits) : (outWrite str s).hostReads = s.hostReads := rfl
@[simp] theorem outWrite_draws (str : Bits) : (outWrite str s).draws = s.draws := rfl

/-! ### After OutClose (20_memory.md R49) -/

@[simp] theorem outClose_params : (outClose s).params = s.params := rfl
@[simp] theorem outClose_freq : (outClose s).freq = s.freq := rfl
@[simp] theorem outClose_nbytes : (outClose s).nbytes = s.nbytes := rfl
@[simp] theorem outClose_nodes : (outClose s).nodes = s.nodes := rfl
@[simp] theorem outClose_root : (outClose s).root = s.root := rfl
@[simp] theorem outClose_pq : (outClose s).pq = s.pq := rfl
@[simp] theorem outClose_code : (outClose s).code = s.code := rfl
@[simp] theorem outClose_cur : (outClose s).cur = s.cur := rfl
@[simp] theorem outClose_status : (outClose s).status = { s.status with outClosed := true } := rfl
@[simp] theorem outClose_cmd : (outClose s).cmd = s.cmd := rfl
@[simp] theorem outClose_errInfo : (outClose s).errInfo = s.errInfo := rfl
@[simp] theorem outClose_bitsIn : (outClose s).bitsIn = s.bitsIn := rfl
@[simp] theorem outClose_bitsOut :
    (outClose s).bitsOut = s.bitsOut + BitVec.ofNat 32 (List.replicate (padLength s.out.length) false).length := rfl
@[simp] theorem outClose_tblAddr : (outClose s).tblAddr = s.tblAddr := rfl
@[simp] theorem outClose_inData : (outClose s).inData = s.inData := rfl
@[simp] theorem outClose_inPos : (outClose s).inPos = s.inPos := rfl
@[simp] theorem outClose_out : (outClose s).out = s.out ++ List.replicate (padLength s.out.length) false := rfl
@[simp] theorem outClose_token : (outClose s).token = s.token := rfl
@[simp] theorem outClose_lag : (outClose s).lag = s.lag := rfl
@[simp] theorem outClose_lateInput : (outClose s).lateInput = s.lateInput := rfl
@[simp] theorem outClose_hostOps : (outClose s).hostOps = s.hostOps := rfl
@[simp] theorem outClose_hostReads : (outClose s).hostReads = s.hostReads := rfl
@[simp] theorem outClose_draws : (outClose s).draws = s.draws := rfl

/-! ### After recording a fault (60_exceptions.md R119) -/

@[simp] theorem recordFault_params (c : ErrCode) (info : Word) : (recordFault c info s).params = s.params := rfl
@[simp] theorem recordFault_freq (c : ErrCode) (info : Word) : (recordFault c info s).freq = s.freq := rfl
@[simp] theorem recordFault_nbytes (c : ErrCode) (info : Word) : (recordFault c info s).nbytes = s.nbytes := rfl
@[simp] theorem recordFault_nodes (c : ErrCode) (info : Word) : (recordFault c info s).nodes = s.nodes := rfl
@[simp] theorem recordFault_root (c : ErrCode) (info : Word) : (recordFault c info s).root = s.root := rfl
@[simp] theorem recordFault_pq (c : ErrCode) (info : Word) : (recordFault c info s).pq = s.pq := rfl
@[simp] theorem recordFault_code (c : ErrCode) (info : Word) : (recordFault c info s).code = s.code := rfl
@[simp] theorem recordFault_cur (c : ErrCode) (info : Word) : (recordFault c info s).cur = s.cur := rfl
@[simp] theorem recordFault_status (c : ErrCode) (info : Word) :
    (recordFault c info s).status = { s.status with err := c, busy := false } := rfl
@[simp] theorem recordFault_cmd (c : ErrCode) (info : Word) : (recordFault c info s).cmd = s.cmd := rfl
@[simp] theorem recordFault_errInfo (c : ErrCode) (info : Word) : (recordFault c info s).errInfo = info := rfl
@[simp] theorem recordFault_bitsIn (c : ErrCode) (info : Word) : (recordFault c info s).bitsIn = s.bitsIn := rfl
@[simp] theorem recordFault_bitsOut (c : ErrCode) (info : Word) : (recordFault c info s).bitsOut = s.bitsOut := rfl
@[simp] theorem recordFault_tblAddr (c : ErrCode) (info : Word) : (recordFault c info s).tblAddr = s.tblAddr := rfl
@[simp] theorem recordFault_inData (c : ErrCode) (info : Word) : (recordFault c info s).inData = s.inData := rfl
@[simp] theorem recordFault_inPos (c : ErrCode) (info : Word) : (recordFault c info s).inPos = s.inPos := rfl
@[simp] theorem recordFault_out (c : ErrCode) (info : Word) : (recordFault c info s).out = s.out := rfl
@[simp] theorem recordFault_token (c : ErrCode) (info : Word) : (recordFault c info s).token = s.token := rfl
@[simp] theorem recordFault_lag (c : ErrCode) (info : Word) : (recordFault c info s).lag = s.lag := rfl
@[simp] theorem recordFault_lateInput (c : ErrCode) (info : Word) : (recordFault c info s).lateInput = s.lateInput := rfl
@[simp] theorem recordFault_hostOps (c : ErrCode) (info : Word) : (recordFault c info s).hostOps = s.hostOps := rfl
@[simp] theorem recordFault_hostReads (c : ErrCode) (info : Word) :
    (recordFault c info s).hostReads = s.hostReads := rfl
@[simp] theorem recordFault_draws (c : ErrCode) (info : Word) : (recordFault c info s).draws = s.draws := rfl

/-! ### After completion (40_control.md R80) -/

@[simp] theorem complete_params : (complete s).params = s.params := rfl
@[simp] theorem complete_freq : (complete s).freq = s.freq := rfl
@[simp] theorem complete_nbytes : (complete s).nbytes = s.nbytes := rfl
@[simp] theorem complete_nodes : (complete s).nodes = s.nodes := rfl
@[simp] theorem complete_root : (complete s).root = s.root := rfl
@[simp] theorem complete_pq : (complete s).pq = s.pq := rfl
@[simp] theorem complete_code : (complete s).code = s.code := rfl
@[simp] theorem complete_cur : (complete s).cur = s.cur := rfl
@[simp] theorem complete_status : (complete s).status = { s.status with done := true, busy := false } := rfl
@[simp] theorem complete_cmd : (complete s).cmd = s.cmd := rfl
@[simp] theorem complete_errInfo : (complete s).errInfo = s.errInfo := rfl
@[simp] theorem complete_bitsIn : (complete s).bitsIn = s.bitsIn := rfl
@[simp] theorem complete_bitsOut : (complete s).bitsOut = s.bitsOut := rfl
@[simp] theorem complete_tblAddr : (complete s).tblAddr = s.tblAddr := rfl
@[simp] theorem complete_inData : (complete s).inData = s.inData := rfl
@[simp] theorem complete_inPos : (complete s).inPos = s.inPos := rfl
@[simp] theorem complete_out : (complete s).out = s.out := rfl
@[simp] theorem complete_token : (complete s).token = s.token := rfl
@[simp] theorem complete_lag : (complete s).lag = s.lag := rfl
@[simp] theorem complete_lateInput : (complete s).lateInput = s.lateInput := rfl
@[simp] theorem complete_hostOps : (complete s).hostOps = s.hostOps := rfl
@[simp] theorem complete_hostReads : (complete s).hostReads = s.hostReads := rfl
@[simp] theorem complete_draws : (complete s).draws = s.draws := rfl

/-! ### After acceptance (40_control.md R80) -/

@[simp] theorem accept_params (op : Op) : (accept op s).params = s.params := rfl
@[simp] theorem accept_freq (op : Op) : (accept op s).freq = s.freq := rfl
@[simp] theorem accept_nbytes (op : Op) : (accept op s).nbytes = s.nbytes := rfl
@[simp] theorem accept_nodes (op : Op) : (accept op s).nodes = s.nodes := rfl
@[simp] theorem accept_root (op : Op) : (accept op s).root = s.root := rfl
@[simp] theorem accept_pq (op : Op) : (accept op s).pq = s.pq := rfl
@[simp] theorem accept_code (op : Op) : (accept op s).code = s.code := rfl
@[simp] theorem accept_cur (op : Op) : (accept op s).cur = s.cur := rfl
@[simp] theorem accept_status (op : Op) : (accept op s).status = { s.status with done := false, busy := true } := rfl
@[simp] theorem accept_cmd (op : Op) : (accept op s).cmd = op.word := rfl
@[simp] theorem accept_errInfo (op : Op) : (accept op s).errInfo = s.errInfo := rfl
@[simp] theorem accept_bitsIn (op : Op) : (accept op s).bitsIn = s.bitsIn := rfl
@[simp] theorem accept_bitsOut (op : Op) : (accept op s).bitsOut = s.bitsOut := rfl
@[simp] theorem accept_tblAddr (op : Op) : (accept op s).tblAddr = s.tblAddr := rfl
@[simp] theorem accept_inData (op : Op) : (accept op s).inData = s.inData := rfl
@[simp] theorem accept_inPos (op : Op) : (accept op s).inPos = s.inPos := rfl
@[simp] theorem accept_out (op : Op) : (accept op s).out = s.out := rfl
@[simp] theorem accept_token (op : Op) : (accept op s).token = s.token := rfl
@[simp] theorem accept_lag (op : Op) : (accept op s).lag = s.lag := rfl
@[simp] theorem accept_lateInput (op : Op) : (accept op s).lateInput = s.lateInput := rfl
@[simp] theorem accept_hostOps (op : Op) : (accept op s).hostOps = s.hostOps := rfl
@[simp] theorem accept_hostReads (op : Op) : (accept op s).hostReads = s.hostReads := rfl
@[simp] theorem accept_draws (op : Op) : (accept op s).draws = s.draws := rfl

/-! ### After an illegal word (60_exceptions.md R120) -/

@[simp] theorem recordIllegal_params (w : Word) : (recordIllegal w s).params = s.params := rfl
@[simp] theorem recordIllegal_freq (w : Word) : (recordIllegal w s).freq = s.freq := rfl
@[simp] theorem recordIllegal_nbytes (w : Word) : (recordIllegal w s).nbytes = s.nbytes := rfl
@[simp] theorem recordIllegal_nodes (w : Word) : (recordIllegal w s).nodes = s.nodes := rfl
@[simp] theorem recordIllegal_root (w : Word) : (recordIllegal w s).root = s.root := rfl
@[simp] theorem recordIllegal_pq (w : Word) : (recordIllegal w s).pq = s.pq := rfl
@[simp] theorem recordIllegal_code (w : Word) : (recordIllegal w s).code = s.code := rfl
@[simp] theorem recordIllegal_cur (w : Word) : (recordIllegal w s).cur = s.cur := rfl
@[simp] theorem recordIllegal_status (w : Word) :
    (recordIllegal w s).status = { s.status with err := .illegalCmd, done := false } := rfl
@[simp] theorem recordIllegal_cmd (w : Word) : (recordIllegal w s).cmd = s.cmd := rfl
@[simp] theorem recordIllegal_errInfo (w : Word) : (recordIllegal w s).errInfo = w := rfl
@[simp] theorem recordIllegal_bitsIn (w : Word) : (recordIllegal w s).bitsIn = s.bitsIn := rfl
@[simp] theorem recordIllegal_bitsOut (w : Word) : (recordIllegal w s).bitsOut = s.bitsOut := rfl
@[simp] theorem recordIllegal_tblAddr (w : Word) : (recordIllegal w s).tblAddr = s.tblAddr := rfl
@[simp] theorem recordIllegal_inData (w : Word) : (recordIllegal w s).inData = s.inData := rfl
@[simp] theorem recordIllegal_inPos (w : Word) : (recordIllegal w s).inPos = s.inPos := rfl
@[simp] theorem recordIllegal_out (w : Word) : (recordIllegal w s).out = s.out := rfl
@[simp] theorem recordIllegal_token (w : Word) : (recordIllegal w s).token = s.token := rfl
@[simp] theorem recordIllegal_lag (w : Word) : (recordIllegal w s).lag = s.lag := rfl
@[simp] theorem recordIllegal_lateInput (w : Word) : (recordIllegal w s).lateInput = s.lateInput := rfl
@[simp] theorem recordIllegal_hostOps (w : Word) : (recordIllegal w s).hostOps = s.hostOps := rfl
@[simp] theorem recordIllegal_hostReads (w : Word) : (recordIllegal w s).hostReads = s.hostReads := rfl
@[simp] theorem recordIllegal_draws (w : Word) : (recordIllegal w s).draws = s.draws := rfl

/-! ### After a dropped word (40_control.md R80) -/

@[simp] theorem dropBusy_params : (dropBusy s).params = s.params := rfl
@[simp] theorem dropBusy_freq : (dropBusy s).freq = s.freq := rfl
@[simp] theorem dropBusy_nbytes : (dropBusy s).nbytes = s.nbytes := rfl
@[simp] theorem dropBusy_nodes : (dropBusy s).nodes = s.nodes := rfl
@[simp] theorem dropBusy_root : (dropBusy s).root = s.root := rfl
@[simp] theorem dropBusy_pq : (dropBusy s).pq = s.pq := rfl
@[simp] theorem dropBusy_code : (dropBusy s).code = s.code := rfl
@[simp] theorem dropBusy_cur : (dropBusy s).cur = s.cur := rfl
@[simp] theorem dropBusy_status : (dropBusy s).status = { s.status with ovr := true } := rfl
@[simp] theorem dropBusy_cmd : (dropBusy s).cmd = s.cmd := rfl
@[simp] theorem dropBusy_errInfo : (dropBusy s).errInfo = s.errInfo := rfl
@[simp] theorem dropBusy_bitsIn : (dropBusy s).bitsIn = s.bitsIn := rfl
@[simp] theorem dropBusy_bitsOut : (dropBusy s).bitsOut = s.bitsOut := rfl
@[simp] theorem dropBusy_tblAddr : (dropBusy s).tblAddr = s.tblAddr := rfl
@[simp] theorem dropBusy_inData : (dropBusy s).inData = s.inData := rfl
@[simp] theorem dropBusy_inPos : (dropBusy s).inPos = s.inPos := rfl
@[simp] theorem dropBusy_out : (dropBusy s).out = s.out := rfl
@[simp] theorem dropBusy_token : (dropBusy s).token = s.token := rfl
@[simp] theorem dropBusy_lag : (dropBusy s).lag = s.lag := rfl
@[simp] theorem dropBusy_lateInput : (dropBusy s).lateInput = s.lateInput := rfl
@[simp] theorem dropBusy_hostOps : (dropBusy s).hostOps = s.hostOps := rfl
@[simp] theorem dropBusy_hostReads : (dropBusy s).hostReads = s.hostReads := rfl
@[simp] theorem dropBusy_draws : (dropBusy s).draws = s.draws := rfl

/-! ### After CLEAR (40_control.md R84) -/

@[simp] theorem clearBlock_params : (clearBlock s).params = s.params := rfl
@[simp] theorem clearBlock_freq : (clearBlock s).freq = Table.fill 256 0 := rfl
@[simp] theorem clearBlock_nbytes : (clearBlock s).nbytes = 0 := rfl
@[simp] theorem clearBlock_nodes : (clearBlock s).nodes = [] := rfl
@[simp] theorem clearBlock_root : (clearBlock s).root = 0 := rfl
@[simp] theorem clearBlock_pq : (clearBlock s).pq = [] := rfl
@[simp] theorem clearBlock_code : (clearBlock s).code = Table.fill 257 CodeEntry.unset := rfl
@[simp] theorem clearBlock_cur : (clearBlock s).cur = 0 := rfl
@[simp] theorem clearBlock_status :
    (clearBlock s).status = { Status.reset with busy := s.status.busy, done := s.status.done } := rfl
@[simp] theorem clearBlock_cmd : (clearBlock s).cmd = s.cmd := rfl
@[simp] theorem clearBlock_errInfo : (clearBlock s).errInfo = 0#32 := rfl
@[simp] theorem clearBlock_bitsIn : (clearBlock s).bitsIn = 0#32 := rfl
@[simp] theorem clearBlock_bitsOut : (clearBlock s).bitsOut = 0#32 := rfl
@[simp] theorem clearBlock_tblAddr : (clearBlock s).tblAddr = 0#32 := rfl
@[simp] theorem clearBlock_inData : (clearBlock s).inData = s.inData := rfl
@[simp] theorem clearBlock_inPos : (clearBlock s).inPos = s.inPos := rfl
@[simp] theorem clearBlock_out : (clearBlock s).out = [] := rfl
@[simp] theorem clearBlock_token : (clearBlock s).token = s.token := rfl
@[simp] theorem clearBlock_lag : (clearBlock s).lag = s.lag := rfl
@[simp] theorem clearBlock_lateInput : (clearBlock s).lateInput = s.lateInput := rfl
@[simp] theorem clearBlock_hostOps : (clearBlock s).hostOps = s.hostOps := rfl
@[simp] theorem clearBlock_hostReads : (clearBlock s).hostReads = s.hostReads := rfl
@[simp] theorem clearBlock_draws : (clearBlock s).draws = s.draws := rfl

/-! ### After the zeroing for a reader of the input (40_control.md R80) -/

@[simp] theorem startReading_params (op : Op) : (startReading op s).params = s.params := by
  unfold startReading; split <;> rfl
@[simp] theorem startReading_freq (op : Op) : (startReading op s).freq = s.freq := by
  unfold startReading; split <;> rfl
@[simp] theorem startReading_nbytes (op : Op) : (startReading op s).nbytes = s.nbytes := by
  unfold startReading; split <;> rfl
@[simp] theorem startReading_nodes (op : Op) : (startReading op s).nodes = s.nodes := by
  unfold startReading; split <;> rfl
@[simp] theorem startReading_root (op : Op) : (startReading op s).root = s.root := by
  unfold startReading; split <;> rfl
@[simp] theorem startReading_pq (op : Op) : (startReading op s).pq = s.pq := by
  unfold startReading; split <;> rfl
@[simp] theorem startReading_code (op : Op) : (startReading op s).code = s.code := by
  unfold startReading; split <;> rfl
@[simp] theorem startReading_cur (op : Op) : (startReading op s).cur = s.cur := by
  unfold startReading; split <;> rfl
@[simp] theorem startReading_status (op : Op) :
    (startReading op s).status = if readsInput op then { s.status with eos := false } else s.status := by
  unfold startReading; split <;> rfl
@[simp] theorem startReading_cmd (op : Op) : (startReading op s).cmd = s.cmd := by
  unfold startReading; split <;> rfl
@[simp] theorem startReading_errInfo (op : Op) : (startReading op s).errInfo = s.errInfo := by
  unfold startReading; split <;> rfl
@[simp] theorem startReading_bitsIn (op : Op) :
    (startReading op s).bitsIn = if readsInput op then 0#32 else s.bitsIn := by
  unfold startReading; split <;> rfl
@[simp] theorem startReading_bitsOut (op : Op) : (startReading op s).bitsOut = s.bitsOut := by
  unfold startReading; split <;> rfl
@[simp] theorem startReading_tblAddr (op : Op) : (startReading op s).tblAddr = s.tblAddr := by
  unfold startReading; split <;> rfl
@[simp] theorem startReading_inData (op : Op) : (startReading op s).inData = s.inData := by
  unfold startReading; split <;> rfl
@[simp] theorem startReading_inPos (op : Op) : (startReading op s).inPos = s.inPos := by
  unfold startReading; split <;> rfl
@[simp] theorem startReading_out (op : Op) : (startReading op s).out = s.out := by
  unfold startReading; split <;> rfl
@[simp] theorem startReading_token (op : Op) : (startReading op s).token = s.token := by
  unfold startReading; split <;> rfl
@[simp] theorem startReading_lag (op : Op) : (startReading op s).lag = s.lag := by
  unfold startReading; split <;> rfl
@[simp] theorem startReading_lateInput (op : Op) : (startReading op s).lateInput = s.lateInput := by
  unfold startReading; split <;> rfl
@[simp] theorem startReading_hostOps (op : Op) : (startReading op s).hostOps = s.hostOps := by
  unfold startReading; split <;> rfl
@[simp] theorem startReading_hostReads (op : Op) : (startReading op s).hostReads = s.hostReads := by
  unfold startReading; split <;> rfl
@[simp] theorem startReading_draws (op : Op) : (startReading op s).draws = s.draws := by
  unfold startReading; split <;> rfl

/-! ### After InRead (20_memory.md R44): the fields it never changes -/

@[simp] theorem inRead_params (n : Nat) : (inRead n s).2.params = s.params := by
  unfold inRead; split <;> rfl
@[simp] theorem inRead_freq (n : Nat) : (inRead n s).2.freq = s.freq := by
  unfold inRead; split <;> rfl
@[simp] theorem inRead_nbytes (n : Nat) : (inRead n s).2.nbytes = s.nbytes := by
  unfold inRead; split <;> rfl
@[simp] theorem inRead_nodes (n : Nat) : (inRead n s).2.nodes = s.nodes := by
  unfold inRead; split <;> rfl
@[simp] theorem inRead_root (n : Nat) : (inRead n s).2.root = s.root := by
  unfold inRead; split <;> rfl
@[simp] theorem inRead_pq (n : Nat) : (inRead n s).2.pq = s.pq := by
  unfold inRead; split <;> rfl
@[simp] theorem inRead_code (n : Nat) : (inRead n s).2.code = s.code := by
  unfold inRead; split <;> rfl
@[simp] theorem inRead_cur (n : Nat) : (inRead n s).2.cur = s.cur := by
  unfold inRead; split <;> rfl
@[simp] theorem inRead_cmd (n : Nat) : (inRead n s).2.cmd = s.cmd := by
  unfold inRead; split <;> rfl
@[simp] theorem inRead_errInfo (n : Nat) : (inRead n s).2.errInfo = s.errInfo := by
  unfold inRead; split <;> rfl
@[simp] theorem inRead_bitsOut (n : Nat) : (inRead n s).2.bitsOut = s.bitsOut := by
  unfold inRead; split <;> rfl
@[simp] theorem inRead_tblAddr (n : Nat) : (inRead n s).2.tblAddr = s.tblAddr := by
  unfold inRead; split <;> rfl
@[simp] theorem inRead_inData (n : Nat) : (inRead n s).2.inData = s.inData := by
  unfold inRead; split <;> rfl
@[simp] theorem inRead_out (n : Nat) : (inRead n s).2.out = s.out := by
  unfold inRead; split <;> rfl
@[simp] theorem inRead_token (n : Nat) : (inRead n s).2.token = s.token := by
  unfold inRead; split <;> rfl
@[simp] theorem inRead_lag (n : Nat) : (inRead n s).2.lag = s.lag := by
  unfold inRead; split <;> rfl
@[simp] theorem inRead_lateInput (n : Nat) : (inRead n s).2.lateInput = s.lateInput := by
  unfold inRead; split <;> rfl
@[simp] theorem inRead_hostOps (n : Nat) : (inRead n s).2.hostOps = s.hostOps := by
  unfold inRead; split <;> rfl
@[simp] theorem inRead_hostReads (n : Nat) : (inRead n s).2.hostReads = s.hostReads := by
  unfold inRead; split <;> rfl
@[simp] theorem inRead_draws (n : Nat) : (inRead n s).2.draws = s.draws := by
  unfold inRead; split <;> rfl

end Sys2Proof.Machine
end

