-- ==== Sys2Proof/Laws/Ops.lean ====
section
/-! SUPPORT. For each shared operation, once, everything it can do. -/

namespace Sys2Proof.Machine

/-! ### One after another -/

@[simp] theorem Run.bind_ok {α β : Type} (a : α) (s : State) (f : α → State → Run β) : (Run.ok a s).bind f = f a s := rfl

@[simp] theorem Run.bind_raised {α β : Type} (c : ErrCode) (w : Word) (s : State) (f : α → State → Run β) :
    (Run.raised c w s).bind f = .raised c w s := rfl

@[simp] theorem Run.bind_stuck {α β : Type} (e : Fault) (f : α → State → Run β) :
    (Run.stuck e : Run α).bind f = .stuck e := rfl

theorem Run.bind_eq_ok {α β : Type} {r : Run α} {f : α → State → Run β} {b : β} {t : State} :
    r.bind f = .ok b t ↔ ∃ a u, r = .ok a u ∧ f a u = .ok b t := by
  cases r <;> simp [Run.bind]

theorem Run.bind_eq_raised {α β : Type} {r : Run α} {f : α → State → Run β} {c : ErrCode} {w : Word} {t : State} :
    r.bind f = .raised c w t ↔ r = .raised c w t ∨ ∃ a u, r = .ok a u ∧ f a u = .raised c w t := by
  cases r <;> simp [Run.bind]

theorem Run.bind_eq_stuck {α β : Type} {r : Run α} {f : α → State → Run β} {e : Fault} :
    r.bind f = .stuck e ↔ r = .stuck e ∨ ∃ a u, r = .ok a u ∧ f a u = .stuck e := by
  cases r <;> simp [Run.bind]

/-- Every state a run ends in, completed or raised, has the property; where it is stuck there is none. -/
def Run.Ends {α : Type} (P : State → Prop) : Run α → Prop
  | .ok _ s => P s
  | .raised _ _ s => P s
  | .stuck _ => True

theorem Run.Ends.bind {α β : Type} {P : State → Prop} {r : Run α} {f : α → State → Run β} (h : r.Ends P)
    (hf : ∀ a s, P s → (f a s).Ends P) : (r.bind f).Ends P := by
  cases r with
  | ok a s => exact hf a s h
  | raised c w s => exact h
  | stuck e => trivial

theorem Run.Ends.mono {α : Type} {P Q : State → Prop} {r : Run α} (h : r.Ends P) (hpq : ∀ s, P s → Q s) : r.Ends Q := by
  cases r with
  | ok a s => exact hpq s h
  | raised c w s => exact hpq s h
  | stuck e => trivial

theorem Run.Ends.closing {α : Type} {P Q : State → Prop} {r : Run α} {close : State → State} (h : r.Ends P)
    (hc : ∀ s, P s → Q (close s)) : (r.closing close).Ends Q := by
  cases r with
  | ok a s => exact hc s h
  | raised c w s => exact hc s h
  | stuck e => trivial

/-! ### A command's end, and the offering of a command (40_control.md R80) -/

theorem settle_eq_next {r : Run Unit} {t : State} :
    settle r = .next t ↔ (∃ u, r = .ok () u ∧ t = complete u) ∨ ∃ c w u, r = .raised c w u ∧ t = recordFault c w u := by
  cases r <;> simp [settle, eq_comm]

theorem settle_ne_refused {r : Run Unit} {e : Refusal} : settle r ≠ .refused e := by cases r <;> simp [settle]

theorem settle_eq_fault {r : Run Unit} {e : Fault} : settle r = .fault e ↔ r = .stuck e := by cases r <;> simp [settle]

theorem settle_ends {P Q : State → Prop} {r : Run Unit} {t : State} (h : settle r = .next t) (hr : r.Ends P)
    (hok : ∀ u, P u → Q (complete u)) (hraised : ∀ c w u, P u → Q (recordFault c w u)) : Q t := by
  rcases settle_eq_next.mp h with ⟨u, rfl, rfl⟩ | ⟨c, w, u, rfl, rfl⟩
  · exact hok u hr
  · exact hraised c w u hr

/-- Everything offering a command can do: dropped while busy, dropped under an error, SEQUENCE, or the body run to its end. -/
theorem command_cases (op : Op) (body : State → Run Unit) (s : State) :
    (s.status.busy = true ∧ command op body s = .next (dropBusy s)) ∨
    (s.status.busy = false ∧ s.status.err ≠ ErrCode.none ∧ s.status.acceptsUnderError op = false ∧
      command op body s = .next s) ∨
    (s.status.busy = false ∧ (s.status.err = ErrCode.none ∨ s.status.acceptsUnderError op = true) ∧
      preHolds op s.status = false ∧
      command op body s = .next (recordFault .sequence op.word (accept op s))) ∨
    (s.status.busy = false ∧ (s.status.err = ErrCode.none ∨ s.status.acceptsUnderError op = true) ∧
      preHolds op s.status = true ∧
      command op body s = settle (body (startReading op (accept op s)))) := by
  have pre : preHolds op (accept op s).status = preHolds op s.status := by cases op <;> rfl
  unfold command runAccepted
  by_cases hb : s.status.busy
  · exact .inl ⟨hb, if_pos hb⟩
  · rw [if_neg hb, pre]
    have hb' : s.status.busy = false := by simpa using hb
    by_cases he : s.status.err ≠ .none ∧ s.status.acceptsUnderError op = false
    · exact .inr (.inl ⟨hb', he.1, he.2, if_pos he⟩)
    · rw [if_neg he]
      have he' : s.status.err = ErrCode.none ∨ s.status.acceptsUnderError op = true := by
        by_cases h : s.status.err = .none
        · exact .inl h
        · exact .inr (by simpa [h] using he)
      by_cases hp : preHolds op s.status
      · exact .inr (.inr (.inr ⟨hb', he', hp, by rw [if_pos hp]⟩))
      · exact .inr (.inr (.inl ⟨hb', he', by simpa using hp, by rw [if_neg hp]; rfl⟩))

/-- A command whose precondition holds, offered to a ready block, runs its body to its end. -/
theorem command_of_ready {op : Op} {body : State → Run Unit} {s : State} (h : s.Ready) (hp : preHolds op s.status = true) :
    command op body s = settle (body (startReading op (accept op s))) := by
  rcases command_cases op body s with ⟨hb, _⟩ | ⟨_, he, _⟩ | ⟨_, _, hn, _⟩ | ⟨_, _, _, e⟩
  · simp [h.1] at hb
  · exact absurd h.2 he
  · simp [hp] at hn
  · exact e

theorem command_ne_refused (op : Op) (body : State → Run Unit) (s : State) (e : Refusal) :
    command op body s ≠ .refused e := by
  rcases command_cases op body s with ⟨_, h⟩ | ⟨_, _, _, h⟩ | ⟨_, _, _, h⟩ | ⟨_, _, _, h⟩ <;> rw [h]
  · simp
  · simp
  · simp
  · exact settle_ne_refused

/-- A property that dropping, acceptance and the two ends keep, and the body too, holds of every next state of a command. -/
theorem command_ends {P : State → Prop} {op : Op} {body : State → Run Unit} {s t : State} (h : command op body s = .next t)
    (hs : P s) (hdrop : P (dropBusy s)) (haccept : P (accept op s)) (hstart : P (startReading op (accept op s)))
    (hbody : ∀ u, P u → (body u).Ends P) (hok : ∀ u, P u → P (complete u))
    (hraised : ∀ c w u, P u → P (recordFault c w u)) : P t := by
  rcases command_cases op body s with ⟨_, e⟩ | ⟨_, _, _, e⟩ | ⟨_, _, _, e⟩ | ⟨_, _, _, e⟩ <;> rw [e] at h
  · cases h; exact hdrop
  · cases h; exact hs
  · cases h; exact hraised _ _ _ haccept
  · exact settle_ends h (hbody _ hstart) hok hraised

/-- Pre(OP) as 40_control.md R81 states it. -/
theorem preHolds_iff (op : Op) (f : Status) : preHolds op f = true ↔ commandNeeds f op := by
  cases op <;> simp [preHolds, commandNeeds]

/-! ### The ports (20_memory.md R44 to R49) -/

/-- Everything InRead can do. -/
theorem inRead_cases (n : Nat) (s : State) :
    (s.inPos + n ≤ 8 * s.inData.length ∧
      inRead n s = (some (num (inField s.inData s.inPos n)),
        { s with inPos := s.inPos + n, bitsIn := s.bitsIn + BitVec.ofNat 32 n })) ∨
    (8 * s.inData.length < s.inPos + n ∧
      inRead n s = (none, { s with inPos := 8 * s.inData.length, status := { s.status with eos := true } })) := by
  unfold inRead
  split
  · exact .inl ⟨‹_›, rfl⟩
  · exact .inr ⟨by omega, rfl⟩

theorem inBits_length (s : State) : s.inBits.length = 8 * s.inData.length - s.inPos := by simp [State.inBits]

/-- InRead of the first bits of what is left. -/
theorem inRead_of_inBits {s : State} {bits rest : Bits} (hp : s.inPos ≤ 8 * s.inData.length)
    (h : s.inBits = bits ++ rest) :
    inRead bits.length s = (some (num bits),
      { s with inPos := s.inPos + bits.length, bitsIn := s.bitsIn + BitVec.ofNat 32 bits.length }) := by
  have hl := inBits_length s
  rw [h, List.length_append] at hl
  have field : inField s.inData s.inPos bits.length = bits := by
    rw [← inField_take s.inData s.inPos (n := 8 * s.inData.length - s.inPos) (by omega),
      show inField s.inData s.inPos (8 * s.inData.length - s.inPos) = bits ++ rest from h]
    simp
  rcases inRead_cases bits.length s with ⟨_, e⟩ | ⟨hlt, _⟩
  · rw [e, field]
  · omega

/-- What is left after InRead. -/
theorem inBits_after {s : State} {bits rest : Bits} (h : s.inBits = bits ++ rest) (t : State)
    (hd : t.inData = s.inData) (hpos : t.inPos = s.inPos + bits.length) : t.inBits = rest := by
  have hl := inBits_length s
  rw [h, List.length_append] at hl
  have e : (s.inBits).drop bits.length = rest := by rw [h]; simp
  rw [← e, State.inBits, State.inBits, inField_drop _ _ (by omega), hd, hpos]
  congr 1
  omega

/-- InRead of more bits than are left answers END. -/
theorem inRead_end {n : Nat} {s : State} (h : s.inBits.length < n) :
    inRead n s = (none, { s with inPos := 8 * s.inData.length, status := { s.status with eos := true } }) := by
  rw [inBits_length] at h
  rcases inRead_cases n s with ⟨hle, _⟩ | ⟨_, e⟩
  · omega
  · exact e

/-- InRead keeps the position in the data. -/
theorem inRead_in_range (n : Nat) (s : State) : (inRead n s).2.inPos ≤ 8 * (inRead n s).2.inData.length := by
  rcases inRead_cases n s with ⟨hle, e⟩ | ⟨_, e⟩ <;> simp [*]

/-- Everything binding the input port can do (70_reset_and_hazards.md R141). -/
theorem bindInput_cases (data : List Byte) (late : Bool) (s : State) :
    (s.status.busy = true ∧ (late = true ∨ s.lateInput ≠ none) ∧ bindInput data late s = { s with lateInput := some data }) ∨
    ((s.status.busy = false ∨ (late = false ∧ s.lateInput = none)) ∧
      bindInput data late s = { s with inData := data, inPos := 0 }) := by
  unfold bindInput
  cases s.status.busy <;> cases late <;> cases s.lateInput <;> simp

@[simp] theorem secondPass_of_none {s : State} (h : s.lateInput = none) : s.secondPass = s.inData := by
  simp [State.secondPass, h]

/-- A rewind, and the end of a command, leave what the port presents from a rewind on. -/
@[simp] theorem secondPass_inReset (s : State) : (inReset s).secondPass = s.secondPass := rfl

theorem takeLate_eq (s : State) : takeLate s =
    { s with inData := s.secondPass, inPos := if s.lateInput = none then s.inPos else 0, lateInput := none } := by
  obtain ⟨_, _, _, _, _, _, _, _, _, _, _, _, _, _, _, _, late, _, _, _, _, _, _⟩ := s
  cases late <;> rfl

theorem takeLate_of_none {s : State} (h : s.lateInput = none) : takeLate s = s := by
  simp [takeLate, h]

/-- Everything the atomic step of a latched command can be (20_memory.md R57). -/
theorem blockStep_cases (run : Instr → State → Host.Outcome State Fault Refusal) (s : State) :
    ((∃ e, decodeCommand s.cmd = .error e) ∧ blockStep run s = .fault .noCommandLatched) ∨
    ∃ i, decodeCommand s.cmd = .ok i ∧
      ((∃ t, run i { s with status := { s.status with busy := false }, lag := 0 } = .next t ∧
          blockStep run s = .next (takeLate t)) ∨
        (∃ f, run i { s with status := { s.status with busy := false }, lag := 0 } = .fault f ∧ blockStep run s = .fault f) ∨
        ∃ r, run i { s with status := { s.status with busy := false }, lag := 0 } = .refused r ∧
          blockStep run s = .refused r) := by
  unfold blockStep
  cases decodeCommand s.cmd with
  | error e => exact .inl ⟨⟨e, rfl⟩, rfl⟩
  | ok i =>
    refine .inr ⟨i, rfl, ?_⟩
    cases h : run i { s with status := { s.status with busy := false }, lag := 0 } with
    | next t => exact .inl ⟨t, rfl, by simp only [h]⟩
    | fault f => exact .inr (.inl ⟨f, rfl, by simp only [h]⟩)
    | refused r => exact .inr (.inr ⟨r, rfl, by simp only [h]⟩)

/-- After OutClose the output is whole bytes (20_memory.md R49). -/
theorem outClose_aligned (s : State) : (outClose s).out.length % 8 = 0 := by
  simp [add_padLength]

/-! ### Crossing a port -/

/-- Everything passing a token to the output can do. -/
theorem emit_cases (write : State → Run Unit) (s : State) :
    (s.status.outClosed = true ∧ emit write s = .refused .outputClosed) ∨
    (s.status.outClosed = false ∧ ∃ t, write s = .ok () t ∧ emit write s = .next t) ∨
    (s.status.outClosed = false ∧ ∃ c w t, write s = .raised c w t ∧ emit write s = .next (recordFault c w t)) ∨
    (s.status.outClosed = false ∧ ∃ f, write s = .stuck f ∧ emit write s = .fault f) := by
  unfold emit
  cases hc : s.status.outClosed with
  | true => exact .inl ⟨rfl, if_pos rfl⟩
  | false =>
    simp only [Bool.false_eq_true, if_false]
    cases hw : write s with
    | ok a t => exact .inr (.inl ⟨trivial, t, rfl, rfl⟩)
    | raised c w t => exact .inr (.inr (.inl ⟨trivial, c, w, t, rfl, rfl⟩))
    | stuck f => exact .inr (.inr (.inr ⟨trivial, f, rfl, rfl⟩))

/-- Emitting a code: it is appended, or the symbol has none (45_payload_codec.md R105). -/
theorem emitCode_cases (sym : Nat) (s : State) :
    ((s.codeEntry sym).valid = true ∧ emitCode sym s = .ok () (outWrite (s.codeEntry sym).bits s)) ∨
    ((s.codeEntry sym).valid = false ∧ emitCode sym s = .raised .uncodedSymbol (BitVec.ofNat 32 sym) s) := by
  unfold emitCode
  cases (s.codeEntry sym).valid with
  | true => exact .inl ⟨rfl, rfl⟩
  | false => exact .inr ⟨rfl, rfl⟩

/-- Emitting a leaf token is one write of its ten bits (30_encoding.md R71). -/
theorem emitLeaf_eq (v : Nat) (s : State) : emitLeaf v s = outWrite (true :: bitsOf 9 v) s := by
  simp only [emitLeaf, outWrite, List.append_assoc, List.singleton_append, List.length_cons, bitsOf_length, List.length_nil]
  congr 1
  rw [BitVec.add_assoc]
  rfl

/-- Two writes are one (20_memory.md R48). -/
theorem outWrite_outWrite (a b : Bits) (s : State) : outWrite b (outWrite a s) = outWrite (a ++ b) s := by
  simp only [outWrite, List.append_assoc, List.length_append]
  congr 1
  rw [BitVec.add_assoc, BitVec.ofNat_add]

@[simp] theorem outWrite_nil (s : State) : outWrite [] s = s := by
  simp [outWrite]

/-- WR_HEADER's walk is one write of the header (44_header_codec.md R100). -/
theorem ser_eq (t : Tree) (s : State) : ser t s = outWrite t.header s := by
  induction t generalizing s with
  | leaf v => exact emitLeaf_eq v s
  | node l r ihl ihr =>
    rw [ser, ihl, ihr, emitInternal, outWrite_outWrite, outWrite_outWrite, Tree.header]
    simp

/-! ### What each command's meaning is -/

theorem exec_op (op : Op) (s : State) : exec op.instr s = command op
    (match op with
      | .compress => compressBody
      | .decompress => decompressBody
      | op => unclosedBody op) s := by
  cases op <;> rfl

/-! ### The host's side -/

/-- Everything offering a word can do (40_control.md R80, 20_memory.md R57). -/
theorem offer_cases (run : Instr → State → Host.Outcome State Fault Refusal) (w : Word) (lag : Nat) (s : State) :
    (s.status.busy = true ∧ offer run w lag s = .next (dropBusy s)) ∨
    (s.status.busy = false ∧ s.status.err ≠ ErrCode.none ∧
      (∀ op, decodeOp w = .ok op → s.status.acceptsUnderError op = false) ∧ offer run w lag s = .next s) ∨
    (s.status.busy = false ∧ s.status.err = ErrCode.none ∧ (∃ e, decodeOp w = .error e) ∧
      offer run w lag s = .next (recordIllegal w s)) ∨
    (∃ op, s.status.busy = false ∧ decodeOp w = .ok op ∧
      (s.status.err = ErrCode.none ∨ s.status.acceptsUnderError op = true) ∧ lag = 0 ∧ offer run w lag s = run op.instr s) ∨
    (∃ op, s.status.busy = false ∧ decodeOp w = .ok op ∧
      (s.status.err = ErrCode.none ∨ s.status.acceptsUnderError op = true) ∧ lag ≠ 0 ∧
      offer run w lag s = .next { accept op s with lag := lag }) := by
  unfold offer
  cases hb : s.status.busy with
  | true => exact .inl ⟨rfl, rfl⟩
  | false =>
    simp only [Bool.false_eq_true, if_false, false_and, true_and, false_or]
    cases hd : decodeOp w with
    | error e =>
      by_cases he : s.status.err = .none <;> simp [he]
    | ok op =>
      by_cases he : s.status.err = .none
      · by_cases hl : lag = 0 <;> simp [he, hl]
      · cases ha : s.status.acceptsUnderError op with
        | false => simp [he, ha]
        | true => by_cases hl : lag = 0 <;> simp [he, ha, hl]

/-- A read keeps the block and adds one word to what the host has read (20_memory.md R53). -/
theorem memRead_eq (off : Nat) (s : State) :
    ∃ v n, memRead off s = { s with hostReads := v :: s.hostReads, draws := n } ∧
      (s.status.busy = false → v = regValue s off ∧ n = s.draws) := by
  unfold memRead
  cases s.status.busy with
  | true => exact ⟨_, _, rfl, fun h => nomatch h⟩
  | false => exact ⟨_, _, rfl, fun _ => ⟨rfl, rfl⟩⟩

@[simp] theorem memWrite_cmd (run : Instr → State → Host.Outcome State Fault Refusal) (v : Word) (lag : Nat) (s : State) :
    memWrite run 0x00 v lag s = offer run v lag s := rfl

@[simp] theorem memWrite_tblAddr (run : Instr → State → Host.Outcome State Fault Refusal) (v : Word) (lag : Nat)
    (s : State) : memWrite run 0x28 v lag s = .next { s with tblAddr := v &&& tblAddrMask } := rfl

theorem memWrite_other (run : Instr → State → Host.Outcome State Fault Refusal) {off : Nat} (v : Word) (lag : Nat)
    (s : State) (h0 : off ≠ 0x00) (h1 : off ≠ 0x28) : memWrite run off v lag s = .next s := by
  unfold memWrite
  split
  · exact absurd rfl h0
  · exact absurd rfl h1
  · rfl

theorem regOffset_eq_some {p : Params} {addr width off : Nat} :
    regOffset p addr width = some off ↔
      width = 4 ∧ addr = p.regBase + off ∧ off < 256 ∧ off % 4 = 0 := by
  unfold regOffset
  split <;> simp <;> omega

/-- Everything a step can be. -/
theorem step_cases (s : State) :
    (∃ i, s.token = some i ∧ step s = exec i { s with token := none }) ∨
    (s.token = none ∧ s.status.busy = true ∧ (s.lag = 0 ∨ s.hostOps = []) ∧ step s = blockStep exec s) ∨
    (s.token = none ∧ s.status.busy = false ∧ s.hostOps = [] ∧ step s = .next s) ∨
    (∃ op rest, s.token = none ∧ (s.status.busy = true → s.lag ≠ 0) ∧ s.hostOps = op :: rest ∧
      step s = hostStep exec op { s with hostOps := rest, lag := s.lag - 1 }) := by
  unfold step stepWith
  cases ht : s.token with
  | some i => exact .inl ⟨i, rfl, rfl⟩
  | none =>
    cases hb : s.status.busy <;> cases ho : s.hostOps <;> by_cases hl : s.lag = 0 <;> simp [hl]

/-- The decoder and the opcodes agree (30_encoding.md R65). -/
@[simp] theorem decodeOp_word (op : Op) : decodeOp op.word = .ok op := by cases op <;> decide

/-- A word that names a command is that command's word. -/
theorem decodeOp_eq_ok {w : Word} {op : Op} (h : decodeOp w = .ok op) : w = op.word := by
  unfold decodeOp at h
  split at h
  · cases h
  · rename_i hr
    have hw : w = (w.extractLsb' 0 8).zeroExtend 32 := by
      have hz : w.extractLsb' 8 24 = 0#24 := by simpa using hr
      apply BitVec.eq_of_toNat_eq
      have h1 := congrArg BitVec.toNat hz
      simp only [BitVec.extractLsb'_toNat, Nat.shiftRight_eq_div_pow, BitVec.toNat_ofNat] at h1
      simp only [BitVec.toNat_setWidth, BitVec.extractLsb'_toNat, Nat.shiftRight_eq_div_pow]
      have := w.isLt
      omega
    have code : ∀ c : BitVec 8, (opOfCode c).all (fun op => decide (c = op.code)) = true := by decide
    specialize code (w.extractLsb' 0 8)
    split at h
    · rename_i op' hop
      cases h
      rw [hop] at code
      rw [hw, of_decide_eq_true code]
      rfl
    · cases h

end Sys2Proof.Machine
end

