-- ==== Sys2Proof/Laws/PerInstr.lean ====
section
/-! SUPPORT. The per-instruction family CommandWord: which word spells an instruction on the command register. -/

namespace Sys2Proof.Laws.CommandWord

/-- A command's word decodes to it, and no word decodes to a stream token (30_encoding.md R63, R65). -/
def Statement (i : Instr) : Prop :=
  match encodeCommand i with
  | some w => decodeCommand w = .ok i
  | none => ∀ w, decodeCommand w ≠ .ok i

/-- What a word decodes to is a command. -/
theorem isCommand {w : Word} {i : Instr} (h : decodeCommand w = .ok i) : i.op?.isSome = true := by
  unfold decodeCommand at h
  split at h
  · rename_i op _
    cases h
    cases op <;> rfl
  · cases h

theorem nop : Statement .nop := Eq.refl (Except.ok Instr.nop)
theorem clear : Statement .clear := Eq.refl (Except.ok Instr.clear)
theorem count : Statement .count := Eq.refl (Except.ok Instr.count)
theorem build : Statement .build := Eq.refl (Except.ok Instr.build)
theorem derive : Statement .derive := Eq.refl (Except.ok Instr.derive)
theorem wrMagic : Statement .wrMagic := Eq.refl (Except.ok Instr.wrMagic)
theorem wrHeader : Statement .wrHeader := Eq.refl (Except.ok Instr.wrHeader)
theorem encode : Statement .encode := Eq.refl (Except.ok Instr.encode)
theorem closeOut : Statement .closeOut := Eq.refl (Except.ok Instr.closeOut)
theorem rdMagic : Statement .rdMagic := Eq.refl (Except.ok Instr.rdMagic)
theorem rdHeader : Statement .rdHeader := Eq.refl (Except.ok Instr.rdHeader)
theorem decode : Statement .decode := Eq.refl (Except.ok Instr.decode)
theorem compress : Statement .compress := Eq.refl (Except.ok Instr.compress)
theorem decompress : Statement .decompress := Eq.refl (Except.ok Instr.decompress)

theorem magic : Statement .magic := fun _ h => nomatch isCommand h
theorem hdrInternal : Statement .hdrInternal := fun _ h => nomatch isCommand h
theorem hdrLeaf (value : BitVec 9) : Statement (.hdrLeaf value) := fun _ h => nomatch isCommand h
theorem codeWord (sym : BitVec 9) : Statement (.codeWord sym) := fun _ h => nomatch isCommand h
theorem pad (n : Nat) : Statement (.pad n) := fun _ h => nomatch isCommand h
theorem inputUnit (u : Byte) : Statement (.inputUnit u) := fun _ h => nomatch isCommand h

end Sys2Proof.Laws.CommandWord
end

