-- ==== Sys2Proof/Laws/Tree.lean ====
section
/-! SUPPORT. Counting a code tree, and reading one from the node arena. -/

namespace Sys2Proof.Machine

/-- L leaves and L − 1 internal nodes (42_tree_builder.md R94). -/
theorem Tree.size_add_one (t : Tree) : t.size + 1 = 2 * t.leaves.length := by
  induction t with
  | leaf v => rfl
  | node l r ihl ihr => simp only [Tree.size, Tree.leaves, List.length_append]; omega

/-- A header takes one bit a node and nine more a leaf (30_encoding.md R73). -/
theorem Tree.header_length_add_one (t : Tree) : t.header.length + 1 = 11 * t.leaves.length := by
  induction t with
  | leaf v => simp [Tree.header, Tree.leaves]
  | node l r ihl ihr => simp only [Tree.header, Tree.leaves, List.length_cons, List.length_append]; omega

@[simp] theorem Tree.arena_length (base : Nat) (t : Tree) : (t.arena base).length = t.size := by
  induction t generalizing base with
  | leaf v => rfl
  | node l r ihl ihr => simp only [Tree.arena, Tree.size, List.length_cons, List.length_append, ihl, ihr]; omega

@[simp] theorem HeaderCut.arena_length (base : Nat) (c : HeaderCut) : (c.arena base).length = c.size := by
  induction c generalizing base with
  | here => rfl
  | inLeft l ih => simp only [HeaderCut.arena, HeaderCut.size, List.length_cons, ih]; omega
  | inRight l r ih =>
    simp only [HeaderCut.arena, HeaderCut.size, List.length_cons, List.length_append, Tree.arena_length, ih]; omega

/-- More fuel, and more nodes after those there are, leave a tree that was found. -/
theorem treeAt_mono {nodes more : List Node} {fuel extra n : Nat} {t : Tree} (h : treeAt nodes fuel n = some t) :
    treeAt (nodes ++ more) (fuel + extra) n = some t := by
  induction fuel generalizing n t with
  | zero => cases h
  | succ fuel ih =>
    rw [Nat.add_right_comm]
    unfold treeAt at h ⊢
    cases hn : nodes[n]? with
    | none => simp [hn] at h
    | some nd =>
      have hn' : (nodes ++ more)[n]? = some nd := by
        rw [List.getElem?_append_left (List.getElem?_eq_some_iff.mp hn).1, hn]
      rw [hn] at h
      rw [hn']
      simp only at h ⊢
      split
      · simpa [*] using h
      · rename_i hl
        rw [if_neg hl] at h
        cases hleft : treeAt nodes fuel nd.left with
        | none => simp [hleft] at h
        | some l =>
          cases hright : treeAt nodes fuel nd.right with
          | none => simp [hleft, hright] at h
          | some r => simpa [hleft, hright, ih hleft, ih hright] using h

/-- Nothing lies below a leaf. -/
@[simp] theorem Tree.follow_nil (t : Tree) : t.follow [] = some t := by cases t <;> rfl

theorem Tree.follow_append (t : Tree) (p q : Bits) : t.follow (p ++ q) = (t.follow p).bind (fun u => u.follow q) := by
  induction p generalizing t with
  | nil => simp
  | cons b p ih =>
    cases t with
    | leaf v => rfl
    | node l r => cases b <;> simp [Tree.follow, ih]

/-- The last path to a value leads to a leaf of it (43_code_table.md R96). -/
theorem Tree.follow_lastPath {t : Tree} {v : Nat} {path : Bits} (h : t.lastPath v = some path) :
    t.follow path = some (.leaf v) := by
  induction t generalizing path with
  | leaf w =>
    unfold Tree.lastPath at h
    split at h
    · cases h; subst_vars; rfl
    · cases h
  | node l r ihl ihr =>
    unfold Tree.lastPath at h
    split at h
    · cases h; exact ihr ‹_›
    · obtain ⟨p, hp, rfl⟩ := Option.map_eq_some_iff.mp h
      exact ihl hp

end Sys2Proof.Machine
end

