-- ==== Sys2Proof/Tests/Slice0.lean ====
section
/-! SUPPORT. Tests of the model against spec/95_test_vectors.md and the encodings of spec/30_encoding.md, ill-formed terms the
checks refuse, and for every statement with hypotheses a concrete state and operands that meet them. -/

open Sys2Proof Sys2Proof.Machine

namespace Sys2Proof.Tests

set_option Elab.async false -- one theorem at a time: many at once need more stacks than the check's memory limit holds

/-! ### Helpers -/

/-- Whether an outcome is a next state with a property. -/
def nextSat (o : Host.Outcome State Fault Refusal) (p : State → Bool) : Bool :=
  match o with
  | .next t => p t
  | .fault _ => false
  | .refused _ => false

theorem exists_next_of_nextSat {o : Host.Outcome State Fault Refusal} {p : State → Bool} (h : nextSat o p = true) :
    ∃ t, o = .next t ∧ p t = true := by
  cases o with
  | next t => exact ⟨t, rfl, h⟩
  | fault f => cases h
  | refused r => cases h

/-- Whether a next state has this STATUS and ERR_INFO. -/
def ends (o : Host.Outcome State Fault Refusal) (status info : Word) : Bool :=
  nextSat o (fun t => decide (t.status.word = status) && decide (t.errInfo = info))

/-- One instruction after another. -/
def runAll (s : State) : List Instr → Host.Outcome State Fault Refusal
  | [] => .next s
  | i :: rest =>
    match exec i s with
    | .next t => runAll t rest
    | .fault f => .fault f
    | .refused r => .refused r

/-- Reset with an input bound at its first bit. -/
def fed (data : List Byte) : State := { State.reset with inData := data }

/-- The input of the worked example (95_test_vectors.md L1-1). -/
def aaab : State := fed [0x41, 0x41, 0x41, 0x42]

/-- The tree of the worked example as V-RDH-1 reads it. -/
def exampleTree : Tree := .node (.node (.leaf 0x42) (.leaf 256)) (.leaf 0x41)

/-- The bytes V-EX-1 gives. -/
def exampleStream : List Byte := [0xFA, 0xCE, 0x82, 0x01, 0x24, 0x2C, 0x02, 0x41, 0xE2]

/-- A state that holds the example's tree (V-RDH-1), its code table (V-DRV-1), and an input. -/
def withExample (data : List Byte) : State :=
  { State.reset with
    inData := data
    nodes := exampleTree.arena 0
    code := ((Table.fill 257 CodeEntry.unset).set 0x41 { valid := true, bits := [true] }).set 0x42
      { valid := true, bits := [false, false] } |>.set 256 { valid := true, bits := [false, true] }
    status := { Status.reset with treeValid := true, codeValid := true } }

/-- A state whose arena holds one leaf. -/
def withLeaf (v : Nat) (data : List Byte) : State :=
  { State.reset with
    inData := data
    nodes := (Tree.leaf v).arena 0
    status := { Status.reset with treeValid := true } }

/-- A block that runs COUNT, with n host operations to land first. -/
def busyCount (n : Nat) : State := { accept .count aaab with lag := n }

/-- A block with a recorded FORMAT error. -/
def failed : State := { State.reset with status := { Status.reset with err := .format } }

/-- An output port that is closed. -/
def closed : State := { State.reset with status := { Status.reset with outClosed := true } }

/-! ### Well-formedness: what the checks refuse -/

theorem smoke_leaf_value : Instr.wf (.hdrLeaf 257) = false := by decide
theorem smoke_leaf_value_ok : Instr.wf (.hdrLeaf 256) = true := by decide
theorem smoke_symbol : Instr.wf (.codeWord 511) = false := by decide
theorem smoke_padding : Instr.wf (.pad 8) = false := by decide
theorem smoke_params_low : Params.ok { Params.default with countW := 7 } = false := by decide
theorem smoke_params_high : Params.ok { Params.default with countW := 33 } = false := by decide

/-! ### Decoding: words written out from 30_encoding.md -/

theorem test_word_nop : decodeCommand 0b00000000000000000000000000000000#32 = .ok .nop := by decide
theorem test_word_clear : decodeCommand 0b00000000000000000000000000000001#32 = .ok .clear := by decide
theorem test_word_count : decodeCommand 0b00000000000000000000000000000010#32 = .ok .count := by decide
theorem test_word_build : decodeCommand 0b00000000000000000000000000000011#32 = .ok .build := by decide
theorem test_word_derive : decodeCommand 0b00000000000000000000000000000100#32 = .ok .derive := by decide
theorem test_word_wr_magic : decodeCommand 0b00000000000000000000000000000101#32 = .ok .wrMagic := by decide
theorem test_word_wr_header : decodeCommand 0b00000000000000000000000000000110#32 = .ok .wrHeader := by decide
theorem test_word_encode : decodeCommand 0b00000000000000000000000000000111#32 = .ok .encode := by decide
theorem test_word_close_out : decodeCommand 0b00000000000000000000000000001000#32 = .ok .closeOut := by decide
theorem test_word_rd_magic : decodeCommand 0b00000000000000000000000000001001#32 = .ok .rdMagic := by decide
theorem test_word_rd_header : decodeCommand 0b00000000000000000000000000001010#32 = .ok .rdHeader := by decide
theorem test_word_decode : decodeCommand 0b00000000000000000000000000001011#32 = .ok .decode := by decide
theorem test_word_compress : decodeCommand 0b00000000000000000000000000001100#32 = .ok .compress := by decide
theorem test_word_decompress : decodeCommand 0b00000000000000000000000000001101#32 = .ok .decompress := by decide
/-- V-CTL-7, V-CTL-8. -/
theorem test_word_illegal :
    decodeCommand 0x0000000E#32 = .error .undefinedOpcode ∧ decodeCommand 0x00000100#32 = .error .reservedBits := by decide
/-- R69: the magic word's bits, most significant first. -/
theorem test_token_magic :
    decodeToken { magic := 0xFACE8201#32, codes := [] } .magic
      [true, true, true, true, true, false, true, false, true, true, false, false, true, true, true, false,
        true, false, false, false, false, false, true, false, false, false, false, false, false, false, false, true]
      = .ok (.magic, []) := by decide
/-- R70. -/
theorem test_token_internal : decodeHeaderToken [false, true] = .ok (.hdrInternal, [true]) := by decide
/-- R71: byte value 0x41 is 001000001, the sentinel 100000000. -/
theorem test_token_leaf :
    decodeHeaderToken [true, false, false, true, false, false, false, false, false, true] = .ok (.hdrLeaf 0x41, []) ∧
    decodeHeaderToken [true, true, false, false, false, false, false, false, false, false] = .ok (.hdrLeaf 256, []) := by
  decide
/-- R72: 257. -/
theorem test_token_reserved_leaf :
    decodeHeaderToken [true, true, false, false, false, false, false, false, false, true] = .error .reservedLeafValue := by
  decide
/-- R74 with the codes of V-DRV-1: 00 is 0x42. -/
theorem test_token_code_word :
    decodeToken { magic := 0#32, codes := [(0x41, [true]), (0x42, [false, false]), (256, [false, true])] } .payload
      [false, false, true] = .ok (.codeWord 0x42, [true]) := by decide
/-- R76: the one padding bit of V-EX-1; eight bits are no padding. -/
theorem test_token_pad :
    decodeToken { magic := 0#32, codes := [] } .padding [false] = .ok (.pad 1, []) ∧
    decodeToken { magic := 0#32, codes := [] } .padding (List.replicate 8 false) = .error .notPadding := by decide
/-- R77. -/
theorem test_token_unit :
    decodeToken { magic := 0#32, codes := [] } .unit [false, true, false, false, false, false, false, true]
      = .ok (.inputUnit 0x41, []) := by decide
/-- The rows of the opcode table, bit 0 the least significant. -/
theorem test_table_words :
    decodeTableWord 32 0xC = some .compress ∧ decodeTableWord 32 0xFACE8201 = some .magic ∧
    decodeTableWord 8 0 = some .hdrInternal ∧ decodeTableWord 16 0x241 = some (.hdrLeaf 0x41) ∧
    decodeTableWord 32 0xE = none := by decide

/-! ### Instructions: the vectors of 95_test_vectors.md -/

/-- V-CTL-1. -/
theorem test_nop : ends (exec .nop State.reset) 0x00000002#32 0#32 = true := by decide +kernel
/-- R84's example: after RD_MAGIC faulted with STATUS = 0x00030000. -/
theorem test_clear : ends (exec .clear failed) 0x00000002#32 0#32 = true := by decide +kernel
/-- V-CTL-2, V-CTL-3. -/
theorem test_close_out :
    ends (exec .closeOut State.reset) 0x00000022#32 0#32 = true ∧
    ends (runAll State.reset [.closeOut, .closeOut]) 0x00020020#32 8#32 = true := by decide +kernel
/-- V-CTL-5: 71 bits take one bit of padding. -/
theorem test_close_out_pads :
    nextSat (exec .closeOut { State.reset with out := List.replicate 71 true, bitsOut := 71#32 })
      (fun t => decide (t.bitsOut = 72#32) && decide (t.out.getLast? = some false)) = true := by decide +kernel
/-- V-CNT-1. -/
theorem test_count :
    nextSat (exec .count aaab) (fun t => decide (t.count 0x41 = 3) && decide (t.count 0x42 = 1) &&
      decide (t.nbytes = 4) && decide (t.bitsIn = 32#32) && decide (t.status.word = 0x00000406#32)) = true := by
  decide +kernel
/-- V-CNT-7 in small: with room for no unit more, the unit is consumed and not counted. -/
theorem test_count_overflow :
    ends (exec .count { fed (List.replicate 255 0) with params := { Params.default with countW := 8 } })
      0x00090000#32 0xFE#32 = true := by decide +kernel
/-- V-BLD-1. -/
theorem test_build :
    nextSat (runAll aaab [.count, .build]) (fun t => decide (t.nodes =
      [{ isLeaf := true, value := 0x41, weight := 3, left := 0, right := 0 },
        { isLeaf := true, value := 0x42, weight := 1, left := 0, right := 0 },
        { isLeaf := true, value := 256, weight := 1, left := 0, right := 0 },
        { isLeaf := false, value := 0, weight := 2, left := 1, right := 2 },
        { isLeaf := false, value := 0, weight := 5, left := 3, right := 0 }]) && decide (t.root = 4) &&
      decide (t.status.word = 0x0000040E#32)) = true := by decide +kernel
/-- V-CTL-11. -/
theorem test_build_sequence : ends (exec .build State.reset) 0x00020000#32 3#32 = true := by decide +kernel
/-- V-DRV-1, and V-DRV-9: of two leaves of one value the one visited last wins. -/
theorem test_derive :
    nextSat (runAll aaab [.count, .build, .derive]) (fun t => decide ((t.codeEntry 0x41).bits = [true]) &&
      decide ((t.codeEntry 0x42).bits = [false, false]) && decide ((t.codeEntry 256).bits = [false, true]) &&
      decide ((t.codeEntry 0x43).valid = false) && decide (t.status.word = 0x0000041E#32)) = true := by decide +kernel
theorem test_derive_twice :
    nextSat (runAll (fed [0xFA, 0xCE, 0x82, 0x01, 0x48, 0x29, 0x07, 0x00]) [.rdMagic, .rdHeader, .derive])
      (fun t => decide ((t.codeEntry 0x41).bits = [true, false]) && decide ((t.codeEntry 256).bits = [true, true]) &&
        decide (t.status.word = 0x0000001A#32)) = true := by decide +kernel
/-- V-CTL-4. -/
theorem test_wr_magic :
    nextSat (runAll State.reset [.wrMagic, .closeOut]) (fun t => decide (outBytes t.out = [0xFA, 0xCE, 0x82, 0x01]) &&
      decide (t.status.word = 0x00000022#32)) = true := by decide +kernel
/-- V-WRH-2. -/
theorem test_wr_header :
    nextSat (runAll aaab [.count, .build, .wrHeader, .closeOut]) (fun t =>
      decide (outBytes t.out = [0x24, 0x2C, 0x02, 0x41]) && decide (t.status.word = 0x0000042E#32)) = true := by
  decide +kernel
/-- V-RDM-2, V-RDM-4. -/
theorem test_rd_magic :
    ends (exec .rdMagic (fed [0xFA, 0xCE, 0x82, 0x00])) 0x00030000#32 0xFACE8200#32 = true ∧
    ends (exec .rdMagic (fed [0xFA, 0xCE, 0x82])) 0x00030400#32 0#32 = true := by decide +kernel
/-- V-RDH-1. -/
theorem test_rd_header :
    nextSat (runAll (fed exampleStream) [.rdMagic, .rdHeader]) (fun t => decide (t.nodes = exampleTree.arena 0) &&
      decide (t.bitsIn = 32#32) && decide (t.status.word = 0x0000000A#32)) = true := by decide +kernel
/-- V-RDH-3, V-RDH-5. -/
theorem test_rd_header_faults :
    ends (runAll (fed [0xFA, 0xCE, 0x82, 0x01, 0xC0, 0x40]) [.rdMagic, .rdHeader]) 0x00070000#32 0x101#32 = true ∧
    ends (runAll (fed [0xFA, 0xCE, 0x82, 0x01, 0x24, 0x2C]) [.rdMagic, .rdHeader]) 0x00040400#32 13#32 = true := by
  decide +kernel
/-- V-ENC-1. -/
theorem test_encode :
    nextSat (runAll aaab [.count, .build, .derive, .encode]) (fun t =>
      decide (t.out = [true, true, true, false, false, false, true]) && decide (t.bitsIn = 32#32) &&
      decide (t.status.word = 0x0000041E#32)) = true := by decide +kernel
/-- V-ENC-4: 0x43 has no code (FREQ_VALID is 0 in this state). -/
theorem test_encode_uncoded :
    nextSat (exec .encode (withExample [0x41, 0x43])) (fun t => decide (t.status.word = 0x000A0018#32) &&
      decide (t.errInfo = 0x43#32) && decide (t.bitsIn = 16#32) && decide (t.out = [true])) = true := by decide +kernel
/-- V-DEC-1: the payload byte 0xE2 (CODE_VALID is 1 in this state). -/
theorem test_decode :
    nextSat (exec .decode (withExample [0xE2])) (fun t => decide (outBytes t.out = [0x41, 0x41, 0x41, 0x42]) &&
      decide (t.bitsIn = 7#32) && decide (t.status.word = 0x0000021A#32)) = true := by decide +kernel
/-- V-DEC-3, V-DEC-4. -/
theorem test_decode_leaf_root :
    ends (exec .decode (withLeaf 256 [])) 0x0000020A#32 0#32 = true ∧
    ends (exec .decode (withLeaf 0x41 [])) 0x00060008#32 0x41#32 = true := by decide +kernel
/-- V-EX-1. -/
theorem test_compress :
    nextSat (exec .compress aaab) (fun t => decide (outBytes t.out = exampleStream) &&
      decide (t.status.word = 0x0000043E#32) && decide (t.bitsIn = 64#32) && decide (t.bitsOut = 72#32)) = true := by
  decide +kernel
/-- V-PIPE-2: the empty input. -/
theorem test_compress_empty :
    nextSat (exec .compress State.reset) (fun t => decide (outBytes t.out = [0xFA, 0xCE, 0x82, 0x01, 0xC0, 0x00]) &&
      decide (t.bitsOut = 48#32)) = true := by decide +kernel
/-- V-EX-2. -/
theorem test_decompress :
    nextSat (exec .decompress (fed exampleStream)) (fun t => decide (outBytes t.out = [0x41, 0x41, 0x41, 0x42]) &&
      decide (t.status.word = 0x0000022A#32) && decide (t.bitsIn = 71#32)) = true := by decide +kernel
/-- V-ERR-7: no sentinel; three bytes are out, marked by ERR. -/
theorem test_decompress_truncated :
    nextSat (exec .decompress (fed [0xFA, 0xCE, 0x82, 0x01, 0x48, 0x32, 0x10])) (fun t =>
      decide (outBytes t.out = [0x41, 0x41, 0x41]) && decide (t.status.word = 0x00050428#32) &&
      decide (t.errInfo = 0x38#32)) = true := by decide +kernel
/-- R70, R71: the tokens of V-RDH-1's first leaf. -/
theorem test_header_tokens :
    nextSat (runAll State.reset [.hdrInternal, .hdrLeaf 0x42]) (fun t =>
      decide (t.out = [false, true, false, false, true, false, false, false, false, true, false])) = true := by
  decide +kernel
/-- R69: the first byte of the magic word is 0xFA. -/
theorem test_magic_token :
    nextSat (exec .magic State.reset) (fun t => decide ((outBytes t.out).head? = some 0xFA)) = true := by decide +kernel
/-- R74 with the code of 0x42 in V-DRV-1. -/
theorem test_code_word_token :
    nextSat (exec (.codeWord 0x42) (withExample [])) (fun t => decide (t.out = [false, false])) = true := by decide +kernel
/-- R76. -/
theorem test_pad_token : nextSat (exec (.pad 7) State.reset) (fun t => decide (t.bitsOut = 7#32)) = true := by
  decide +kernel
/-- R77. -/
theorem test_input_unit_token :
    nextSat (exec (.inputUnit 0x41) aaab) (fun t => decide (t.inPos = 8) && decide (t.bitsIn = 8#32)) = true := by
  decide +kernel

/-! ### The host's side -/

/-- V-CTL-7: the word is recorded and not latched. -/
theorem test_illegal_word :
    nextSat (step (State.reset.withFetchWord 32 0x0E)) (fun t => decide (t.status.word = 0x00010000#32) &&
      decide (t.errInfo = 0x0E#32) && decide (t.cmd = 0#32)) = true := by decide +kernel
/-- V-CTL-17, both outcomes: the NOP lands while COMPRESS runs, or after it. -/
theorem test_busy_drop :
    nextSat (Host.Core.run Sys2Proof.core 3
      { aaab with hostOps := [cmdOp Params.default .compress 1, cmdOp Params.default .nop 0] })
      (fun t => decide (t.status.word = 0x0000047E#32) && decide (t.cmd = 0x0C#32)) = true := by decide +kernel
theorem test_after_completion :
    nextSat (Host.Core.run Sys2Proof.core 2
      { aaab with hostOps := [cmdOp Params.default .compress 0, cmdOp Params.default .nop 0] })
      (fun t => decide (t.status.word = 0x0000043E#32) && decide (t.cmd = 0#32)) = true := by decide +kernel
/-- V-RST-1 and V-RST-2: CONFIG and MAGIC. -/
theorem test_hardwired :
    regValue State.reset 0x0C = 0xFACE8201#32 ∧ regValue State.reset 0x10 = 0x00020120#32 ∧
    regValue { State.reset with params := { Params.default with countW := 8 } } 0x10 = 0x00020108#32 := by decide +kernel
/-- V-DRV-1's read-back: tbl 1, 256, 0 and tbl 2, 256, 0. -/
theorem test_table_read :
    regValue { withExample [] with tblAddr := 0x00010100#32 } 0x2C = 0x80000002#32 ∧
    regValue { withExample [] with tblAddr := 0x00020100#32 } 0x2C = 0x40000000#32 := by decide +kernel
/-- R141: the host changes the data to A C after the count pass of a running COMPRESS; C has no code. -/
theorem test_changed_input :
    nextSat (Host.Core.run Sys2Proof.core 3
      { aaab with hostOps := [cmdOp Params.default .compress 2, .bindInput [0x41, 0x43] true] })
      (fun t => decide (t.status.word = 0x000A043C#32) && decide (t.errInfo = 0x43#32) && decide (t.bitsIn = 48#32) &&
        decide (outBytes t.out = [0xFA, 0xCE, 0x82, 0x01, 0x24, 0x2C, 0x02, 0x41, 0x80])) = true := by decide +kernel
/-- R145: a reset while COUNT runs on a closed port gives a fresh one. -/
theorem test_reset_closed :
    nextSat (hostStep exec .reset { accept .count closed with out := [true] })
      (fun t => decide (t.out = []) && decide (t.status.outClosed = false)) = true := by decide +kernel
/-- A token placed after reset is the next step (log entry 13). -/
theorem test_token_step :
    nextSat (step (State.reset.withFetchWord 16 0x241)) (fun t => decide (t.out.length = 10) &&
      decide (t.token = none)) = true := by decide +kernel

/-! ### Witnesses: for every statement with hypotheses, a state and operands that meet them, clause by clause -/

theorem next_of {o : Host.Outcome State Fault Refusal} (h : nextSat o (fun _ => true) = true) : ∃ t, o = .next t :=
  (exists_next_of_nextSat h).imp fun _ ht => ht.1

/-- What COUNT leaves of the worked example (V-CNT-1). -/
def countedExample : State :=
  { State.reset with
    freq := ((Table.fill 256 0).set 0x41 3).set 0x42 1
    nbytes := 4
    status := { Status.reset with freqValid := true } }

/-- The codes of V-DRV-1 as a code book. -/
def exampleBook : StreamBook :=
  { magic := Config.defaultMagic, codes := [(0x41, [true]), (0x42, [false, false]), (256, [false, true])] }

/-- For IllegalWordIsRecorded. -/
theorem witness_illegal_word : State.reset.Ready ∧ (0x00000100#32).extractLsb' 8 24 ≠ 0#24 ∧
    0x0D < ((0x0000000E#32).extractLsb' 0 8).toNat ∧ 0x0D < ((0x000000FF#32).extractLsb' 0 8).toNat := by decide

/-- For TokenDecodingInvertsEncoding. -/
theorem witness_token_encoding : uniquelyReadable exampleBook ∧
    (∀ i ∈ ([.magic, .hdrInternal, .hdrLeaf 0, .hdrLeaf 256, .codeWord 256, .pad 0, .pad 7, .inputUnit 0xFF] : List Instr),
      i.wf = true ∧ (streamPart i).isSome = true ∧ (encodeToken exampleBook i).isSome = true) := by
  unfold uniquelyReadable
  decide +kernel

/-- For StepKeepsInvariant and StepNeverStopsUnderInvariant. The example with a DECODE about to be written meets the invariant:
tree and code table are valid. -/
theorem witness_invariant : ({ withExample [0xE2] with hostOps := [cmdOp Params.default .decode 0] } : State).Inv where
  params_ok := by decide
  count_sum := by decide +kernel
  count_fits := by decide
  nodes_fit := by decide
  queue_empty := rfl
  in_range := by decide
  tbl_reserved := by decide
  tree_whole := fun _ => ⟨exampleTree, by decide +kernel, by decide⟩
  code_link := fun _ => rfl
  code_current := fun _ t ht => by
    have h : ({ withExample [0xE2] with hostOps := [cmdOp Params.default .decode 0] } : State).tree = some exampleTree := by
      decide +kernel
    rw [h] at ht
    cases ht
    decide +kernel
  code_fits := fun v => by
    by_cases hv : v < 257
    · revert v
      decide +kernel
    · have h : ({ withExample [0xE2] with hostOps := [cmdOp Params.default .decode 0] } : State).codeEntry v
          = CodeEntry.unset := by
        unfold State.codeEntry Table.get?
        rw [List.getElem?_eq_none]
        · rfl
        · exact (Table.size_eq _).trans_le (Nat.le_of_not_lt hv)
      rw [h]
      decide
  running := fun h => by cases h
  late_running := fun _ => rfl
  no_token := rfl

/-- For StepKeepsInvariant. -/
theorem witness_invariant_step :
    ∃ t, step { withExample [0xE2] with hostOps := [cmdOp Params.default .decode 0] } = .next t :=
  next_of (by decide +kernel)

/-- For StepRunsTheDecodedInstruction, clause by clause. -/
theorem witness_step_runs :
    (∃ (s : State) (w : Word) (i : Instr) (rest : List HostOp), s.token = none ∧ s.status.busy = false ∧
      s.hostOps = .write s.params.regBase 4 w 0 :: rest ∧ decodeCommand w = .ok i) ∧
    (∃ (s : State) (i : Instr), s.token = none ∧ s.status.busy = true ∧ s.lag = 0 ∧ decodeCommand s.cmd = .ok i ∧
      s.lateInput = none ∧ ∃ t, exec i { s with lag := 0, status := { s.status with busy := false } } = .next t) ∧
    (∃ (s : State) (i : Instr), s.token = none ∧ s.status.busy = true ∧ s.lag ≠ 0 ∧ s.hostOps = [] ∧
      decodeCommand s.cmd = .ok i) ∧
    (∃ (s : State) (i : Instr), s.token = some i) ∧
    (∃ s : State, s.token = none ∧ s.status.busy = false ∧ s.hostOps = []) ∧
    (∃ (s : State) (op : HostOp) (rest : List HostOp), s.token = none ∧ s.status.busy = false ∧ s.hostOps = op :: rest) ∧
    (∃ (s : State) (op : HostOp) (rest : List HostOp), s.token = none ∧ s.status.busy = true ∧ s.lag ≠ 0 ∧
      s.hostOps = op :: rest) :=
  ⟨⟨{ aaab with hostOps := [.write 0 4 0x0D#32 0] }, 0x0D#32, .decompress, [], by decide⟩,
    ⟨busyCount 0, .count, rfl, rfl, rfl, by decide, rfl, next_of (by decide +kernel)⟩, ⟨busyCount 3, .count, by decide⟩,
    ⟨{ aaab with token := some (.pad 7) }, .pad 7, rfl⟩, ⟨aaab, by decide⟩,
    ⟨{ aaab with hostOps := [.reset] }, .reset, [], by decide⟩,
    ⟨{ busyCount 1 with hostOps := [.wait] }, .wait, [], by decide⟩⟩

/-- For DeferredCommandEndsAsAtOnce. -/
theorem witness_deferred : aaab.Ready ∧ aaab.token = none ∧ aaab.hostOps = [] ∧ aaab.lateInput = none := by
  decide

/-- For BusyCommandsAreDropped, NopOnlyCompletes. -/
theorem witness_busy : (busyCount 2).status.busy = true := rfl

/-- For CommandsUnderErrorAreDropped, NopOnlyCompletes. -/
theorem witness_under_error : failed.status.busy = false ∧ failed.status.err ≠ ErrCode.none ∧
    Op.decompress ≠ .clear ∧ (0x0000000E#32 : Word) ≠ 0x00000001#32 ∧
    ({ failed with status := { failed.status with outClosed := true } } : State).status.outClosed = true ∧
    ({ failed with status := { failed.status with outClosed := true } } : State).status.err ≠ ErrCode.none := by decide

/-- For FalsePreconditionFaultsSequence. -/
theorem witness_precondition : State.reset.Ready ∧ ¬ commandNeeds State.reset.status .build ∧
    closed.Ready ∧ ¬ commandNeeds closed.status .closeOut ∧ commandNeeds countedExample.status .build := by
  refine ⟨by decide, ?_, by decide, ?_, rfl⟩ <;> intro h <;> cases h

/-- For RecordedErrorIsSticky. -/
theorem witness_sticky : failed.status.err ≠ ErrCode.none ∧ (∃ t, exec .nop failed = .next t) ∧
    ∃ t, exec .closeOut failed = .next t ∧ t.status.outClosed = true :=
  ⟨by decide, next_of (by decide +kernel), (exists_next_of_nextSat (p := fun t => t.status.outClosed) (by decide +kernel))⟩

/-- For NopOnlyCompletes, ClearGivesResetValues, ClearMatchesReset, CloseOutPadsAndCloses. -/
theorem witness_idle : State.reset.Ready ∧ failed.status.busy = false ∧ failed.status.outClosed = false := by decide

/-- For CountCountsTheUnits, CountOfAWholeInput, CountersNeverWrap, CompressWritesTheStream. -/
theorem witness_count :
    aaab.Ready ∧ aaab.inPos = 0 ∧ (unitsFrom aaab.inData aaab.inPos).length ≤ aaab.params.maxBytes ∧
    aaab.inData.length ≤ aaab.params.maxBytes ∧ (∃ t, exec .count aaab = .next t) ∧
    (unitsFrom (List.replicate 254 0#8) 0).length ≤ Params.maxBytes { Params.default with countW := 8 } :=
  ⟨by decide, rfl, by decide +kernel, by decide, next_of (by decide +kernel), by decide +kernel⟩

/-- For CountStopsAtMaxBytes, CompressFaultsOnOverflow. -/
theorem witness_count_overflow :
    ({ fed (List.replicate 255 0) with params := { Params.default with countW := 8 } } : State).Ready ∧
    Params.maxBytes { Params.default with countW := 8 } < (unitsFrom (List.replicate 255 0#8) 0).length ∧
    Params.maxBytes { Params.default with countW := 8 } < (List.replicate 255 0#8).length := by decide +kernel

/-- For BuildMakesLeavesAndMerges. -/
theorem witness_build : countedExample.Ready ∧ countedExample.status.freqValid = true ∧
    ∃ t, exec .build countedExample = .next t := ⟨by decide, rfl, next_of (by decide +kernel)⟩

/-- For BuildWeightsAreSums. -/
theorem witness_build_weights : ∃ (t : State) (nd : Node), exec .build countedExample = .next t ∧
    t.nodes[3]? = some nd ∧ nd.isLeaf = false := by
  obtain ⟨t, h, p⟩ := exists_next_of_nextSat (o := exec .build countedExample)
    (p := fun t => decide (t.nodes[3]?.map Node.isLeaf = some false)) (by decide +kernel)
  obtain ⟨nd, hn, hl⟩ := Option.map_eq_some_iff.mp (of_decide_eq_true p)
  exact ⟨t, nd, h, hn, hl⟩

/-- For PopMinTakesTheLeastPair. -/
theorem witness_pop_min :
    ({ countedExample with pq := [2, 0, 1] } : State).params.tieRank = [] ∧ [2, 0, 1].Nodup ∧ [2, 0, 1] ≠ [] := by decide

/-- For BuiltTreeIsOptimal. -/
theorem witness_optimal : ∃ (t : State) (tree other : Tree), exec .build countedExample = .next t ∧ t.tree = some tree ∧
    other ≠ tree ∧ other.leaves.Perm tree.leaves := by
  obtain ⟨t, h, p⟩ := exists_next_of_nextSat (o := exec .build countedExample)
    (p := fun t => decide (t.tree = some exampleTree)) (by decide +kernel)
  exact ⟨t, exampleTree, .node (.leaf 0x41) (.node (.leaf 256) (.leaf 0x42)), h, of_decide_eq_true p, by decide, by decide⟩

/-- For DeriveRecordsThePaths, DerivedCodesArePrefixFree, WrHeaderWritesTheTree. -/
theorem witness_derive : (withExample []).Ready ∧ (withExample []).status.treeValid = true ∧
    (withExample []).tree = some exampleTree ∧ ∃ t, exec .derive (withExample []) = .next t ∧
      (t.codeEntry 0x41).valid = true ∧ (t.codeEntry 0x42).valid = true :=
  ⟨by decide, rfl, by decide +kernel, (exists_next_of_nextSat
    (p := fun t => (t.codeEntry 0x41).valid && (t.codeEntry 0x42).valid) (by decide +kernel)).imp
      fun _ h => ⟨h.1, Bool.and_eq_true_iff.mp h.2⟩⟩

/-- For WrMagicWritesTheMagic, WrHeaderWritesTheTree, DecodeEmitsTheBytes, DecodeFaultsOnTruncation. -/
theorem witness_open_output : (withExample []).Ready ∧ (withExample []).status.treeValid = true ∧
    (withExample []).status.outClosed = false := by decide

/-- For RdMagicChecksTheWord. -/
theorem witness_rd_magic :
    (fed [0xFA, 0xCE, 0x82, 0x01]).inBits = bitsOf 32 Config.defaultMagic.toNat ++ [] ∧
    (fed [0xFA, 0xCE, 0x82, 0x00]).inBits = bitsOf 32 (0xFACE8200#32).toNat ++ [] ∧
    0xFACE8200#32 ≠ Config.defaultMagic ∧
    (fed [0xFA, 0xCE, 0x82]).inBits.length < 32 ∧ (fed []).inBits.length < 32 ∧
    ({ fed [0xFA, 0xCE, 0x82, 0x01] with inPos := 1 } : State).inBits.length = 31 := by decide +kernel

/-- For RdHeaderReadsTheTree. -/
theorem witness_rd_header : (fed [0x24, 0x2C, 0x02, 0x41]).Ready ∧ (∀ v ∈ exampleTree.leaves, v ≤ 256) ∧
    exampleTree.size ≤ 513 ∧ (fed [0x24, 0x2C, 0x02, 0x41]).inBits = exampleTree.header ++ [] := by decide +kernel

/-- The example's header cut in its first leaf's right sibling: 0, 0, the leaf 0x42. -/
def exampleCut : HeaderCut := .inLeft (.inRight (.leaf 0x42) .here)

/-- For RdHeaderFaultsOnTruncation: cut inside the field of the second leaf, between two tokens, and before the first. -/
theorem witness_rd_header_truncated :
    exampleCut.Readable ∧ CutToken [true, true, false, false] ∧
    (fed [0x24, 0x2C]).inBits = exampleCut.bits ++ [true, true, false, false] ∧
    CutToken [] ∧ ({ fed [0x01] with inPos := 7 } : State).inBits = [true] ∧ CutToken [true] ∧
    (fed []).inBits = HeaderCut.here.bits ++ [] := by decide +kernel

/-- For RdHeaderFaultsOnABadLeaf: a bad leaf as the first token, with the least and the greatest bad value, and after 0. -/
theorem witness_bad_leaf :
    (∃ rest, (fed [0xC0, 0x40]).inBits = HeaderCut.here.bits ++ true :: (bitsOf 9 257 ++ rest)) ∧
    (∃ rest, (fed [0xFF, 0xC0]).inBits = HeaderCut.here.bits ++ true :: (bitsOf 9 511 ++ rest)) ∧
    (HeaderCut.inLeft .here).Readable ∧
    (∃ rest, (fed [0x7F, 0xE0]).inBits = (HeaderCut.inLeft .here).bits ++ true :: (bitsOf 9 511 ++ rest)) :=
  ⟨⟨List.replicate 6 false, by decide +kernel⟩, ⟨List.replicate 6 false, by decide +kernel⟩, by decide,
    ⟨List.replicate 5 false, by decide +kernel⟩⟩

/-- n internal nodes, each the left child of the one before. -/
def leftSpine : Nat → HeaderCut
  | 0 => .here
  | n + 1 => .inLeft (leftSpine n)

/-- For RdHeaderOverflowsAtTheCapacity: the 514th node internal, and a leaf (here the sentinel). -/
theorem witness_overflow :
    (leftSpine 513).Readable ∧ (leftSpine 513).size = 513 ∧
    (fed (List.replicate 65 0)).inBits = (leftSpine 513).bits ++ [false] ++ List.replicate 6 false ∧
    (fed (List.replicate 64 0 ++ [0x60, 0x00])).inBits
      = (leftSpine 513).bits ++ (true :: bitsOf 9 256) ++ List.replicate 5 false ∧
    (fed (List.replicate 65 0)).inBits = List.replicate 514 false ++ List.replicate 6 false := by decide +kernel

/-- For EncodeWritesThePayload. -/
theorem witness_encode : (withExample [0x41, 0x42]).Ready ∧ (withExample [0x41, 0x42]).status.codeValid = true ∧
    (withExample [0x41, 0x42]).status.outClosed = false ∧
    (∀ b ∈ (withExample [0x41, 0x42]).secondPass, ((withExample [0x41, 0x42]).codeEntry b.toNat).valid = true) ∧
    ((withExample [0x41, 0x42]).codeEntry 256).valid = true := by decide +kernel

/-- For EncodeFaultsOnAnUncodedSymbol. -/
theorem witness_encode_uncoded :
    (withExample [0x41, 0x43, 0x44]).secondPass = [0x41#8] ++ 0x43#8 :: [0x44#8] ∧
    (∀ b ∈ [0x41#8], ((withExample [0x41, 0x43, 0x44]).codeEntry b.toNat).valid = true) ∧
    ((withExample [0x41, 0x43, 0x44]).codeEntry 0x43).valid = false ∧
    (({ withExample [] with code := Table.fill 257 CodeEntry.unset } : State).codeEntry 256).valid = false := by
  decide +kernel

/-- For DecodeEmitsTheBytes. V-DEC-1's payload: A A A B and the sentinel. -/
theorem witness_decode : (withExample [0xE2]).tree = some exampleTree ∧
    (∀ e ∈ [(0x41#8, [true]), (0x42#8, [false, false])], exampleTree.follow e.2 = some (.leaf e.1.toNat)) ∧
    exampleTree.follow [false, true] = some (.leaf 256) ∧
    (withExample [0xE2]).inBits
      = [(0x41#8, [true]), (0x41#8, [true]), (0x41#8, [true]), (0x42#8, [false, false])].flatMap Prod.snd
        ++ [false, true] ++ [false] ∧
    (withLeaf 256 []).tree = some (.leaf 256) ∧ (Tree.leaf 256).follow [] = some (.leaf 256) := by decide +kernel

/-- For DecodeFaultsOnALeafRoot. -/
theorem witness_decode_leaf_root : (withLeaf 0x41 []).Ready ∧ (withLeaf 0x41 []).status.treeValid = true ∧
    (withLeaf 0x41 []).status.outClosed = false ∧ (withLeaf 0x41 []).tree = some (.leaf 0x41) := by decide +kernel

/-- For DecodeFaultsOnTruncation. The input ends at the root after eight As, and in mid-walk after seven. -/
theorem witness_decode_truncated : exampleTree.follow [] = some exampleTree ∧
    exampleTree.follow [false] = some (.node (.leaf 0x42) (.leaf 256)) ∧
    (withExample [0xFF]).inBits = (List.replicate 8 (0x41#8, [true])).flatMap Prod.snd ++ [] ∧
    (withExample [0xFE]).inBits = (List.replicate 7 (0x41#8, [true])).flatMap Prod.snd ++ [false] := by decide +kernel

/-- For CompressOutputLength. -/
theorem witness_compress_length : aaab.Ready ∧ aaab.status.outClosed = false ∧ aaab.inPos = 0 ∧ aaab.out = [] ∧
    aaab.secondPass = aaab.inData ∧ ∃ (t : State) (tree : Tree), exec .compress aaab = .next t ∧ t.tree = some tree := by
  refine ⟨by decide, rfl, rfl, rfl, rfl, ?_⟩
  obtain ⟨t, h, p⟩ := exists_next_of_nextSat (o := exec .compress aaab)
    (p := fun t => decide (t.tree = some exampleTree)) (by decide +kernel)
  exact ⟨t, exampleTree, h, of_decide_eq_true p⟩

/-- For DecompressReadsTheStream. -/
theorem witness_decompress : (fed exampleStream).Ready ∧ (fed exampleStream).status.outClosed = false ∧
    (fed exampleStream).inBits = bitsOf 32 Config.defaultMagic.toNat ++ exampleTree.header
      ++ [(0x41#8, [true]), (0x41#8, [true]), (0x41#8, [true]), (0x42#8, [false, false])].flatMap Prod.snd
      ++ [false, true] ++ [false] := by decide +kernel

/-- For CompressOfChangedInput, CompressWritesTheStream: the data changed to A C, and to B A, after the count pass. -/
theorem witness_changed_input :
    (busyCount 1).status.busy = true ∧ aaab.status.busy = false ∧ (busyCount 1).lateInput = none ∧
    ({ aaab with lateInput := some [0x41, 0x43] } : State).Ready ∧
    ({ aaab with lateInput := some [0x41, 0x43] } : State).secondPass = [0x41] ++ 0x43 :: [] ∧
    (0x41 : Byte) ∈ aaab.inData ∧ (0x43 : Byte) ∉ aaab.inData ∧
    (∀ b ∈ ({ aaab with lateInput := some [0x42, 0x41] } : State).secondPass, b ∈ aaab.inData) := by decide +kernel

/-- For DecompressRejectsMalformedInput, clause by clause (R116 b: V-EX-1's output cut in the header, and in the payload). -/
theorem witness_malformed :
    (fed []).inBits.length < 32 ∧ ({ fed [0xFA, 0xCE, 0x82, 0x01] with inPos := 1 } : State).inBits.length < 32 ∧
    (0xFACE8200#32 ≠ Config.defaultMagic ∧ (fed [0xFA, 0xCE, 0x82, 0x00]).inBits = bitsOf 32 (0xFACE8200#32).toNat ++ []) ∧
    (fed [0xFA, 0xCE, 0x82, 0x01, 0x24, 0x2C]).inBits
      = bitsOf 32 Config.defaultMagic.toNat ++ exampleCut.bits ++ [true, true, false, false] ∧
    (fed [0xFA, 0xCE, 0x82, 0x01, 0xC0, 0x40]).inBits
      = bitsOf 32 Config.defaultMagic.toNat ++ HeaderCut.here.bits ++ true :: (bitsOf 9 257 ++ List.replicate 6 false) ∧
    (fed ([0xFA, 0xCE, 0x82, 0x01] ++ List.replicate 65 0)).inBits
      = bitsOf 32 Config.defaultMagic.toNat ++ (leftSpine 513).bits ++ [false] ++ List.replicate 6 false ∧
    (fed [0xFA, 0xCE, 0x82, 0x01, 0x90, 0x40]).inBits
      = bitsOf 32 Config.defaultMagic.toNat ++ (Tree.leaf 0x41).header ++ List.replicate 6 false ∧
    (fed [0xFA, 0xCE, 0x82, 0x01, 0x24, 0x2C, 0x02, 0x41, 0xFE]).inBits
      = bitsOf 32 Config.defaultMagic.toNat ++ exampleTree.header
        ++ (List.replicate 7 (0x41#8, [true])).flatMap Prod.snd ++ [false] := by decide +kernel

/-- For DecompressRejectsMalformedInput, the clause of R116 (b). -/
theorem witness_cut_stream : ∃ t, exec .compress aaab = .next t ∧ t.tree = some exampleTree ∧
    (fed [0xFA, 0xCE, 0x82, 0x01, 0x24, 0x2C]).inBits <+: t.out ∧
    (fed [0xFA, 0xCE, 0x82, 0x01, 0x24, 0x2C, 0x02, 0x41]).inBits <+: t.out ∧ 0 < (t.payload aaab.inData).length := by
  obtain ⟨t, h, p⟩ := exists_next_of_nextSat (o := exec .compress aaab)
    (p := fun t => decide (t.tree = some exampleTree ∧
      (fed [0xFA, 0xCE, 0x82, 0x01, 0x24, 0x2C]).inBits <+: t.out ∧
      (fed [0xFA, 0xCE, 0x82, 0x01, 0x24, 0x2C, 0x02, 0x41]).inBits <+: t.out ∧ 0 < (t.payload aaab.inData).length))
    (by decide +kernel)
  exact ⟨t, h, of_decide_eq_true p⟩

/-- For PipelinesCloseTheOutput. -/
theorem witness_pipelines : (∃ t, exec .compress aaab = .next t) ∧ ∃ t, exec .decompress aaab = .next t :=
  ⟨next_of (by decide +kernel), next_of (by decide +kernel)⟩

/-- For DecompressInvertsCompress. -/
theorem witness_round_trip : ∃ t, exec .compress aaab = .next t ∧ (fed exampleStream).Ready ∧
    (fed exampleStream).inPos = 0 ∧ (fed exampleStream).out = [] ∧
    (fed exampleStream).params.huffMagic = aaab.params.huffMagic ∧ (fed exampleStream).inData = outBytes t.out := by
  obtain ⟨t, h, p⟩ := exists_next_of_nextSat (o := exec .compress aaab)
    (p := fun t => decide (exampleStream = outBytes t.out)) (by decide +kernel)
  exact ⟨t, h, by decide, rfl, rfl, rfl, of_decide_eq_true p⟩

/-- For OutputTokensAreWritten. -/
theorem witness_output_tokens : (withExample []).status.outClosed = false ∧
    (∀ i ∈ ([.magic, .hdrInternal, .hdrLeaf 256, .codeWord 256, .pad 7] : List Instr), i.wf = true ∧
      (streamPart i).isSome = true ∧ streamPart i ≠ some .unit ∧ (encodeToken (withExample []).book i).isSome = true) := by
  decide +kernel

/-- For InputUnitIsRead. -/
theorem witness_input_unit : aaab.inBits = bitsOf 8 0x41 ++ aaab.inBits.drop 8 ∧
    ({ aaab with inPos := 8 * 3 } : State).inData[3]? = some 0x42 ∧
    aaab.inBits.take 8 ≠ bitsOf 8 0x42 := by decide +kernel

/-- For TokensThatDoNotCross. -/
theorem witness_tokens_stopped : streamPart (.pad 7) = some .padding ∧ closed.status.outClosed = true ∧
    State.reset.status.outClosed = false ∧ (State.reset.codeEntry 256).valid = false := by decide +kernel

/-- For InstructionsLeaveTheHostAlone, DatapathWriters, PortWriters, FlagWriters. -/
theorem witness_frames : (∃ t, exec .nop aaab = .next t) ∧ (∃ t, exec .derive (withExample []) = .next t) ∧
    (∃ t, exec (.inputUnit 0x41) aaab = .next t) ∧ ∃ t, exec (.pad 7) (busyCount 0) = .next t :=
  ⟨next_of (by decide +kernel), next_of (by decide +kernel), next_of (by decide +kernel), next_of (by decide +kernel)⟩

/-- For TblDataReadsTheSelectedWord. -/
theorem witness_tbl_data :
    ({ withExample [] with tblAddr := 0x000000FF#32 } : State).tblAddr = BitVec.ofNat 32 (0 * 2 ^ 16 + 0 * 2 ^ 12 + 255) ∧
    ({ withExample [] with tblAddr := 0x00027100#32 } : State).tblAddr = BitVec.ofNat 32 (2 * 2 ^ 16 + 7 * 2 ^ 12 + 256) ∧
    ({ withExample [] with tblAddr := 0x00033004#32 } : State).tblAddr = BitVec.ofNat 32 (3 * 2 ^ 16 + 3 * 2 ^ 12 + 4) ∧
    (withExample []).nodes[4]? = some { isLeaf := true, value := 0x41, weight := 0, left := 0, right := 0 } ∧
    ({ withExample [] with tblAddr := 0x00030005#32 } : State).tblAddr = BitVec.ofNat 32 (3 * 2 ^ 16 + 0 * 2 ^ 12 + 5) ∧
    (withExample []).nodes.length ≤ 5 := by decide +kernel

/-- For ReservedAndReadOnlyRegisters, ReadsReturnTheRegisters, ResetGivesResetValues. -/
theorem witness_registers : (0x30 ≤ 0x30 ∧ 0x30 ≤ 0xFC) ∧ (0x30 ≤ 0xFC ∧ 0xFC ≤ 0xFC) ∧ 0x2C ∈ [0x04, 0x2C] ∧
    (busyCount 0).status.busy = true ∧ State.reset.status.busy = false ∧ Params.default.countW ≤ 32 ∧
    closed.status.outClosed = true ∧ (busyCount 0).status.outClosed = false ∧ (busyCount 0).cmd ≠ 0x00000001#32 := by decide

/-- For ResetGivesResetValues, the clause on what the running command would have written: a COMPRESS, and a CLOSE_OUT. -/
theorem witness_reset_while_busy :
    (accept .compress aaab).status.busy = true ∧ (accept .compress aaab).cmd = Op.compress.word ∧
    (accept .compress aaab).status.outClosed = false ∧ (accept .compress aaab).status.err = ErrCode.none ∧
    (∃ t, exec .compress { accept .compress aaab with status :=
      { (accept .compress aaab).status with busy := false } } = .next t) ∧
    (accept .closeOut failed).cmd = Op.closeOut.word ∧ (accept .closeOut failed).status.outClosed = false ∧
    ∃ t, exec .closeOut { accept .closeOut failed with status :=
      { (accept .closeOut failed).status with busy := false } } = .next t :=
  ⟨rfl, rfl, rfl, rfl, next_of (by decide +kernel), rfl, rfl, next_of (by decide +kernel)⟩

/-- For OnlyDefinedAccessesAreTaken. -/
theorem witness_accesses : (0 < 256 ∧ 0 % 4 = 0) ∧ (0xFC < 256 ∧ 0xFC % 4 = 0) ∧
    2 ≠ 4 ∧ 0xFF < Params.regBase { Params.default with regBase := 0x100 } ∧ Params.default.regBase + 256 ≤ 256 ∧
    (2 - Params.default.regBase) % 4 ≠ 0 := by decide

end Sys2Proof.Tests
end

/-! ## Frames: which part of the state each operation writes (10_state.md sections 2 to 4) -/

namespace Sys2Proof.Machine

/-- The parts of the state that the writers of 10_state.md are stated for. -/
inductive Part where
  /-- FREQ and NBYTES (R17, R18). -/
  | freq
  /-- NODE and ROOT (R19). -/
  | tree
  /-- PQ (R21). -/
  | queue
  /-- CODE (R22). -/
  | code
  /-- CUR and DSTATE (R23). -/
  | walk
  /-- The input position, BITS_IN and EOS (R34). -/
  | input
  /-- The data at the input port, and the data bound late (70_reset_and_hazards.md R141). -/
  | data
  /-- O and BITS_OUT (R35). -/
  | output
  /-- OUT_CLOSED. -/
  | closed
  | freqValid
  | treeValid
  | codeValid
  /-- CMD and DONE (R26). -/
  | latched
  | busy
  | overrun
  /-- ERR and ERR_INFO (R28). -/
  | error
  /-- What no command but CLEAR touches: the parameters, TBL_ADDR, and the host's side. -/
  | host

/-- The part is the same in both states. A rewind may bring late data into sight, so of the two places that hold input data the
host's side keeps what the port presents from a rewind on, and that none is bound late (R141; log entry 24). -/
def Part.Same (s t : State) : Part → Prop
  | .freq => t.freq = s.freq ∧ t.nbytes = s.nbytes
  | .tree => t.nodes = s.nodes ∧ t.root = s.root
  | .queue => t.pq = s.pq
  | .code => t.code = s.code
  | .walk => t.cur = s.cur ∧ t.status.dstate = s.status.dstate
  | .input => t.inPos = s.inPos ∧ t.bitsIn = s.bitsIn ∧ t.status.eos = s.status.eos
  | .data => t.inData = s.inData ∧ t.lateInput = s.lateInput
  | .output => t.out = s.out ∧ t.bitsOut = s.bitsOut
  | .closed => t.status.outClosed = s.status.outClosed
  | .freqValid => t.status.freqValid = s.status.freqValid
  | .treeValid => t.status.treeValid = s.status.treeValid
  | .codeValid => t.status.codeValid = s.status.codeValid
  | .latched => t.cmd = s.cmd ∧ t.status.done = s.status.done
  | .busy => t.status.busy = s.status.busy
  | .overrun => t.status.ovr = s.status.ovr
  | .error => t.status.err = s.status.err ∧ t.errInfo = s.errInfo
  | .host => t.params = s.params ∧ t.tblAddr = s.tblAddr ∧ t.token = s.token ∧ t.lag = s.lag ∧ t.hostOps = s.hostOps ∧
      t.hostReads = s.hostReads ∧ t.draws = s.draws ∧ t.secondPass = s.secondPass ∧
      (s.lateInput = none → t.lateInput = none)

theorem Part.Same.trans {s t u : State} {p : Part} (h : p.Same s t) (k : p.Same t u) : p.Same s u := by
  cases p <;> simp_all [Part.Same]

/-- From s to t only the listed parts changed; bits were only appended to the output, and BITS_OUT counts them
(20_memory.md R48); and a position inside the input data is still inside. -/
structure Frame (ps : List Part) (s t : State) : Prop where
  same : ∀ p, p ∉ ps → p.Same s t
  appends : ∃ bits, t.out = s.out ++ bits ∧ t.bitsOut = s.bitsOut + BitVec.ofNat 32 bits.length
  in_range : s.inPos ≤ 8 * s.inData.length → t.inPos ≤ 8 * t.inData.length

namespace Frame

variable {ps qs : List Part} {s t u : State}

/-- An update that names its fields and writes neither port: which parts it leaves can be read off. -/
theorem of_update
    (same : ∀ p, p ∉ ps → p.Same s t := by intro p hp; cases p <;> simp_all [Part.Same, State.secondPass])
    (out : t.out = s.out ∧ t.bitsOut = s.bitsOut := by exact ⟨rfl, rfl⟩)
    (pos : t.inPos = s.inPos ∧ t.inData = s.inData := by exact ⟨rfl, rfl⟩) : Frame ps s t :=
  ⟨same, ⟨[], by simp [out]⟩, by rw [pos.1, pos.2]; exact id⟩

theorem refl (ps : List Part) (s : State) : Frame ps s s := .of_update

theorem trans (h : Frame ps s t) (k : Frame ps t u) : Frame ps s u where
  same p hp := (h.same p hp).trans (k.same p hp)
  appends := by
    obtain ⟨a, ha, na⟩ := h.appends
    obtain ⟨b, hb, nb⟩ := k.appends
    exact ⟨a ++ b, by rw [hb, ha, List.append_assoc], by rw [nb, na, List.length_append, BitVec.ofNat_add, BitVec.add_assoc]⟩
  in_range := k.in_range ∘ h.in_range

theorem mono (h : Frame ps s t) (hs : ps ⊆ qs) : Frame qs s t :=
  ⟨fun p hp => h.same p (fun hps => hp (hs hps)), h.appends, h.in_range⟩

end Frame

/-! ### The shared operations -/

theorem inRead_frame (n : Nat) (s : State) : Frame [.input] s (inRead n s).2 where
  same p hp := by
    rcases inRead_cases n s with ⟨_, e⟩ | ⟨_, e⟩ <;> rw [e] <;> cases p <;> simp_all [Part.Same, State.secondPass]
  appends := ⟨[], by simp⟩
  in_range _ := inRead_in_range n s

/-- The state InRead answers, as a `match` on its answer names it. -/
theorem frame_of_inRead {n : Nat} {s t : State} {v : Option Nat} (h : inRead n s = (v, t)) : Frame [.input] s t := by
  simpa [h] using inRead_frame n s

theorem nodes_of_inRead {n : Nat} {s t : State} {v : Option Nat} (h : inRead n s = (v, t)) : t.nodes = s.nodes :=
  ((frame_of_inRead h).same .tree (by simp)).1

theorem inReset_frame (s : State) : Frame [.input, .data] s (inReset s) where
  same p hp := by cases p <;> simp_all [Part.Same]
  appends := ⟨[], by simp⟩
  in_range _ := Nat.zero_le _

theorem outWrite_frame (str : Bits) (s : State) : Frame [.output] s (outWrite str s) where
  same p hp := by cases p <;> simp_all [Part.Same, State.secondPass]
  appends := ⟨str, rfl, rfl⟩
  in_range := id

theorem outClose_frame (s : State) : Frame [.output, .closed] s (outClose s) where
  same p hp := by cases p <;> simp_all [Part.Same, State.secondPass]
  appends := ⟨_, rfl, rfl⟩
  in_range := id

theorem complete_frame (s : State) : Frame [.latched, .busy] s (complete s) :=
  .of_update

theorem recordFault_frame (c : ErrCode) (info : Word) (s : State) : Frame [.busy, .error] s (recordFault c info s) :=
  .of_update

theorem accept_frame (op : Op) (s : State) : Frame [.latched, .busy] s (accept op s) :=
  .of_update

theorem dropBusy_frame (s : State) : Frame [.overrun] s (dropBusy s) :=
  .of_update

/-- Only a reader of the input has BITS_IN and EOS zeroed (40_control.md R80). -/
theorem startReading_frame {ps : List Part} (op : Op) (s : State) (h : readsInput op = true → .input ∈ ps) :
    Frame ps s (startReading op s) := by
  unfold startReading
  split
  · exact Frame.mono (ps := [.input])
      (.of_update) (by simp [h ‹_›])
  · exact .refl _ _

/-! ### The commands' pseudocode -/

/-- The error codes that a command's pseudocode can raise: SEQUENCE and ILLEGAL_CMD are raised before it starts (60_exceptions.md
R117). -/
abbrev ErrCode.FromBody (c : ErrCode) : Prop := c ≠ .none ∧ c ≠ .illegalCmd ∧ c ≠ .sequence

/-- However the run that began in s ends, completed or raised, only the listed parts changed. -/
def Run.Confined {α : Type} (ps : List Part) (s : State) : Run α → Prop
  | .ok _ t => Frame ps s t
  | .raised c _ t => c.FromBody ∧ Frame ps s t
  | .stuck _ => True

namespace Run.Confined

variable {α β : Type} {ps qs : List Part} {s u : State} {r : Run α}

theorem after (h : Frame ps s u) (hr : r.Confined ps u) : r.Confined ps s := by
  cases r with
  | ok a t => exact Frame.trans h hr
  | raised c w t => exact ⟨hr.1, h.trans hr.2⟩
  | stuck e => trivial

theorem mono (hr : r.Confined ps s) (hs : ps ⊆ qs) : r.Confined qs s := by
  cases r with
  | ok a t => exact Frame.mono hr hs
  | raised c w t => exact ⟨hr.1, hr.2.mono hs⟩
  | stuck e => trivial

theorem bind {f : α → State → Run β} (hr : r.Confined ps s) (hf : ∀ a t, (f a t).Confined ps t) :
    (r.bind f).Confined ps s := by
  cases r with
  | ok a t => exact after hr (hf a t)
  | raised c w t => exact hr
  | stuck e => trivial

theorem closing {close : State → State} (hr : r.Confined ps s) (hc : ∀ t, Frame ps t (close t)) :
    (r.closing close).Confined ps s := by
  cases r with
  | ok a t => exact Frame.trans hr (hc t)
  | raised c w t => exact ⟨hr.1, hr.2.trans (hc t)⟩
  | stuck e => trivial

end Run.Confined

theorem emitCode_confined (sym : Nat) (s : State) : (emitCode sym s).Confined [.output] s := by
  rcases emitCode_cases sym s with ⟨_, e⟩ | ⟨_, e⟩ <;> rw [e]
  · exact outWrite_frame _ _
  · exact ⟨by decide, .refl _ _⟩

theorem countUnit_confined (u : Nat) (s : State) : (countUnit u s).Confined [.freq] s := by
  unfold countUnit
  split
  · exact ⟨by decide, .refl _ _⟩
  · exact .of_update

theorem countLoop_confined (bound : Nat) (s : State) : (countLoop bound s).Confined [.freq, .input] s := by
  induction bound generalizing s with
  | zero => trivial
  | succ bound ih =>
    unfold countLoop
    split
    · exact (frame_of_inRead ‹_›).mono (by simp)
    · exact .after ((frame_of_inRead ‹_›).mono (by simp)) (.bind ((countUnit_confined _ _).mono (by simp)) fun _ t => ih t)

/-- What COUNT writes (41_frequency.md R86). -/
abbrev countParts : List Part := [.freq, .input, .freqValid, .treeValid, .codeValid]

theorem countBody_confined (s : State) : (countBody s).Confined countParts s := by
  have start : Frame countParts s (countStart s) := by
    unfold countStart; exact .of_update
  refine .bind (.after start ((countLoop_confined _ _).mono (by simp))) fun _ t => ?_
  exact .of_update

theorem newLeaf_frame (v w : Nat) (s : State) : Frame [.tree, .queue] s (newLeaf v w s) := by
  unfold newLeaf; exact .of_update

theorem newInternal_frame (a b : Nat) (s : State) : Frame [.tree, .queue] s (newInternal a b s) := by
  unfold newInternal; exact .of_update

theorem addLeaves_frame (ws : List Nat) (v : Nat) (s : State) : Frame [.tree, .queue] s (addLeaves ws v s) := by
  induction ws generalizing v s with
  | nil => exact .refl _ _
  | cons w ws ih =>
    unfold addLeaves
    split
    · exact (newLeaf_frame v w s).trans (ih _ _)
    · exact ih _ _

/-- PopMin takes an element from the queue and changes nothing else (42_tree_builder.md R89, R91). -/
theorem popMin_eq_some {s t : State} {i : Nat} (h : popMin s = some (i, t)) :
    least s s.pq = some i ∧ t = { s with pq := s.pq.erase i } := by
  obtain ⟨j, hj, e⟩ := Option.map_eq_some_iff.mp h
  cases e
  exact ⟨hj, rfl⟩

theorem popMin_frame {s t : State} {i : Nat} (h : popMin s = some (i, t)) : Frame [.queue] s t := by
  rw [(popMin_eq_some h).2]
  exact .of_update

theorem mergeLoop_frame (bound : Nat) (s : State) : Frame [.tree, .queue] s (mergeLoop bound s) := by
  induction bound generalizing s with
  | zero => exact .refl _ _
  | succ bound ih =>
    unfold mergeLoop
    split
    · exact .refl _ _
    · split
      · exact .refl _ _
      · have pops := (popMin_frame ‹popMin s = _›).trans (popMin_frame ‹_›)
        exact ((pops.mono (by simp)).trans (newInternal_frame _ _ _)).trans (ih _)

/-- What BUILD writes (42_tree_builder.md R89). -/
abbrev buildParts : List Part := [.tree, .queue, .treeValid, .codeValid]

/-- BUILD's first writes: an empty arena, an empty queue, and neither tree nor code table valid. -/
def buildStart (s : State) : State :=
  { s with nodes := [], pq := [], status := { s.status with treeValid := false, codeValid := false } }

theorem buildLeaves_eq (s : State) :
    buildLeaves s = newLeaf Config.sentinel 1 (addLeaves s.freq.entries 0 (buildStart s)) := rfl

/-- Queueing the leaves writes the arena and the queue only. -/
theorem buildLeaves_frame_start (s : State) : Frame [.tree, .queue] (buildStart s) (buildLeaves s) :=
  (addLeaves_frame _ _ _).trans (newLeaf_frame _ _ _)

theorem buildLeaves_frame (s : State) : Frame buildParts s (buildLeaves s) := by
  have start : Frame buildParts s (buildStart s) := by unfold buildStart; exact .of_update
  exact start.trans ((buildLeaves_frame_start s).mono (by simp))

theorem buildBody_confined (s : State) : (buildBody s).Confined buildParts s := by
  unfold buildBody
  simp only
  split
  · trivial
  · rename_i r u hpop
    have built : Frame buildParts s u :=
      ((buildLeaves_frame s).trans ((mergeLoop_frame _ _).mono (by simp))).trans ((popMin_frame hpop).mono (by simp))
    exact built.trans .of_update

theorem deriveBody_confined (s : State) : (deriveBody s).Confined [.code, .codeValid] s := by
  unfold deriveBody
  split
  · trivial
  · exact .of_update

theorem wrMagicBody_confined (s : State) : (wrMagicBody s).Confined [.output] s := outWrite_frame _ _

theorem wrHeaderBody_confined (s : State) : (wrHeaderBody s).Confined [.output] s := by
  unfold wrHeaderBody
  split
  · trivial
  · rw [ser_eq]; exact outWrite_frame _ _

theorem rdMagicBody_confined (s : State) : (rdMagicBody s).Confined [.input] s := by
  unfold rdMagicBody
  split
  · exact ⟨by decide, frame_of_inRead ‹_›⟩
  · split
    · exact ⟨by decide, frame_of_inRead ‹_›⟩
    · exact frame_of_inRead ‹_›

theorem alloc_confined (nd : Node) (s : State) : (alloc nd s).Confined [.tree] s := by
  unfold alloc
  split
  · exact ⟨by decide, .refl _ _⟩
  · exact .of_update

theorem setChildren_frame (i l r : Nat) (s : State) : Frame [.tree] s (setChildren i l r s) := by
  unfold setChildren; exact .of_update

theorem des_confined (bound : Nat) (s : State) : (des bound s).Confined [.tree, .input] s := by
  induction bound generalizing s with
  | zero => trivial
  | succ bound ih =>
    unfold des
    split
    · exact ⟨by decide, (frame_of_inRead ‹_›).mono (by simp)⟩
    · refine .after ((frame_of_inRead ‹_›).mono (by simp)) ?_
      split
      · split
        · exact ⟨by decide, (frame_of_inRead ‹_›).mono (by simp)⟩
        · refine .after ((frame_of_inRead ‹_›).mono (by simp)) ?_
          split
          · exact ⟨by decide, .refl _ _⟩
          · exact (alloc_confined _ _).mono (by simp)
      · refine .bind ((alloc_confined _ _).mono (by simp)) fun i u => .bind (ih u) fun l u' => .bind (ih u') fun r u'' => ?_
        exact (setChildren_frame i l r u'').mono (by simp)

/-- What RD_HEADER writes (44_header_codec.md R102). -/
abbrev rdHeaderParts : List Part := [.tree, .input, .treeValid, .codeValid]

/-- RD_HEADER's first writes: an empty arena, and neither tree nor code table valid. -/
def rdHeaderStart (s : State) : State :=
  { s with nodes := [], status := { s.status with treeValid := false, codeValid := false } }

theorem rdHeaderBody_eq (s : State) : rdHeaderBody s = (des (Config.nodeCap + 1) (rdHeaderStart s)).bind
    fun r t => .ok () { t with root := r, status := { t.status with treeValid := true } } := rfl

theorem rdHeaderStart_frame (s : State) : Frame [.tree, .treeValid, .codeValid] s (rdHeaderStart s) := by
  unfold rdHeaderStart; exact .of_update

theorem rdHeaderBody_confined (s : State) : (rdHeaderBody s).Confined rdHeaderParts s := by
  rw [rdHeaderBody_eq]
  refine .bind (.after ((rdHeaderStart_frame s).mono (by simp)) ((des_confined _ _).mono (by simp))) fun _ t => ?_
  exact .of_update

theorem encodeLoop_confined (bound : Nat) (s : State) : (encodeLoop bound s).Confined [.input, .output] s := by
  induction bound generalizing s with
  | zero => trivial
  | succ bound ih =>
    unfold encodeLoop
    split
    · exact (frame_of_inRead ‹_›).mono (by simp)
    · exact .after ((frame_of_inRead ‹_›).mono (by simp)) (.bind ((emitCode_confined _ _).mono (by simp)) fun _ t => ih t)

/-- What ENCODE writes (45_payload_codec.md R105). -/
abbrev encodeParts : List Part := [.input, .data, .output]

theorem encodeBody_confined (s : State) : (encodeBody s).Confined encodeParts s :=
  .bind (.after ((inReset_frame s).mono (by simp)) ((encodeLoop_confined _ _).mono (by simp)))
    fun _ _ => (emitCode_confined _ _).mono (by simp)

/-- What DECODE writes (45_payload_codec.md R107). -/
abbrev decodeParts : List Part := [.walk, .input, .output]

/-- One move of the walk (10_state.md R23). -/
theorem walk_frame (s : State) (c : Nat) (d : DState) :
    Frame [.walk] s { s with cur := c, status := { s.status with dstate := d } } :=
  .of_update

theorem decodeLoop_confined (bound : Nat) (s : State) : (decodeLoop bound s).Confined decodeParts s := by
  induction bound generalizing s with
  | zero => trivial
  | succ bound ih =>
    unfold decodeLoop
    split
    · exact ⟨by decide, (frame_of_inRead ‹_›).mono (by simp)⟩
    · rename_i b t hread
      refine .after ((frame_of_inRead hread).mono (by simp)) ?_
      split
      · trivial
      · simp only
        split
        · trivial
        · split
          · split
            · exact (walk_frame _ _ _).mono (by simp)
            · exact .after (((outWrite_frame _ t).mono (by simp)).trans ((walk_frame _ _ _).mono (by simp))) (ih _)
          · exact .after ((walk_frame _ _ _).mono (by simp)) (ih _)

theorem decodeBody_confined (s : State) : (decodeBody s).Confined decodeParts s := by
  have start : Frame decodeParts s { s with cur := s.root, status := { s.status with dstate := .atRoot } } :=
    (walk_frame s _ _).mono (by simp)
  unfold decodeBody
  refine .after start ?_
  simp only
  split
  · trivial
  · split
    · split
      · exact (walk_frame _ _ .done).mono (by simp)
      · exact ⟨by decide, .refl _ _⟩
    · exact decodeLoop_confined _ _

/-! ### Every command and token -/

/-- What runs when a command is accepted and its precondition holds. -/
def opBody : Op → State → Run Unit
  | .compress => compressBody
  | .decompress => decompressBody
  | op => unclosedBody op

theorem exec_eq_command (op : Op) (s : State) : exec op.instr s = command op (opBody op) s := by
  rw [exec_op]; cases op <;> rfl

/-- The parts that an accepted command other than CLEAR writes. -/
def opParts : Op → List Part
  | .nop => []
  | .clear => []
  | .count => countParts
  | .build => buildParts
  | .derive => [.code, .codeValid]
  | .wrMagic => [.output]
  | .wrHeader => [.output]
  | .encode => encodeParts
  | .closeOut => [.output, .closed]
  | .rdMagic => [.input]
  | .rdHeader => rdHeaderParts
  | .decode => decodeParts
  | .compress => countParts ++ buildParts ++ [.code] ++ encodeParts ++ [.closed]
  | .decompress => rdHeaderParts ++ decodeParts ++ [.closed]

theorem compressBody_confined (s : State) : (compressBody s).Confined (opParts .compress) s := by
  refine .closing ?_ fun t => (outClose_frame t).mono (by simp [opParts])
  refine .bind ((countBody_confined _).mono (by simp [opParts])) fun _ s1 => ?_
  refine .bind ((buildBody_confined _).mono (by simp [opParts])) fun _ s2 => ?_
  refine .bind ((deriveBody_confined _).mono (by simp [opParts])) fun _ s3 => ?_
  refine .bind ((wrMagicBody_confined _).mono (by simp [opParts])) fun _ s4 => ?_
  refine .bind ((wrHeaderBody_confined _).mono (by simp [opParts])) fun _ s5 => ?_
  exact (encodeBody_confined _).mono (by simp [opParts])

theorem decompressBody_confined (s : State) : (decompressBody s).Confined (opParts .decompress) s := by
  refine .closing ?_ fun t => (outClose_frame t).mono (by simp [opParts])
  refine .bind ((rdMagicBody_confined _).mono (by simp [opParts])) fun _ s1 => ?_
  refine .bind ((rdHeaderBody_confined _).mono (by simp [opParts])) fun _ s2 => ?_
  exact (decodeBody_confined _).mono (by simp [opParts])

theorem body_confined {op : Op} (h : op ≠ .clear) (s : State) : (opBody op s).Confined (opParts op) s := by
  cases op with
  | nop => exact Frame.refl _ _
  | clear => exact absurd rfl h
  | count => exact countBody_confined s
  | build => exact buildBody_confined s
  | derive => exact deriveBody_confined s
  | wrMagic => exact wrMagicBody_confined s
  | wrHeader => exact wrHeaderBody_confined s
  | encode => exact encodeBody_confined s
  | closeOut => exact outClose_frame s
  | rdMagic => exact rdMagicBody_confined s
  | rdHeader => exact rdHeaderBody_confined s
  | decode => exact decodeBody_confined s
  | compress => exact compressBody_confined s
  | decompress => exact decompressBody_confined s

theorem input_mem_parts {op : Op} (h : readsInput op = true) : .input ∈ opParts op := by
  revert h; cases op <;> simp [readsInput, opParts]

end Sys2Proof.Machine

namespace Sys2Proof.Machine

/-- An instruction is a command or a stream token (30_encoding.md R63). -/
theorem instr_cases (i : Instr) : (∃ op : Op, i = op.instr) ∨ ∃ part, streamPart i = some part := by
  cases i with
  | nop => exact .inl ⟨.nop, rfl⟩
  | clear => exact .inl ⟨.clear, rfl⟩
  | count => exact .inl ⟨.count, rfl⟩
  | build => exact .inl ⟨.build, rfl⟩
  | derive => exact .inl ⟨.derive, rfl⟩
  | wrMagic => exact .inl ⟨.wrMagic, rfl⟩
  | wrHeader => exact .inl ⟨.wrHeader, rfl⟩
  | encode => exact .inl ⟨.encode, rfl⟩
  | closeOut => exact .inl ⟨.closeOut, rfl⟩
  | rdMagic => exact .inl ⟨.rdMagic, rfl⟩
  | rdHeader => exact .inl ⟨.rdHeader, rfl⟩
  | decode => exact .inl ⟨.decode, rfl⟩
  | compress => exact .inl ⟨.compress, rfl⟩
  | decompress => exact .inl ⟨.decompress, rfl⟩
  | magic => exact .inr ⟨_, rfl⟩
  | hdrInternal => exact .inr ⟨_, rfl⟩
  | hdrLeaf v => exact .inr ⟨_, rfl⟩
  | codeWord sym => exact .inr ⟨_, rfl⟩
  | pad n => exact .inr ⟨_, rfl⟩
  | inputUnit u => exact .inr ⟨_, rfl⟩

/-- The parts that an instruction other than CLEAR writes: for a command those of its acceptance, drop or end, and of its
body (40_control.md R80); for a token those of its crossing. -/
def instrParts (i : Instr) : List Part :=
  match i.op? with
  | some op => [.overrun, .latched, .busy, .error] ++ opParts op
  | none =>
    match streamPart i with
    | some .unit => [.input]
    | _ => [.output, .busy, .error]

@[simp] theorem instrParts_instr (op : Op) : instrParts op.instr = [.overrun, .latched, .busy, .error] ++ opParts op := by
  cases op <;> rfl

/-- What an instruction other than CLEAR can do that ended in a next state: it writes its own parts only; offered to an idle
block it leaves BUSY = 0 and sets no OVR; and it writes ERR_INFO only with an error. -/
structure Effect (ps : List Part) (s t : State) : Prop where
  frame : Frame ps s t
  idle : s.status.busy = false → t.status.busy = false ∧ t.status.ovr = s.status.ovr
  info : t.errInfo ≠ s.errInfo → t.status.err ≠ ErrCode.none

theorem command_effect {op : Op} {ps : List Part} {body : State → Run Unit} {s t : State}
    (h : command op body s = .next t) (hbody : ∀ u, (body u).Confined ps u) (hin : readsInput op = true → .input ∈ ps)
    (hovr : .overrun ∉ ps) (herr : .error ∉ ps) : Effect ([.overrun, .latched, .busy, .error] ++ ps) s t := by
  have accepted : Frame ([.overrun, .latched, .busy, .error] ++ ps) s (accept op s) := (accept_frame op s).mono (by simp)
  rcases command_cases op body s with ⟨hb, e⟩ | ⟨hb, _, _, e⟩ | ⟨hb, _, _, e⟩ | ⟨hb, _, _, e⟩ <;> rw [e] at h
  · cases h
    exact ⟨(dropBusy_frame s).mono (by simp), fun hi => by simp [hb] at hi, fun hn => absurd rfl hn⟩
  · cases h
    exact ⟨.refl _ _, fun hi => ⟨hi, rfl⟩, fun hn => absurd rfl hn⟩
  · cases h
    exact ⟨accepted.trans ((recordFault_frame _ _ _).mono (by simp)), fun _ => ⟨rfl, rfl⟩, fun _ => by simp⟩
  · have start : Frame ps (accept op s) (startReading op (accept op s)) := startReading_frame op _ hin
    have run := hbody (startReading op (accept op s))
    rcases settle_eq_next.mp h with ⟨u, hr, rfl⟩ | ⟨c, w, u, hr, rfl⟩ <;> rw [hr] at run
    · have ran : Frame ps (accept op s) u := start.trans run
      exact ⟨(accepted.trans (ran.mono (List.subset_append_right _ _))).trans ((complete_frame u).mono (by simp)),
        fun _ => ⟨rfl, ran.same .overrun hovr⟩, fun hn => absurd (ran.same .error herr).2 hn⟩
    · have ran : Frame ps (accept op s) u := start.trans run.2
      exact ⟨(accepted.trans (ran.mono (List.subset_append_right _ _))).trans ((recordFault_frame c w u).mono (by simp)),
        fun _ => ⟨rfl, ran.same .overrun hovr⟩, fun _ => run.1.1⟩

theorem emit_effect {write : State → Run Unit} {s t : State} (h : emit write s = .next t)
    (hw : (write s).Confined [.output] s) : Effect [.output, .busy, .error] s t := by
  rcases emit_cases write s with ⟨_, e⟩ | ⟨_, u, hu, e⟩ | ⟨_, c, w, u, hu, e⟩ | ⟨_, f, _, e⟩ <;> rw [e] at h <;> cases h
  · rw [hu] at hw
    exact ⟨Frame.mono hw (by simp), fun hi => ⟨Eq.trans (hw.same .busy (by simp)) hi, hw.same .overrun (by simp)⟩,
      fun hn => absurd (hw.same .error (by simp)).2 hn⟩
  · rw [hu] at hw
    exact ⟨(hw.2.mono (by simp)).trans ((recordFault_frame c w u).mono (by simp)),
      fun _ => ⟨rfl, hw.2.same .overrun (by simp)⟩, fun _ => hw.1.1⟩

theorem execInputUnit_effect {u : Byte} {s t : State} (h : execInputUnit u s = .next t) : Effect [.input] s t := by
  have read : Frame [.input] s t := by
    unfold execInputUnit at h
    split at h
    · rename_i v r hr
      split at h
      · cases h; exact frame_of_inRead hr
      · cases h
    · cases h
  exact ⟨read, fun hi => ⟨Eq.trans (read.same .busy (by simp)) hi, read.same .overrun (by simp)⟩,
    fun hn => absurd (read.same .error (by simp)).2 hn⟩

theorem exec_op_effect {op : Op} {s t : State} (h : exec op.instr s = .next t) (hc : op ≠ .clear) :
    Effect (instrParts op.instr) s t := by
  rw [exec_eq_command] at h
  rw [instrParts_instr]
  exact command_effect h (body_confined hc) input_mem_parts (by cases op <;> simp [opParts]) (by cases op <;> simp [opParts])

theorem exec_effect {i : Instr} {s t : State} (h : exec i s = .next t) (hc : i ≠ .clear) : Effect (instrParts i) s t := by
  rcases instr_cases i with ⟨op, rfl⟩ | ⟨part, hp⟩
  · exact exec_op_effect h (fun e => hc (e ▸ rfl))
  · cases i with
    | magic => exact emit_effect (write := fun u => .ok () (emitMagic u)) h (outWrite_frame _ s)
    | hdrInternal => exact emit_effect (write := fun u => .ok () (emitInternal u)) h (outWrite_frame _ s)
    | hdrLeaf v =>
      refine emit_effect (write := fun u => .ok () (emitLeaf v.toNat u)) h ?_
      rw [emitLeaf_eq]
      exact outWrite_frame _ s
    | codeWord sym => exact emit_effect h (emitCode_confined _ s)
    | pad n => exact emit_effect (write := fun u => .ok () (outWrite (List.replicate n false) u)) h (outWrite_frame _ s)
    | inputUnit u => exact execInputUnit_effect h
    | _ => cases hp

/-- What an instruction does not write is as it was. -/
theorem exec_same {i : Instr} {s t : State} (h : exec i s = .next t) (hc : i ≠ .clear) (p : Part) (hp : p ∉ instrParts i) :
    p.Same s t :=
  (exec_effect h hc).frame.same p hp

/-- Settles O51: each array stands in the parts of its writers only. -/
theorem datapathWriters : Obligations.DatapathWriters := by
  intro i s t h hc
  refine ⟨fun _ _ => exec_same h hc .freq ?_, fun _ _ _ _ => exec_same h hc .tree ?_, fun _ _ => exec_same h hc .queue ?_,
    fun _ _ => exec_same h hc .code ?_, fun _ _ => exec_same h hc .walk ?_⟩
  all_goals cases i <;> simp_all [instrParts, Instr.op?, opParts, streamPart]

/-- Settles O52: the ports stand in the parts of their users only, and every frame appends. -/
theorem portWriters : Obligations.PortWriters := by
  intro i s t h hc
  refine ⟨fun _ _ _ _ _ _ _ _ => exec_same h hc .input ?_, (exec_effect h hc).frame.appends,
    fun _ => exec_same h hc .output ?_⟩
  all_goals cases i <;> simp_all [instrParts, Instr.op?, opParts, streamPart]

/-- Settles O53: the flags stand in the parts of their writers only; OVR, BUSY and ERR_INFO by what an instruction's end does. -/
theorem flagWriters : Obligations.FlagWriters := by
  intro i s t h hc
  refine ⟨fun _ _ => exec_same h hc .freqValid ?_, fun _ _ _ _ _ => exec_same h hc .treeValid ?_,
    fun _ _ _ _ _ _ => exec_same h hc .codeValid ?_, fun _ _ _ => exec_same h hc .closed ?_,
    fun hi => ((exec_effect h hc).idle hi).symm, (exec_effect h hc).info, fun _ => exec_same h hc .latched ?_⟩
  all_goals cases i <;> simp_all [instrParts, Instr.op?, opParts, streamPart]

end Sys2Proof.Machine

/-! ## Trees in the arena: what RD_HEADER, BUILD and DERIVE make of it -/

namespace Sys2Proof.Machine

/-! ### The arena of a tree (10_state.md R19, 44_header_codec.md R102) -/

theorem treeAt_leaf {nodes : List Node} {n v : Nat} {nd : Node} (hn : nodes[n]? = some nd) (hleaf : nd.isLeaf = true)
    (hv : nd.value = v) (hle : v ≤ Config.sentinel) (fuel : Nat) : treeAt nodes (fuel + 1) n = some (.leaf v) := by
  subst hv
  simp [treeAt, hn, hleaf, hle]

theorem treeAt_node {nodes : List Node} {fuel n : Nat} {nd : Node} {l r : Tree} (hn : nodes[n]? = some nd)
    (hleaf : nd.isLeaf = false) (hl : treeAt nodes fuel nd.left = some l) (hr : treeAt nodes fuel nd.right = some r) :
    treeAt nodes (fuel + 1) n = some (.node l r) := by
  simp [treeAt, hn, hleaf, hl, hr]

/-- Wherever a tree's entries stand in an arena, the tree is read from there. -/
theorem treeAt_arena {t : Tree} (hv : ∀ v ∈ t.leaves, v ≤ Config.sentinel) {fuel base : Nat} (hf : t.size ≤ fuel)
    {pre : List Node} (hb : pre.length = base) (post : List Node) :
    treeAt (pre ++ t.arena base ++ post) fuel base = some t := by
  subst hb
  induction t generalizing fuel pre post with
  | leaf v =>
    obtain ⟨k, rfl⟩ : ∃ k, fuel = k + 1 := Nat.exists_eq_add_one.mpr hf
    exact treeAt_leaf (nd := { isLeaf := true, value := v, weight := 0, left := 0, right := 0 }) (by simp [Tree.arena]) rfl rfl
      (hv v (by simp [Tree.leaves])) k
  | node l r ihl ihr =>
    simp only [Tree.leaves, List.mem_append] at hv
    rw [Tree.size] at hf
    obtain ⟨k, rfl⟩ : ∃ k, fuel = k + 1 := Nat.exists_eq_add_one.mpr (by omega)
    refine treeAt_node (by simp [Tree.arena]; rfl) rfl ?_ ?_
    · have h := ihl (fun v h => hv v (.inl h)) (fuel := k) (by omega) (pre := pre ++ (Tree.arena pre.length (.node l r)).take 1)
        (r.arena (pre.length + 1 + l.size) ++ post)
      simpa [Tree.arena] using h
    · have h := ihr (fun v h => hv v (.inr h)) (fuel := k) (by omega)
        (pre := pre ++ (Tree.arena pre.length (.node l r)).take 1 ++ l.arena (pre.length + 1)) post
      simpa [Tree.arena, ← Nat.add_assoc, Nat.add_right_comm _ l.size 1] using h

/-- An arena that holds a tree's entries and nothing else holds that tree. -/
theorem tree_of_arena {s : State} {t : Tree} (hv : ∀ v ∈ t.leaves, v ≤ Config.sentinel) (hn : s.nodes = t.arena 0)
    (hr : s.root = 0) : s.tree = some t := by
  have h := treeAt_arena hv (le_refl t.size) (pre := []) rfl []
  rw [State.tree, hn, hr, Tree.arena_length]
  simpa using h

theorem alloc_eq_ok {nd : Node} {s t : State} {i : Nat} (h : alloc nd s = .ok i t) :
    s.nodes.length ≠ Config.nodeCap ∧ i = s.nodes.length ∧ t = { s with nodes := s.nodes ++ [nd] } := by
  unfold alloc at h
  split at h
  · cases h
  · cases h; exact ⟨‹_›, rfl, rfl⟩

/-- Des(), completed, has allocated the entries of one tree, in pre-order, and answers its root (44_header_codec.md R102). -/
theorem des_eq_ok {bound : Nat} {s t : State} {i : Nat} (h : des bound s = .ok i t) :
    i = s.nodes.length ∧
      ∃ tree : Tree, (∀ v ∈ tree.leaves, v ≤ Config.sentinel) ∧ t.nodes = s.nodes ++ tree.arena s.nodes.length := by
  induction bound generalizing s t i with
  | zero => cases h
  | succ bound ih =>
    unfold des at h
    split at h
    · cases h
    · rename_i b u hread
      have hu : u.nodes = s.nodes := nodes_of_inRead hread
      split at h
      · split at h
        · cases h
        · rename_i v w hleaf
          have hw : w.nodes = s.nodes := (nodes_of_inRead hleaf).trans hu
          split at h
          · cases h
          · obtain ⟨-, hi, rfl⟩ := alloc_eq_ok h
            refine ⟨by rw [hi, hw], .leaf v, by simpa [Tree.leaves] using ‹¬ v > _›, ?_⟩
            rw [hw]; rfl
      · obtain ⟨j, u1, halloc, h⟩ := Run.bind_eq_ok.mp h
        obtain ⟨l, u2, hl, h⟩ := Run.bind_eq_ok.mp h
        obtain ⟨r, u3, hr, h⟩ := Run.bind_eq_ok.mp h
        cases h
        obtain ⟨-, hj, halloc⟩ := alloc_eq_ok halloc
        obtain ⟨rfl, tl, hvl, nl⟩ := ih hl
        obtain ⟨rfl, tr, hvr, nr⟩ := ih hr
        rw [halloc, hu] at nl
        refine ⟨by rw [hj, hu], .node tl tr, by simpa [Tree.leaves, or_imp, forall_and] using ⟨hvl, hvr⟩, ?_⟩
        simp [setChildren, nr, nl, hj, hu, halloc, Tree.arena, List.modify_eq_take_drop, Nat.add_assoc, Nat.add_comm 1]

/-! ### Codes (43_code_table.md R96) -/

/-- A leaf lies less deep than there are leaves. -/
theorem lastPath_length {t : Tree} {v : Nat} {path : Bits} (h : t.lastPath v = some path) :
    path.length < t.leaves.length := by
  have pos (u : Tree) : 0 < u.leaves.length := by have := u.size_add_one; omega
  induction t generalizing path with
  | leaf w =>
    unfold Tree.lastPath at h
    split at h
    · cases h; exact pos _
    · cases h
  | node l r ihl ihr =>
    have hl := pos l
    have hr := pos r
    unfold Tree.lastPath at h
    simp only [Tree.leaves, List.length_append]
    split at h
    · rename_i p hp
      cases h
      have := ihr hp
      simp only [List.length_cons]; omega
    · obtain ⟨p, hp, rfl⟩ := Option.map_eq_some_iff.mp h
      have := ihl hp
      simp only [List.length_cons]; omega

theorem entry_length (t : Tree) (v : Nat) : (t.entry v).bits.length < t.leaves.length := by
  have := t.size_add_one
  unfold Tree.entry
  split
  · exact lastPath_length ‹_›
  · simp only [CodeEntry.unset, List.length_nil]; omega

theorem entry_bits_of_not_valid {t : Tree} {v : Nat} (h : (t.entry v).valid = false) : (t.entry v).bits = [] := by
  unfold Tree.entry at h ⊢
  split at h
  · cases h
  · rfl

/-- Walk() writes the last path to each symbol's leaf, and leaves the entries of symbols without a leaf. -/
theorem walk_get? (t : Tree) (path : Bits) (code : Table CodeEntry 257) {v : Nat} (hv : v < 257) :
    (walk t path code).get? v =
      ((t.lastPath v).map fun p => { valid := true, bits := path ++ p }).or (code.get? v) := by
  induction t generalizing path code with
  | leaf w =>
    rw [walk, Table.get?_set, Tree.lastPath]
    by_cases h : w = v <;> simp [h, hv]
  | node l r ihl ihr =>
    rw [walk, ihr, ihl, Tree.lastPath]
    cases r.lastPath v <;> cases l.lastPath v <;> simp

/-- The code table DERIVE makes is that of the tree. -/
theorem codeEntry_walk {s : State} {t : Tree} (h : s.code = walk t [] (Table.fill 257 CodeEntry.unset)) {v : Nat}
    (hv : v < Config.nsym) : s.codeEntry v = t.entry v := by
  rw [State.codeEntry, h, walk_get? t [] _ hv, Tree.entry]
  cases t.lastPath v <;> simp [hv]

theorem codeEntry_of_ge (s : State) {v : Nat} (hv : Config.nsym ≤ v) : s.codeEntry v = CodeEntry.unset := by
  simp [State.codeEntry, Table.get?_ge s.code hv]

/-! ### The forest BUILD grows (42_tree_builder.md R89 to R94) -/

/-- How many nodes the tree below a node of the arena has. -/
def sizeBelow (nodes : List Node) (i : Nat) : Nat := ((treeAt nodes nodes.length i).map Tree.size).getD 0

theorem sizeBelow_of_treeAt {nodes : List Node} {i : Nat} {t : Tree} (h : treeAt nodes nodes.length i = some t) :
    sizeBelow nodes i = t.size := by simp [sizeBelow, h]

/-- The queued nodes are the roots of trees that together are the whole arena. -/
structure Forest (nodes : List Node) (queue : List Nat) : Prop where
  trees : ∀ i ∈ queue, ∃ t, treeAt nodes nodes.length i = some t
  covers : (queue.map (sizeBelow nodes)).sum = nodes.length

theorem Forest.nil : Forest [] [] := ⟨by simp, rfl⟩

theorem Forest.perm {nodes : List Node} {p q : List Nat} (h : Forest nodes p) (hpq : p.Perm q) : Forest nodes q :=
  ⟨fun i hi => h.trees i (hpq.mem_iff.mpr hi), ((hpq.map _).sum_eq).symm.trans h.covers⟩

/-- A tree that was found stays where it is when the arena takes one more entry. -/
theorem treeAt_push {nodes : List Node} {i : Nat} {t : Tree} (h : treeAt nodes nodes.length i = some t) (nd : Node) :
    treeAt (nodes ++ [nd]) (nodes ++ [nd]).length i = some t := by
  simpa using treeAt_mono (more := [nd]) (extra := 1) h

/-- The arena takes the root of one more tree, whose subtrees have left the queue. -/
theorem Forest.push {nodes : List Node} {nd : Node} {queue : List Nat} {t : Tree}
    (htrees : ∀ i ∈ queue, ∃ u, treeAt nodes nodes.length i = some u)
    (hnew : treeAt (nodes ++ [nd]) (nodes ++ [nd]).length nodes.length = some t)
    (hsize : (queue.map (sizeBelow nodes)).sum + t.size = nodes.length + 1) :
    Forest (nodes ++ [nd]) (queue ++ [nodes.length]) where
  trees i hi := by
    rcases List.mem_append.mp hi with h | h
    · obtain ⟨u, hu⟩ := htrees i h
      exact ⟨u, treeAt_push hu nd⟩
    · rw [List.mem_singleton.mp h]
      exact ⟨t, hnew⟩
  covers := by
    have old : queue.map (sizeBelow (nodes ++ [nd])) = queue.map (sizeBelow nodes) := List.map_congr_left fun i hi => by
      obtain ⟨u, hu⟩ := htrees i hi
      rw [sizeBelow_of_treeAt hu, sizeBelow_of_treeAt (treeAt_push hu nd)]
    simp only [List.map_append, old, List.map_singleton, sizeBelow_of_treeAt hnew, List.sum_append, List.sum_singleton, hsize,
      List.length_append, List.length_singleton]

theorem newLeaf_forest {s : State} (h : Forest s.nodes s.pq) {v : Nat} (hv : v ≤ 256) (w : Nat) :
    Forest (newLeaf v w s).nodes (newLeaf v w s).pq :=
  .push (t := .leaf v) h.trees (by simp [treeAt, hv]) (by rw [h.covers]; rfl)

theorem addLeaves_forest {s : State} (h : Forest s.nodes s.pq) {ws : List Nat} {v : Nat} (hv : v + ws.length ≤ 257) :
    Forest (addLeaves ws v s).nodes (addLeaves ws v s).pq := by
  induction ws generalizing v s with
  | nil => exact h
  | cons w ws ih =>
    rw [List.length_cons] at hv
    unfold addLeaves
    split
    · exact ih (newLeaf_forest h (by omega) w) (by omega)
    · exact ih h (by omega)

/-- Each leaf takes one entry of the arena and one place in the queue. -/
theorem addLeaves_room (ws : List Nat) (v : Nat) (s : State) :
    (addLeaves ws v s).nodes.length + (addLeaves ws v s).pq.length ≤ s.nodes.length + s.pq.length + 2 * ws.length := by
  induction ws generalizing v s with
  | nil => simp [addLeaves]
  | cons w ws ih =>
    unfold addLeaves
    rw [List.length_cons]
    split
    · have := ih (v + 1) (newLeaf v w s)
      simp only [newLeaf, List.length_append, List.length_singleton] at this
      simp only [newLeaf]
      omega
    · have := ih (v + 1) s
      omega

theorem least_mem {s : State} {queue : List Nat} {i : Nat} (h : least s queue = some i) : i ∈ queue := by
  induction queue generalizing i with
  | nil => cases h
  | cons j rest ih =>
    unfold least at h
    split at h
    · cases h; simp
    · split at h <;> cases h
      · exact List.mem_cons_of_mem _ (ih ‹_›)
      · simp

theorem least_eq_none {s : State} {queue : List Nat} (h : least s queue = none) : queue = [] := by
  cases queue with
  | nil => rfl
  | cons j rest =>
    unfold least at h
    split at h
    · cases h
    · split at h <;> cases h

/-- PopMin() fails on the empty queue only. -/
theorem popMin_eq_none {s : State} (h : popMin s = none) : s.pq = [] := least_eq_none (Option.map_eq_none_iff.mp h)

/-- The queue is the element PopMin() removes and what it leaves. -/
theorem popMin_perm {s t : State} {i : Nat} (h : popMin s = some (i, t)) : s.pq.Perm (i :: t.pq) := by
  obtain ⟨hi, rfl⟩ := popMin_eq_some h
  exact List.perm_cons_erase (least_mem hi)

theorem popMin_nodes {s t : State} {i : Nat} (h : popMin s = some (i, t)) : t.nodes = s.nodes :=
  ((popMin_frame h).same .tree (by simp)).1

theorem newInternal_forest {s : State} {a b : Nat} (h : Forest s.nodes (a :: b :: s.pq)) :
    Forest (newInternal a b s).nodes (newInternal a b s).pq := by
  obtain ⟨ta, hta⟩ := h.trees a (by simp)
  obtain ⟨tb, htb⟩ := h.trees b (by simp)
  have covers := h.covers
  simp only [List.map_cons, List.sum_cons, sizeBelow_of_treeAt hta, sizeBelow_of_treeAt htb] at covers
  refine .push (t := .node ta tb) (fun i hi => h.trees i (by simp [hi])) ?_ (by rw [Tree.size]; omega)
  rw [List.length_append, List.length_singleton]
  exact treeAt_node (by simp; rfl) rfl (treeAt_mono (extra := 0) hta) (treeAt_mono (extra := 0) htb)

/-- The merges end with at most one tree, and each takes one entry of the arena and gives one place of the queue. -/
theorem mergeLoop_forest {s : State} (h : Forest s.nodes s.pq) {bound : Nat} (hb : s.pq.length ≤ bound) :
    Forest (mergeLoop bound s).nodes (mergeLoop bound s).pq ∧ (mergeLoop bound s).pq.length ≤ 1 ∧
      (mergeLoop bound s).nodes.length + (mergeLoop bound s).pq.length = s.nodes.length + s.pq.length := by
  induction bound generalizing s with
  | zero => exact ⟨h, by rw [mergeLoop]; omega, rfl⟩
  | succ bound ih =>
    unfold mergeLoop
    split
    · rename_i hnone
      exact ⟨h, by simp [popMin_eq_none hnone], rfl⟩
    · rename_i a s1 ha
      split
      · rename_i hnone
        have la := (popMin_perm ha).length_eq
        exact ⟨h, by simp [la, popMin_eq_none hnone], rfl⟩
      · rename_i b s2 hb'
        have nodes : s2.nodes = s.nodes := (popMin_nodes hb').trans (popMin_nodes ha)
        have queue : s.pq.Perm (a :: b :: s2.pq) := (popMin_perm ha).trans ((popMin_perm hb').cons a)
        have len := queue.length_eq
        simp only [List.length_cons] at len
        obtain ⟨hf, hl, hr⟩ := ih (newInternal_forest (nodes ▸ h.perm queue)) (by
          simp only [newInternal, List.length_append, List.length_singleton]; omega)
        refine ⟨hf, hl, hr.trans ?_⟩
        simp only [newInternal, List.length_append, List.length_singleton, nodes]
        omega

end Sys2Proof.Machine

/-! ## The invariant between any two steps of a run -/

namespace Sys2Proof.Machine

/-! ### The half of the invariant that does not speak of the sequencing of commands -/

/-- A valid tree is complete and fills the arena (10_state.md R20). -/
abbrev State.WholeTree (s : State) : Prop := ∃ t, s.tree = some t ∧ t.size = s.nodes.length

/-- The clauses of State.Inv that hold inside a command too, between the operations of its pseudocode. -/
structure State.Sound (s : State) : Prop where
  params_ok : s.params.ok = true
  count_sum : s.nbytes = s.freq.entries.sum
  count_fits : s.nbytes ≤ s.params.maxBytes
  nodes_fit : s.nodes.length ≤ Config.nodeCap
  queue_empty : s.pq = []
  in_range : s.inPos ≤ 8 * s.inData.length
  tbl_reserved : s.tblAddr &&& ~~~tblAddrMask = 0#32
  tree_whole : s.status.treeValid = true → s.WholeTree
  code_link : s.status.codeValid = true → s.status.treeValid = true
  code_current : s.status.codeValid = true → ∀ t, s.tree = some t → ∀ v, v < Config.nsym → s.codeEntry v = t.entry v
  code_fits : ∀ v, (s.codeEntry v).len ≤ Config.maxCodeLen ∧ ((s.codeEntry v).valid = false → (s.codeEntry v).bits = [])
  no_token : s.token = none

/-- The clauses of State.Inv on the sequencing: what a running block has latched, and that only it has data bound late. -/
structure State.Sequenced (s : State) : Prop where
  running : s.status.busy = true → s.status.done = false ∧
    ∃ op, decodeOp s.cmd = .ok op ∧ (s.status.err = ErrCode.none ∨ s.status.acceptsUnderError op = true)
  late_running : s.status.busy = false → s.lateInput = none

theorem inv_iff (s : State) : s.Inv ↔ s.Sound ∧ s.Sequenced :=
  ⟨fun h => ⟨{ h with }, { h with }⟩, fun ⟨h, k⟩ => { h, k with }⟩

/-- An idle block has nothing to say on the sequencing but that no data is bound late. -/
theorem State.Sequenced.of_idle {s : State} (hb : s.status.busy = false) (hl : s.lateInput = none) : s.Sequenced :=
  ⟨fun h => absurd h (by simp [hb]), fun _ => hl⟩

/-- The parts of the state that the invariant does not speak of inside a command. -/
abbrev quietParts : List Part :=
  [.walk, .input, .data, .output, .closed, .freqValid, .latched, .busy, .overrun, .error]

/-- Where only quiet parts and the tree change, what is to show is that the new tree is good. -/
theorem State.Sound.retree {s t : State} (h : s.Sound) (f : Frame ([.tree, .queue, .treeValid, .codeValid] ++ quietParts) s t)
    (hfit : t.nodes.length ≤ Config.nodeCap) (hq : t.pq = []) (htree : t.status.treeValid = true → t.WholeTree)
    (hcode : t.status.codeValid = false) : t.Sound := by
  obtain ⟨hf, hn⟩ := f.same .freq (by simp)
  obtain ⟨hp, ht, htok, -⟩ := f.same .host (by simp)
  have hc : t.code = s.code := f.same .code (by simp)
  exact
    { params_ok := hp ▸ h.params_ok
      count_sum := by rw [hn, hf, h.count_sum]
      count_fits := by rw [hn, hp]; exact h.count_fits
      nodes_fit := hfit
      queue_empty := hq
      in_range := f.in_range h.in_range
      tbl_reserved := ht ▸ h.tbl_reserved
      tree_whole := htree
      code_link := fun hv => by simp [hcode] at hv
      code_current := fun hv => by simp [hcode] at hv
      code_fits := fun v => by
        have e : t.codeEntry v = s.codeEntry v := by rw [State.codeEntry, hc, State.codeEntry]
        rw [e]; exact h.code_fits v
      no_token := htok.trans h.no_token }

theorem State.Sound.of_frame {s t : State} (h : s.Sound) (f : Frame quietParts s t) : t.Sound := by
  obtain ⟨hf, hn⟩ := f.same .freq (by simp)
  obtain ⟨hnodes, hroot⟩ := f.same .tree (by simp)
  obtain ⟨hp, ht, htok, -⟩ := f.same .host (by simp)
  have hq : t.pq = s.pq := f.same .queue (by simp)
  have hc : t.code = s.code := f.same .code (by simp)
  have htv : t.status.treeValid = s.status.treeValid := f.same .treeValid (by simp)
  have hcv : t.status.codeValid = s.status.codeValid := f.same .codeValid (by simp)
  have htree : t.tree = s.tree := by rw [State.tree, hnodes, hroot, State.tree]
  have hentry (v : Nat) : t.codeEntry v = s.codeEntry v := by rw [State.codeEntry, hc, State.codeEntry]
  exact
    { params_ok := hp ▸ h.params_ok
      count_sum := by rw [hn, hf, h.count_sum]
      count_fits := by rw [hn, hp]; exact h.count_fits
      nodes_fit := hnodes ▸ h.nodes_fit
      queue_empty := hq.trans h.queue_empty
      in_range := f.in_range h.in_range
      tbl_reserved := ht ▸ h.tbl_reserved
      tree_whole := by rw [htv, State.WholeTree, htree, hnodes]; exact h.tree_whole
      code_link := by rw [htv, hcv]; exact h.code_link
      code_current := by rw [hcv, htree]; simpa only [hentry] using h.code_current
      code_fits := fun v => by rw [hentry]; exact h.code_fits v
      no_token := htok.trans h.no_token }

theorem Run.Confined.ends {α : Type} {ps : List Part} {s : State} {r : Run α} (hr : r.Confined ps s) :
    r.Ends (Frame ps s) := by
  cases r with
  | ok a t => exact hr
  | raised c w t => exact hr.2
  | stuck e => trivial

theorem Run.Ends.and {α : Type} {P Q : State → Prop} {r : Run α} (hp : r.Ends P) (hq : r.Ends Q) :
    r.Ends fun s => P s ∧ Q s := by
  cases r with
  | ok a s => exact ⟨hp, hq⟩
  | raised c w s => exact ⟨hp, hq⟩
  | stuck e => trivial

/-- Pseudocode that writes quiet parts only keeps the invariant. -/
theorem Run.Confined.sound {α : Type} {ps : List Part} {s : State} {r : Run α} (hr : r.Confined ps s) (h : s.Sound)
    (hps : ps ⊆ quietParts) : r.Ends State.Sound :=
  hr.ends.mono fun _ f => h.of_frame (f.mono hps)

/-! ### COUNT -/

theorem countUnit_sound {u : Nat} (hu : u < 256) {s : State} (h : s.Sound) : (countUnit u s).Ends State.Sound := by
  unfold countUnit
  split
  · exact h
  · rename_i hne
    have hsum : (s.freq.entries.set u ((s.freq.get? u).getD 0 + 1)).sum = s.freq.entries.sum + 1 := by
      have hl : u < s.freq.entries.length := by rw [s.freq.size_eq]; exact hu
      have parts := List.sum_take_add_sum_drop s.freq.entries u
      rw [List.drop_eq_getElem_cons hl, List.sum_cons] at parts
      rw [List.sum_set, if_pos hl, Table.get?, List.getElem?_eq_getElem hl, Option.getD_some]
      omega
    have hlt := Nat.lt_of_le_of_ne h.count_fits hne
    exact { h with count_sum := by rw [h.count_sum]; exact hsum.symm, count_fits := hlt }

theorem inRead_some_lt {n v : Nat} {s t : State} (h : inRead n s = (some v, t)) : v < 2 ^ n := by
  rcases inRead_cases n s with ⟨_, e⟩ | ⟨_, e⟩ <;> rw [e] at h <;> cases h
  simpa using num_lt (inField s.inData s.inPos n)

theorem countLoop_sound (bound : Nat) {s : State} (h : s.Sound) : (countLoop bound s).Ends State.Sound := by
  induction bound generalizing s with
  | zero => trivial
  | succ bound ih =>
    unfold countLoop
    split
    · exact h.of_frame ((frame_of_inRead ‹_›).mono (by simp))
    · rename_i u t hread
      have ht : t.Sound := h.of_frame ((frame_of_inRead hread).mono (by simp))
      exact (countUnit_sound (inRead_some_lt hread) ht).bind fun _ _ => ih

theorem sum_fill_zero (n : Nat) : (Table.fill n 0).entries.sum = 0 := by
  rw [Table.fill, List.sum_replicate, smul_zero]

theorem countBody_sound {s : State} (h : s.Sound) : (countBody s).Ends State.Sound := by
  have start : (countStart s).Sound :=
    { h with
      count_sum := (sum_fill_zero 256).symm
      count_fits := Nat.zero_le _
      tree_whole := nofun
      code_link := nofun
      code_current := nofun }
  refine (countLoop_sound _ start).bind fun _ t ht => ?_
  exact ht.of_frame (Frame.mono (ps := [.freqValid]) .of_update (by simp))

/-! ### BUILD -/

theorem buildLeaves_forest (s : State) : Forest (buildLeaves s).nodes (buildLeaves s).pq :=
  newLeaf_forest (addLeaves_forest .nil (by rw [s.freq.size_eq]; decide)) le_rfl 1

theorem buildLeaves_room (s : State) : (buildLeaves s).nodes.length + (buildLeaves s).pq.length ≤ 514 := by
  have := addLeaves_room s.freq.entries 0 (buildStart s)
  rw [s.freq.size_eq] at this
  simp only [buildLeaves_eq, buildStart, newLeaf, List.length_append, List.length_singleton, List.length_nil] at this ⊢
  omega

theorem buildLeaves_codeValid (s : State) : (buildLeaves s).status.codeValid = false :=
  (buildLeaves_frame_start s).same .codeValid (by simp)

/-- BUILD ends with the whole arena one tree, the queue empty, and no more nodes than the arena holds. -/
theorem buildBody_ends (s : State) : (buildBody s).Ends fun u => u.WholeTree ∧ u.nodes.length ≤ Config.nodeCap ∧ u.pq = [] ∧
    u.status.treeValid = true ∧ u.status.codeValid = false := by
  obtain ⟨forest, one, room⟩ := mergeLoop_forest (buildLeaves_forest s) le_rfl
  have start := buildLeaves_room s
  unfold buildBody
  simp only
  split
  · trivial
  · rename_i r u hpop
    have queue := popMin_perm hpop
    have len := queue.length_eq
    have hu : u.pq = [] := List.eq_nil_of_length_eq_zero (by simp only [List.length_cons] at len; omega)
    rw [hu] at queue len
    obtain ⟨t, ht⟩ := forest.trees r (queue.mem_iff.mpr (by simp))
    have covers := (forest.perm queue).covers
    rw [List.map_singleton, List.sum_singleton, sizeBelow_of_treeAt ht] at covers
    have merged := (mergeLoop_frame _ _).trans ((popMin_frame hpop).mono (by simp))
    have hcode : u.status.codeValid = false := Eq.trans (merged.same .codeValid (by simp)) (buildLeaves_codeValid s)
    rw [← popMin_nodes hpop] at ht covers room
    simp only [List.length_singleton] at len
    exact ⟨⟨t, ht, covers⟩, by show u.nodes.length ≤ 513; omega, hu, rfl, hcode⟩

theorem buildBody_sound {s : State} (h : s.Sound) :
    (buildBody s).Ends fun u => u.Sound ∧ u.status.treeValid = true := by
  refine ((buildBody_ends s).and (buildBody_confined s).ends).mono fun u ⟨⟨whole, fit, queue, valid, code⟩, frame⟩ => ?_
  exact ⟨h.retree (frame.mono (by simp)) fit queue (fun _ => whole) code, valid⟩

/-! ### DERIVE -/

theorem deriveBody_sound {s : State} (h : s.Sound) (hv : s.status.treeValid = true) : (deriveBody s).Ends State.Sound := by
  obtain ⟨t, ht, hsize⟩ := h.tree_whole hv
  unfold deriveBody
  rw [ht]
  have leaves := t.size_add_one
  have fit : s.nodes.length ≤ 513 := h.nodes_fit
  refine { h with
    code_link := fun _ => hv
    code_current := fun _ t' ht' v hlt => ?_
    code_fits := fun v => ?_ }
  · cases ht.symm.trans ht'
    exact codeEntry_walk rfl hlt
  · by_cases hlt : v < Config.nsym
    · rw [codeEntry_walk (t := t) rfl hlt]
      have := entry_length t v
      exact ⟨by show (t.entry v).bits.length ≤ 256; omega, entry_bits_of_not_valid⟩
    · rw [codeEntry_of_ge _ (Nat.le_of_not_lt hlt)]
      exact ⟨Nat.zero_le _, fun _ => rfl⟩

/-! ### RD_HEADER -/

theorem alloc_fits (nd : Node) {s : State} (h : s.nodes.length ≤ Config.nodeCap) :
    (alloc nd s).Ends fun t => t.nodes.length ≤ Config.nodeCap := by
  unfold alloc
  split
  · exact h
  · have := Nat.lt_of_le_of_ne h ‹_›
    simpa [Run.Ends] using this

theorem des_fits (bound : Nat) {s : State} (h : s.nodes.length ≤ Config.nodeCap) :
    (des bound s).Ends fun t => t.nodes.length ≤ Config.nodeCap := by
  induction bound generalizing s with
  | zero => trivial
  | succ bound ih =>
    unfold des
    split
    · rw [Run.Ends, nodes_of_inRead ‹_›]; exact h
    · rename_i b t hbit
      have ht : t.nodes.length ≤ Config.nodeCap := nodes_of_inRead hbit ▸ h
      split
      · split
        · rw [Run.Ends, nodes_of_inRead ‹_›]; exact ht
        · rename_i v u hleaf
          have hu : u.nodes.length ≤ Config.nodeCap := nodes_of_inRead hleaf ▸ ht
          split
          · exact hu
          · exact alloc_fits _ hu
      · refine (alloc_fits _ ht).bind fun i u hu => (ih hu).bind fun l u' hu' => (ih hu').bind fun r u'' hu'' => ?_
        simpa [Run.Ends, setChildren] using hu''

theorem rdHeaderBody_sound {s : State} (h : s.Sound) : (rdHeaderBody s).Ends State.Sound := by
  have start := rdHeaderStart_frame s
  have fits := des_fits (Config.nodeCap + 1) (s := rdHeaderStart s) (Nat.zero_le _)
  have frame := (des_confined (Config.nodeCap + 1) (rdHeaderStart s)).ends
  rw [rdHeaderBody_eq]
  cases hd : des (Config.nodeCap + 1) (rdHeaderStart s) with
  | stuck e => trivial
  | raised c w t =>
    rw [hd] at fits frame
    have invalid : t.status.treeValid = false := Frame.same frame .treeValid (by simp)
    exact h.retree ((start.mono (by simp)).trans (Frame.mono frame (by simp))) fits
      (Eq.trans (Frame.same frame .queue (by simp)) h.queue_empty) (fun hv => by simp [invalid] at hv)
      (Frame.same frame .codeValid (by simp))
  | ok r t =>
    obtain ⟨hr, tree, leaves, nodes⟩ := des_eq_ok hd
    rw [hd] at fits frame
    have fill : Frame [.tree, .treeValid] t { t with root := r, status := { t.status with treeValid := true } } := .of_update
    refine h.retree (((start.mono (by simp)).trans (Frame.mono frame (by simp))).trans (fill.mono (by simp))) fits
      (Eq.trans (Frame.same frame .queue (by simp)) h.queue_empty) (fun _ => ⟨tree, tree_of_arena leaves nodes hr, ?_⟩)
      (Frame.same frame .codeValid (by simp))
    simp [nodes, rdHeaderStart]

/-! ### Every command -/

/-- One after another, where the first leaves what the second needs. -/
theorem Run.Ends.andThen {α β : Type} {P Q : State → Prop} {r : Run α} {f : α → State → Run β} (h : r.Ends P)
    (hpq : ∀ s, P s → Q s) (hf : ∀ a s, P s → (f a s).Ends Q) : (r.bind f).Ends Q := by
  cases r with
  | ok a s => exact hf a s h
  | raised c w s => exact hpq s h
  | stuck e => trivial

theorem compressBody_sound {s : State} (h : s.Sound) : (compressBody s).Ends State.Sound := by
  refine Run.Ends.closing (P := State.Sound) ?_ fun t ht => ht.of_frame ((outClose_frame t).mono (by simp))
  refine (countBody_sound h).bind fun _ s1 h1 => ?_
  refine (buildBody_sound h1).andThen (fun _ => And.left) fun _ s2 ⟨h2, hv⟩ => ?_
  refine (deriveBody_sound h2 hv).bind fun _ s3 h3 => ?_
  refine ((wrMagicBody_confined s3).sound h3 (by simp)).bind fun _ s4 h4 => ?_
  refine ((wrHeaderBody_confined s4).sound h4 (by simp)).bind fun _ s5 h5 => ?_
  exact (encodeBody_confined s5).sound h5 (by simp)

theorem decompressBody_sound {s : State} (h : s.Sound) : (decompressBody s).Ends State.Sound := by
  refine Run.Ends.closing (P := State.Sound) ?_ fun t ht => ht.of_frame ((outClose_frame t).mono (by simp))
  refine ((rdMagicBody_confined s).sound h (by simp)).bind fun _ s1 h1 => ?_
  refine (rdHeaderBody_sound h1).bind fun _ s2 h2 => ?_
  exact (decodeBody_confined s2).sound h2 (by simp)

/-- Of the state before, CLEAR needs only what it leaves: the parameters, the input and the token. -/
theorem clearBlock_sound {s : State} (h : s.Sound) : (clearBlock s).Sound :=
  { h with
    count_sum := (sum_fill_zero 256).symm
    count_fits := Nat.zero_le _
    nodes_fit := Nat.zero_le _
    queue_empty := rfl
    tbl_reserved := by simp
    tree_whole := nofun
    code_link := nofun
    code_current := nofun
    code_fits := fun v => by
      have e : (clearBlock s).codeEntry v = CodeEntry.unset := by
        rw [State.codeEntry, clearBlock_code, Table.get?_fill]
        split <;> rfl
      rw [e]
      exact ⟨Nat.zero_le _, fun _ => rfl⟩ }

theorem opBody_sound {op : Op} {s : State} (h : s.Sound) (hpre : preHolds op s.status = true) :
    (opBody op s).Ends State.Sound := by
  cases op with
  | nop => exact h
  | clear => exact clearBlock_sound h
  | count => exact countBody_sound h
  | build => exact (buildBody_sound h).mono fun _ => And.left
  | derive => exact deriveBody_sound h hpre
  | wrMagic => exact (wrMagicBody_confined s).sound h (by simp)
  | wrHeader => exact (wrHeaderBody_confined s).sound h (by simp)
  | encode => exact (encodeBody_confined s).sound h (by simp)
  | closeOut => exact h.of_frame ((outClose_frame s).mono (by simp))
  | rdMagic => exact (rdMagicBody_confined s).sound h (by simp)
  | rdHeader => exact rdHeaderBody_sound h
  | decode => exact (decodeBody_confined s).sound h (by simp)
  | compress => exact compressBody_sound h
  | decompress => exact decompressBody_sound h

theorem exec_op_sound {op : Op} {s t : State} (h : s.Sound) (he : exec op.instr s = .next t) : t.Sound := by
  rw [exec_eq_command] at he
  have accepted : (accept op s).Sound := h.of_frame ((accept_frame op s).mono (by simp))
  rcases command_cases op (opBody op) s with ⟨_, e⟩ | ⟨_, _, _, e⟩ | ⟨_, _, _, e⟩ | ⟨_, _, hp, e⟩ <;> rw [e] at he
  · cases he; exact h.of_frame ((dropBusy_frame s).mono (by simp))
  · cases he; exact h
  · cases he; exact accepted.of_frame ((recordFault_frame _ _ _).mono (by simp))
  · have start := accepted.of_frame (startReading_frame op (accept op s) (fun _ => by simp))
    have pre : preHolds op (startReading op (accept op s)).status = true := by
      rw [← hp, startReading_status]
      cases op <;> rfl
    exact settle_ends he (opBody_sound start pre) (fun u hu => hu.of_frame ((complete_frame u).mono (by simp)))
      fun c w u hu => hu.of_frame ((recordFault_frame c w u).mono (by simp))

/-- A command offered to an idle block leaves it idle, and binds no data late. -/
theorem exec_op_idle {op : Op} {s t : State} (he : exec op.instr s = .next t) (hb : s.status.busy = false) :
    t.status.busy = false ∧ (s.lateInput = none → t.lateInput = none) := by
  by_cases hc : op = .clear
  · subst hc
    rw [exec_eq_command] at he
    rcases command_cases .clear (opBody .clear) s with ⟨hn, _⟩ | ⟨_, _, _, e⟩ | ⟨_, _, _, e⟩ | ⟨_, _, _, e⟩
    · simp [hb] at hn
    all_goals
      rw [e] at he
      cases he
      exact ⟨by simp [hb], id⟩
  · have effect := exec_op_effect he hc
    obtain ⟨-, -, -, -, -, -, -, -, late⟩ := effect.frame.same .host (by cases op <;> simp [opParts])
    exact ⟨(effect.idle hb).1, late⟩

/-! ### Every step -/

theorem decodeCommand_eq_ok {w : Word} {i : Instr} (h : decodeCommand w = .ok i) : ∃ op, decodeOp w = .ok op ∧ i = op.instr := by
  unfold decodeCommand at h
  split at h
  · cases h; exact ⟨_, ‹_›, rfl⟩
  · cases h

theorem takeLate_sound {s : State} (h : s.Sound) : (takeLate s).Sound := by
  rw [takeLate_eq]
  refine { h with in_range := ?_ }
  show (if s.lateInput = none then s.inPos else 0) ≤ 8 * s.secondPass.length
  split
  · rw [secondPass_of_none ‹_›]; exact h.in_range
  · exact Nat.zero_le _

theorem blockStep_inv {s t : State} (h : s.Sound) (hs : blockStep exec s = .next t) : t.Inv := by
  rcases blockStep_cases exec s with ⟨_, e⟩ | ⟨i, hi, ⟨u, he, e⟩ | ⟨_, _, e⟩ | ⟨_, _, e⟩⟩ <;> rw [e] at hs <;> cases hs
  obtain ⟨op, -, rfl⟩ := decodeCommand_eq_ok hi
  have sound : u.Sound := exec_op_sound (s := { s with status := { s.status with busy := false }, lag := 0 }) { h with } he
  refine (inv_iff _).mpr ⟨takeLate_sound sound, .of_idle ?_ ?_⟩ <;> rw [takeLate_eq]
  exact (exec_op_idle he rfl).1

theorem offer_inv {w : Word} {lag : Nat} {s t : State} (h : s.Inv) (hs : offer exec w lag s = .next t) : t.Inv := by
  obtain ⟨sound, seq⟩ := (inv_iff s).mp h
  rcases offer_cases exec w lag s with ⟨hb, e⟩ | ⟨_, _, _, e⟩ | ⟨hb, _, _, e⟩ | ⟨op, hb, _, _, _, e⟩ | ⟨op, hb, hw, ha, _, e⟩ <;>
    rw [e] at hs
  · cases hs
    exact { h with }
  · cases hs
    exact h
  · cases hs
    exact (inv_iff _).mpr ⟨{ sound with }, .of_idle hb (h.late_running hb)⟩
  · obtain ⟨hi, hl⟩ := exec_op_idle hs hb
    exact (inv_iff t).mpr ⟨exec_op_sound sound hs, .of_idle hi (hl (h.late_running hb))⟩
  · cases hs
    refine (inv_iff _).mpr ⟨{ sound with }, fun _ => ⟨rfl, op, decodeOp_word op, ha⟩, nofun⟩

theorem bindInput_inv {data : List Byte} {late : Bool} {s : State} (h : s.Inv) : (bindInput data late s).Inv := by
  rcases bindInput_cases data late s with ⟨hb, _, e⟩ | ⟨_, e⟩ <;> rw [e]
  · exact { h with late_running := fun hi => absurd (hb.symm.trans hi) (by simp) }
  · exact { h with in_range := Nat.zero_le _ }

/-- The machine right after reset is sound, and so it is with other parameters and other input data. -/
theorem reset_sound : State.reset.Sound where
  params_ok := by decide
  count_sum := (sum_fill_zero 256).symm
  count_fits := Nat.zero_le _
  nodes_fit := Nat.zero_le _
  queue_empty := rfl
  in_range := Nat.zero_le _
  tbl_reserved := rfl
  tree_whole := nofun
  code_link := nofun
  code_current := nofun
  code_fits := fun v => by
    have e : State.reset.codeEntry v = CodeEntry.unset := by
      rw [State.codeEntry, State.reset, Table.get?_fill]
      split <;> rfl
    rw [e]
    exact ⟨Nat.zero_le _, fun _ => rfl⟩
  no_token := rfl

theorem resetBlock_inv {s : State} (h : s.Inv) : (resetBlock s).Inv := by
  unfold resetBlock
  cases hb : s.status.busy with
  | true =>
    refine (inv_iff _).mpr ⟨{ reset_sound with params_ok := h.params_ok, count_fits := Nat.zero_le _, in_range := ?_ },
      .of_idle rfl rfl⟩
    exact Nat.le_of_lt_succ (Nat.mod_lt _ (Nat.succ_pos _))
  | false =>
    exact (inv_iff _).mpr
      ⟨{ reset_sound with params_ok := h.params_ok, count_fits := Nat.zero_le _, in_range := h.in_range },
        .of_idle rfl (h.late_running hb)⟩

theorem memWrite_inv {off : Nat} {v : Word} {lag : Nat} {s t : State} (h : s.Inv) (hs : memWrite exec off v lag s = .next t) :
    t.Inv := by
  by_cases h0 : off = 0x00
  · subst h0
    exact offer_inv h hs
  · by_cases h1 : off = 0x28
    · subst h1
      cases hs
      exact { h with tbl_reserved := by rw [BitVec.and_assoc, show tblAddrMask &&& ~~~tblAddrMask = 0#32 by decide]; simp }
    · rw [memWrite_other exec v lag s h0 h1] at hs
      cases hs
      exact h

theorem hostStep_inv {op : HostOp} {s t : State} (h : s.Inv) (hs : hostStep exec op s = .next t) : t.Inv := by
  have read (off : Nat) : (memRead off s).Inv := by
    obtain ⟨v, n, e, -⟩ := memRead_eq off s
    rw [e]
    exact { h with }
  cases op with
  | read addr width =>
    simp only [hostStep] at hs
    split at hs <;> cases hs
    exact read _
  | write addr width v lag =>
    simp only [hostStep] at hs
    split at hs
    · cases hs
    · exact memWrite_inv h hs
  | wait =>
    simp only [hostStep] at hs
    split at hs <;> cases hs
    · exact { read 0x04 with }
    · exact read 0x04
  | bindInput data late => cases hs; exact bindInput_inv h
  | bindOutput => cases hs; exact { h with }
  | reset => cases hs; exact resetBlock_inv h

/-- Settles O4: after reset every array is empty and every flag 0. -/
theorem invariantHoldsAtReset : Obligations.InvariantHoldsAtReset :=
  (inv_iff _).mpr ⟨reset_sound, .of_idle rfl rfl⟩

/-- Settles O5, by the cases of a step: a latched command's body keeps the sound half and ends idle, and a host's operation keeps
the invariant. -/
theorem stepKeepsInvariant : Obligations.StepKeepsInvariant := by
  intro s t h hs
  rcases step_cases s with ⟨i, ht, _⟩ | ⟨_, _, _, e⟩ | ⟨_, _, _, e⟩ | ⟨op, rest, _, _, _, e⟩
  · simp [h.no_token] at ht
  · exact blockStep_inv ((inv_iff s).mp h).1 (e.symm.trans hs)
  · cases e.symm.trans hs; exact h
  · exact hostStep_inv (s := { s with hostOps := rest, lag := s.lag - 1 }) { h with } (e.symm.trans hs)

end Sys2Proof.Machine

/-! ## What a step runs -/

namespace Sys2Proof.Machine

/-- A word that names a command, written to CMD to be run at once, is that command offered to the block. -/
theorem offer_at_once {op : Op} {w : Word} (hw : decodeOp w = .ok op) (s : State) : offer exec w 0 s = exec op.instr s := by
  unfold offer
  simp only [hw]
  by_cases hb : s.status.busy
  · rw [if_pos hb, exec_eq_command, command, if_pos hb]
  · rw [if_neg hb]
    by_cases he : s.status.err ≠ .none ∧ s.status.acceptsUnderError op = false
    · rw [if_pos he, exec_eq_command, command, if_neg hb, if_pos he]
    · rw [if_neg he, if_pos trivial]

/-- A CMD write at REG_BASE offers its word. -/
theorem hostStep_cmd (s : State) (w : Word) (lag : Nat) :
    hostStep exec (.write s.params.regBase 4 w lag) s = offer exec w lag s := by
  have h : regOffset s.params s.params.regBase 4 = some 0 := regOffset_eq_some.mpr (by simp)
  simp only [hostStep, h, memWrite_cmd]

/-- With no token under way and no latched command due, a step is the host's next operation (20_memory.md R57). -/
theorem step_hostOp {s : State} {op : HostOp} {rest : List HostOp} (ht : s.token = none)
    (hb : s.status.busy = false ∨ s.lag ≠ 0) (ho : s.hostOps = op :: rest) :
    step s = hostStep exec op { s with hostOps := rest, lag := s.lag - 1 } := by
  unfold step stepWith
  rw [ht]
  rcases hb with h | h <;> simp [h, ho]

/-- A running block whose step no host operation precedes takes it (20_memory.md R57). -/
theorem step_block {s : State} (ht : s.token = none) (hb : s.status.busy = true) (hl : s.lag = 0 ∨ s.hostOps = []) :
    step s = blockStep exec s := by
  unfold step stepWith
  rw [ht]
  rcases hl with h | h <;> simp [h, hb]

theorem step_token {s : State} {i : Instr} (ht : s.token = some i) : step s = exec i { s with token := none } := by
  unfold step stepWith
  rw [ht]

theorem step_idle {s : State} (ht : s.token = none) (hb : s.status.busy = false) (ho : s.hostOps = []) :
    step s = .next s := by
  unfold step stepWith
  rw [ht]
  simp [hb, ho]

/-- A command's word is placed as the host's next CMD write. -/
theorem withFetchWord_command (s : State) (op : Op) : s.withFetchWord 32 op.word.toNat =
    { s with token := none, lag := s.lag + 1, hostOps := .write s.params.regBase 4 op.word 0 :: s.hostOps } := by
  cases op <;> rfl

/-- The latched command runs as exec gives it where no input data is bound late. -/
theorem blockStep_of_no_late {s : State} {i : Instr} (hi : decodeCommand s.cmd = .ok i) (hl : s.lateInput = none) :
    blockStep exec s = exec i { s with lag := 0, status := { s.status with busy := false } } := by
  obtain ⟨op, -, rfl⟩ := decodeCommand_eq_ok hi
  rcases blockStep_cases exec s with ⟨⟨e, he⟩, _⟩ | ⟨j, hj, h⟩
  · rw [hi] at he; cases he
  · cases hi.symm.trans hj
    rcases h with ⟨t, he, e⟩ | ⟨f, he, e⟩ | ⟨r, he, e⟩ <;> rw [e, he]
    rw [takeLate_of_none ((exec_op_idle he rfl).2 hl)]

/-- Settles O7, clause by clause. -/
theorem stepRunsTheDecodedInstruction : Obligations.StepRunsTheDecodedInstruction := by
  refine ⟨fun s op => ?_, fun s w i rest ht hb ho hi => ?_, fun s i ht hb hl hi => ⟨fun hn => ?_, fun t he => ?_⟩,
    fun s i => step_token, fun s => step_idle, fun s op rest => step_hostOp, fun s hb => ?_, fun s hb => ?_, fun s => rfl⟩
  · rw [withFetchWord_command, step_hostOp rfl (.inr (Nat.succ_ne_zero _)) rfl]
    exact (hostStep_cmd _ _ _).trans (offer_at_once (decodeOp_word op) _)
  · obtain ⟨op, hop, rfl⟩ := decodeCommand_eq_ok hi
    rw [step_hostOp ht (.inl hb) ho]
    exact (hostStep_cmd _ _ _).trans (offer_at_once hop _)
  · rw [step_block ht hb hl, blockStep_of_no_late hi hn]
  · rw [step_block ht hb hl]
    rcases blockStep_cases exec s with ⟨⟨e, h⟩, _⟩ | ⟨j, hj, h⟩
    · rw [hi] at h; cases h
    · cases hi.symm.trans hj
      rcases h with ⟨u, hu, e⟩ | ⟨f, hf, _⟩ | ⟨r, hr, _⟩
      · cases he.symm.trans hu
        rw [e, takeLate_eq]
      · cases he.symm.trans hf
      · cases he.symm.trans hr
  · simp [hostStep, hb]
  · simp [hostStep, hb, memRead]

end Sys2Proof.Machine

/-! ## The register interface (10_state.md R25 to R38) -/

namespace Sys2Proof.Machine

/-- Settles O54: the one-bit fields bit by bit, the others as slices of the word. -/
theorem statusWordLayout : Obligations.StatusWordLayout := by
  intro f
  have bits : f.word.getLsbD 0 = f.busy ∧ f.word.getLsbD 1 = f.done ∧ f.word.getLsbD 2 = f.freqValid ∧
      f.word.getLsbD 3 = f.treeValid ∧ f.word.getLsbD 4 = f.codeValid ∧ f.word.getLsbD 5 = f.outClosed ∧
      f.word.getLsbD 6 = f.ovr ∧ f.word.getLsbD 7 = false ∧ f.word.getLsbD 10 = f.eos := by
    simp only [Status.word, BitVec.getLsbD_append]
    simp
  have slices : f.word.extractLsb' 8 2 = f.dstate.code ∧ f.word.extractLsb' 11 5 = 0#5 ∧
      f.word.extractLsb' 16 8 = f.err.code ∧ f.word.extractLsb' 24 8 = 0#8 := by
    unfold Status.word
    simp (disch := omega) only [BitVec.extractLsb'_append_eq_of_le, BitVec.extractLsb'_append_eq_of_add_le, Nat.reduceSub,
      BitVec.extractLsb'_eq_self]
    simp
  obtain ⟨b0, b1, b2, b3, b4, b5, b6, b7, b10⟩ := bits
  obtain ⟨hdstate, hlow, herr, hhigh⟩ := slices
  refine ⟨b0, b1, b2, b3, b4, b5, b6, b7, ?_, b10, hlow, ?_, hhigh⟩
  · rw [hdstate]; cases f.dstate <;> simp [DState.code]
  · rw [herr]; cases f.err <;> simp [ErrCode.code]

/-- Settles O55: the mask has ones over the three fields and zeros elsewhere. -/
theorem tblAddrTakesItsFields : Obligations.TblAddrTakesItsFields := by
  intro s v lag
  have kept (start len : Nat) (h : tblAddrMask.extractLsb' start len = BitVec.allOnes len) :
      (v &&& tblAddrMask).extractLsb' start len = v.extractLsb' start len := by
    rw [BitVec.extractLsb'_and, h, BitVec.and_allOnes]
  refine ⟨v &&& tblAddrMask, kept 0 12 (by decide), kept 12 3 (by decide), ?_, kept 16 4 (by decide), ?_, rfl, rfl⟩
  · rw [BitVec.getLsbD_and, show tblAddrMask.getLsbD 15 = false by decide, Bool.and_false]
  · rw [BitVec.extractLsb'_and, show tblAddrMask.extractLsb' 20 12 = 0#12 by decide, BitVec.and_zero]

/-- Every offset that the register map does not name reads 0 (R38). -/
theorem regValue_reserved (s : State) {off : Nat} (h : 0x30 ≤ off) : regValue s off = 0#32 := by
  unfold regValue
  split
  case h_13 => rfl
  all_goals omega

/-- Settles O56. -/
theorem reservedAndReadOnlyRegisters : Obligations.ReservedAndReadOnlyRegisters := by
  intro s
  refine ⟨fun off h _ hb => ?_, fun off v lag h => ?_⟩
  · rw [memRead, hb, if_neg (by simp), regValue_reserved s h]
  · simp only [List.mem_cons, List.not_mem_nil, or_false] at h
    exact memWrite_other exec v lag s (by omega) (by omega)

/-! ### TBL_DATA (R37) -/

/-- The fields of TBL_ADDR as it is written for a table, an index and a word. -/
theorem tblAddr_fields {a : Word} {table index word : Nat} (ht : table < 16) (hi : index < 4096) (hw : word < 8)
    (h : a = BitVec.ofNat 32 (table * 2 ^ 16 + word * 2 ^ 12 + index)) :
    tblTable a = table ∧ tblIndex a = index ∧ tblWord a = word := by
  subst h
  simp only [tblTable, tblIndex, tblWord, BitVec.extractLsb'_toNat, BitVec.toNat_ofNat, Nat.shiftRight_eq_div_pow]
  omega

theorem tblData_freq {s : State} (h : tblTable s.tblAddr = 0) :
    tblData s = if tblWord s.tblAddr = 0 then BitVec.ofNat 32 (s.count (tblIndex s.tblAddr)) else 0#32 := by
  rw [tblData, h]; rfl

theorem tblData_len {s : State} (h : tblTable s.tblAddr = 1) :
    tblData s = if tblWord s.tblAddr = 0 then
      flagAndField (s.codeEntry (tblIndex s.tblAddr)).valid (s.codeEntry (tblIndex s.tblAddr)).len else 0#32 := by
  rw [tblData, h]; rfl

theorem tblData_code {s : State} (h : tblTable s.tblAddr = 2) :
    tblData s = codeWordBits (s.codeEntry (tblIndex s.tblAddr)).bits (tblWord s.tblAddr) := by
  rw [tblData, h]; rfl

theorem tblData_node {s : State} (h : tblTable s.tblAddr = 3) :
    tblData s = (s.nodes[tblIndex s.tblAddr]?.map fun nd => nodeWord nd (tblWord s.tblAddr)).getD 0#32 := by
  rw [tblData, h]
  cases s.nodes[tblIndex s.tblAddr]? <;> rfl

theorem tblData_outside {s : State} (h : 3 < tblTable s.tblAddr) : tblData s = 0#32 := by
  unfold tblData
  simp only
  split
  case h_5 => rfl
  all_goals omega

theorem flagAndField_fields (flag : Bool) (v : Nat) : (flagAndField flag v).getLsbD 31 = flag ∧
    (flagAndField flag v).extractLsb' 0 9 = BitVec.ofNat 9 v ∧ (flagAndField flag v).extractLsb' 9 22 = 0#22 := by
  refine ⟨?_, ?_, ?_⟩
  · simp only [flagAndField, BitVec.getLsbD_append]; simp
  · simp only [flagAndField, BitVec.extractLsb'_append_eq_ite]; simp
  · simp only [flagAndField, BitVec.extractLsb'_append_eq_ite]; simp

/-- Bit 31 − j of word w is bit 32 w + j of the code, and 0 after the code. -/
theorem codeWordBits_getLsbD (bits : Bits) (w : Nat) {j : Nat} (hj : j < 32) :
    (codeWordBits bits w).getLsbD (31 - j) = bits.getD (32 * w + j) false := by
  let l : Bits := (List.range 32).map fun j => bits.getD (32 * w + j) false
  have len : l.length = 32 := by simp [l]
  have h := bitsOf_getElem? 32 (num l) j hj
  rw [show bitsOf 32 (num l) = l by rw [← len, bitsOf_num]] at h
  have hl : l[j]? = some (bits.getD (32 * w + j) false) := by simp [l, hj]
  rw [codeWordBits, BitVec.getLsbD_ofNat, ← Option.some.inj (h.symm.trans hl)]
  simp [l, show 31 - j < 32 by omega]

theorem codeWordBits_nil (w : Nat) : codeWordBits [] w = 0#32 := by
  apply BitVec.eq_of_getLsbD_eq
  intro i hi
  have h := codeWordBits_getLsbD [] w (j := 31 - i) (by omega)
  rw [show 31 - (31 - i) = i by omega] at h
  simp [h]

/-- Settles O57, table by table. -/
theorem tblDataReadsTheSelectedWord : Obligations.TblDataReadsTheSelectedWord := by
  intro s table index word htable hindex hword ha
  obtain ⟨ht, hi, hw⟩ := tblAddr_fields htable hindex hword ha
  rw [show regValue s 0x2C = tblData s from rfl]
  refine ⟨?_, ?_, ?_, ?_, ?_⟩
  · rintro rfl rfl -
    rw [tblData_freq ht, hi, if_pos hw]
  · rintro rfl rfl -
    rw [tblData_len ht, hi, if_pos hw]
    exact flagAndField_fields _ _
  · rintro rfl - j hj
    rw [tblData_code ht, hi, hw]
    exact codeWordBits_getLsbD _ _ hj
  · rintro nd rfl hn
    rw [tblData_node ht, hi, hn, hw]
    refine ⟨?_, ?_, ?_, ?_⟩
    · rintro rfl
      exact flagAndField_fields _ _
    all_goals
      rintro rfl
      rfl
  · rintro (h | ⟨rfl, h⟩ | ⟨rfl, h⟩ | ⟨rfl, h⟩ | ⟨rfl, h⟩)
    · exact tblData_outside (ht ▸ h)
    · rw [tblData_freq ht, hi, hw, State.count]
      rcases h with h | h
      · exact if_neg h
      · rw [Table.get?_ge _ h]; simp
    · rw [tblData_len ht, hi, hw]
      rcases h with h | h
      · exact if_neg h
      · rw [codeEntry_of_ge s h]; split <;> rfl
    · rw [tblData_code ht, hi, codeEntry_of_ge s h]
      exact codeWordBits_nil _
    · rw [tblData_node ht, hi, hw]
      rcases h with h | h
      · rw [List.getElem?_eq_none h]; rfl
      · cases s.nodes[index]? with
        | none => rfl
        | some nd =>
          show nodeWord nd word = 0#32
          unfold nodeWord
          split
          case h_5 => rfl
          all_goals omega

end Sys2Proof.Machine

/-! ## The host and the block: a deferred step, and what no instruction touches (20_memory.md R43, R57) -/

namespace Sys2Proof.Machine

/-- A ready block accepts every command and runs it to its end, or to SEQUENCE (40_control.md R80). -/
theorem exec_of_ready {s : State} (h : s.Ready) (op : Op) :
    exec op.instr s = settle (runAccepted op (opBody op) (accept op s)) := by
  rw [exec_eq_command, command, if_neg (by simp [h.1]), if_neg (by simp [h.2])]

/-- Offered to a ready block with host operations to land before its step, a command is latched. -/
theorem offer_deferred {s : State} (h : s.Ready) (op : Op) (lag : Nat) :
    offer exec op.word (lag + 1) s = .next { accept op s with lag := lag + 1 } := by
  rw [offer, if_neg (by simp [h.1])]
  simp only [decodeOp_word]
  rw [if_neg (by simp [h.2]), if_neg (Nat.succ_ne_zero lag)]

theorem decodeCommand_word (op : Op) : decodeCommand op.word = .ok op.instr := by
  simp only [decodeCommand, decodeOp_word]

/-- Ready blocks that acceptance makes the same do the same. -/
theorem exec_congr_accept {s u : State} (hs : s.Ready) (hu : u.Ready) {op : Op} (h : accept op u = accept op s) :
    exec op.instr u = exec op.instr s := by
  rw [exec_of_ready hs, exec_of_ready hu, h]

/-- A latched command that no host operation precedes, and no data bound late, runs as exec gives it (20_memory.md R57). -/
theorem step_latched {t : State} {op : Op} (htoken : t.token = none) (hbusy : t.status.busy = true) (hops : t.hostOps = [])
    (hlate : t.lateInput = none) (hcmd : t.cmd = op.word) :
    step t = exec op.instr { t with lag := 0, status := { t.status with busy := false } } := by
  rw [step_block htoken hbusy (.inr hops), blockStep_of_no_late (hcmd ▸ decodeCommand_word op) hlate]

/-- Settles O8: the next step offers the latched word again, and the second acceptance repeats the first. -/
theorem deferredCommandEndsAsAtOnce : Obligations.DeferredCommandEndsAsAtOnce := by
  intro s op lag hready htoken hops hlate
  refine ⟨{ accept op s with lag := lag + 1 }, offer_deferred hready op lag, rfl, rfl, ?_⟩
  rw [step_latched (t := { accept op s with lag := lag + 1 }) htoken rfl hops hlate rfl]
  refine exec_congr_accept (s := { s with lag := 0 }) hready ?_ rfl
  exact ⟨rfl, hready.2⟩

/-- CLEAR is dropped, or it returns the block to its reset values (40_control.md R84). -/
theorem exec_clear_cases {s t : State} (h : exec .clear s = .next t) :
    t = dropBusy s ∨ t = s ∨ t = complete (clearBlock (accept .clear s)) := by
  rw [show exec .clear s = command .clear clearBody s from rfl] at h
  rcases command_cases .clear clearBody s with ⟨_, e⟩ | ⟨_, _, _, e⟩ | ⟨_, _, hp, _⟩ | ⟨_, _, _, e⟩
  · exact .inl (Host.Outcome.next.inj (h.symm.trans e))
  · exact .inr (.inl (Host.Outcome.next.inj (h.symm.trans e)))
  · cases hp
  · exact .inr (.inr (Host.Outcome.next.inj (h.symm.trans e)))

/-- Where no data is bound late, before and after, what the port presents from a rewind on is its data. -/
theorem data_same_of_no_late {s t : State} (h : t.secondPass = s.secondPass) (hs : s.lateInput = none)
    (ht : t.lateInput = none) : t.inData = s.inData ∧ t.lateInput = s.lateInput := by
  rw [secondPass_of_none ht, secondPass_of_none hs] at h
  exact ⟨h, ht.trans hs.symm⟩

theorem host_not_mem_instrParts (i : Instr) : .host ∉ instrParts i := by
  cases i <;> simp [instrParts, Instr.op?, opParts, streamPart]

/-- Only the rewind of ENCODE and COMPRESS brings late data into sight (70_reset_and_hazards.md R141). -/
theorem data_not_mem_instrParts {i : Instr} (he : i ≠ .encode) (hc : i ≠ .compress) : .data ∉ instrParts i := by
  cases i <;> simp_all [instrParts, Instr.op?, opParts, streamPart]

/-- Settles O50: the host's side is in no instruction's parts, the input data in those of the two that rewind; CLEAR by its own
cases. -/
theorem instructionsLeaveTheHostAlone : Obligations.InstructionsLeaveTheHostAlone := by
  intro i s t h
  by_cases hclear : i = .clear
  · subst hclear
    rcases exec_clear_cases h with rfl | rfl | rfl <;> simp [State.secondPass]
  · obtain ⟨hparams, htbl, htoken, hlag, hops, hreads, hdraws, hsecond, hlate⟩ :=
      exec_same h hclear .host (host_not_mem_instrParts i)
    refine ⟨hparams, hsecond, ?_, htoken, hlag, hops, hreads, hdraws, fun _ => htbl⟩
    rintro (hnone | ⟨hencode, hcompress⟩)
    · exact data_same_of_no_late hsecond hnone (hlate hnone)
    · exact exec_same h hclear .data (data_not_mem_instrParts hencode hcompress)

/-! ### Tokens that do not cross their port (20_memory.md R48, 30_encoding.md R77) -/

/-- An output token crosses its port by `emit`, whatever it writes. -/
theorem exec_outputToken {i : Instr} {part : StreamPart} (hi : streamPart i = some part) (hu : part ≠ .unit) (s : State) :
    ∃ write, exec i s = emit write s := by
  cases i with
  | magic => exact ⟨fun t => .ok () (emitMagic t), rfl⟩
  | hdrInternal => exact ⟨fun t => .ok () (emitInternal t), rfl⟩
  | hdrLeaf v => exact ⟨fun t => .ok () (emitLeaf v.toNat t), rfl⟩
  | codeWord sym => exact ⟨emitCode sym.toNat, rfl⟩
  | pad n => exact ⟨fun t => .ok () (outWrite (List.replicate n false) t), rfl⟩
  | inputUnit u => exact absurd (Option.some.inj hi).symm hu
  | _ => cases hi

theorem emit_of_closed (write : State → Run Unit) {s : State} (h : s.status.outClosed = true) :
    emit write s = .refused .outputClosed :=
  if_pos h

theorem emit_of_raised {write : State → Run Unit} {s t : State} {c : ErrCode} {w : Word} (hopen : s.status.outClosed = false)
    (h : write s = .raised c w t) : emit write s = .next (recordFault c w t) := by
  rw [emit, if_neg (by simp [hopen]), h]

/-- A unit is read only where it is what InRead takes. -/
theorem execInputUnit_refused {u : Byte} {s : State} (h : (inRead 8 s).1 ≠ some u.toNat) :
    execInputUnit u s = .refused .unitNotAtPort := by
  unfold execInputUnit
  split
  · rename_i v t hread
    rw [hread] at h
    exact if_neg fun e => h (congrArg some e)
  · rfl

/-- What InRead answers is the number of the bits that are left. -/
theorem take_inBits_of_inRead {n v : Nat} {s : State} (h : (inRead n s).1 = some v) : s.inBits.take n = bitsOf n v := by
  rcases inRead_cases n s with ⟨hle, e⟩ | ⟨_, e⟩ <;> rw [e] at h <;> cases h
  rw [State.inBits, inField_take _ _ (by omega)]
  simpa using (bitsOf_num (inField s.inData s.inPos n)).symm

/-- Settles O49, clause by clause. -/
theorem tokensThatDoNotCross : Obligations.TokensThatDoNotCross := by
  refine ⟨fun s i part hpart hunit hclosed => ?_, fun s sym hopen hcode => ?_, fun s u hbits => ?_⟩
  · obtain ⟨write, e⟩ := exec_outputToken hpart hunit s
    rw [e, emit_of_closed write hclosed]
  · have uncoded : emitCode sym.toNat s = .raised .uncodedSymbol (BitVec.ofNat 32 sym.toNat) s := if_neg (by simp [hcode])
    exact emit_of_raised hopen uncoded
  · exact execInputUnit_refused fun h => hbits (take_inBits_of_inRead h)

end Sys2Proof.Machine

/-! ## Reads, writes, and the accesses that are defined (20_memory.md R52 to R58) -/

namespace Sys2Proof.Machine

/-- While BUSY = 1 a read of STATUS answers a free value with bit 0 set (20_memory.md R58). -/
theorem memRead_status_of_busy {s : State} (h : s.status.busy = true) :
    memRead 0x04 s = { s with hostReads := (Config.freeWord s.draws ||| 1#32) :: s.hostReads, draws := s.draws + 1 } :=
  if_pos h

theorem configWord_fields (p : Params) : (configWord p).extractLsb' 0 8 = BitVec.ofNat 8 p.countW ∧
    (configWord p).extractLsb' 8 16 = 513#16 ∧ (configWord p).extractLsb' 24 8 = 0#8 := by
  unfold configWord
  simp (disch := omega) only [BitVec.extractLsb'_append_eq_of_le, BitVec.extractLsb'_append_eq_of_add_le, Nat.reduceSub,
    BitVec.extractLsb'_eq_self]
  simp

/-- A 10-bit register reads as its number cut to 10 bits (10_state.md R32, R33). -/
theorem toNat_zeroExtend_ofNat_ten (n : Nat) : ((BitVec.ofNat 10 n).zeroExtend 32).toNat = n % 2 ^ 10 := by
  simp only [BitVec.zeroExtend, BitVec.toNat_setWidth, BitVec.toNat_ofNat]
  omega

/-- Settles O58: bit 0 of STATUS by `memRead_status_of_busy`, the registers cut to a width by their numbers. -/
theorem readsReturnTheRegisters : Obligations.ReadsReturnTheRegisters := by
  intro s
  obtain ⟨countW, nodeCap, reserved⟩ := configWord_fields s.params
  refine ⟨fun off => ?_, rfl, rfl, rfl, rfl, countW, nodeCap, reserved, fun hw => ?_, toNat_zeroExtend_ofNat_ten _,
    toNat_zeroExtend_ofNat_ten _, rfl, rfl, rfl⟩
  · obtain ⟨v, n, e, idle⟩ := memRead_eq off s
    refine ⟨v, n, e, fun hb hoff => ?_, idle⟩
    subst hoff
    rw [memRead_status_of_busy hb] at e
    obtain rfl : _ = v := (List.cons.inj (congrArg State.hostReads e)).1
    simp
  · have bound : s.nbytes % 2 ^ s.params.countW < 2 ^ 32 :=
      (Nat.mod_lt _ (Nat.two_pow_pos _)).trans_le (Nat.pow_le_pow_right (by decide) hw)
    exact (BitVec.toNat_ofNat _ _).trans (Nat.mod_eq_of_lt bound)

theorem hostStep_read_of_regOffset {s : State} {addr width off : Nat} (h : regOffset s.params addr width = some off) :
    hostStep exec (.read addr width) s = .next (memRead off s) := by
  simp only [hostStep, h]

theorem hostStep_write_of_regOffset {s : State} {addr width off : Nat} (h : regOffset s.params addr width = some off)
    (v : Word) (lag : Nat) : hostStep exec (.write addr width v lag) s = memWrite exec off v lag s := by
  simp only [hostStep, h]

/-- An access that the interface does not define is refused, a read as a write (20_memory.md R52). -/
theorem hostStep_of_regOffset_none {s : State} {addr width : Nat} (h : regOffset s.params addr width = none) (v : Word)
    (lag : Nat) : hostStep exec (.read addr width) s = .refused .undefinedAccess ∧
      hostStep exec (.write addr width v lag) s = .refused .undefinedAccess := by
  simp only [hostStep, h, and_self]

/-- Settles O59: the defined accesses are those that `regOffset` gives an offset. -/
theorem onlyDefinedAccessesAreTaken : Obligations.OnlyDefinedAccessesAreTaken := by
  refine ⟨fun s off v lag hlt hmod => ?_, fun s addr width v lag h => ?_⟩
  · have defined : regOffset s.params (s.params.regBase + off) 4 = some off := regOffset_eq_some.mpr ⟨rfl, rfl, hlt, hmod⟩
    exact ⟨hostStep_read_of_regOffset defined, hostStep_write_of_regOffset defined v lag⟩
  · exact hostStep_of_regOffset_none (if_neg (by omega)) v lag

end Sys2Proof.Machine

/-! ## The opcode map (30_encoding.md R64 to R66) -/

namespace Sys2Proof

/-- The rows of the opcode map, in its order (30_encoding.md R65). -/
def Op.all : List Op :=
  [.nop, .clear, .count, .build, .derive, .wrMagic, .wrHeader, .encode, .closeOut, .rdMagic, .rdHeader, .decode, .compress,
    .decompress]

@[simp] theorem Op.mem_all (op : Op) : op ∈ Op.all := by cases op <;> decide

/-- A command's word has no reserved bit set, and its opcode is at most 0x0D (30_encoding.md R64, R65). -/
theorem Op.word_fields (op : Op) :
    op.word.extractLsb' 8 24 = 0#24 ∧ (op.word.extractLsb' 0 8).toNat ≤ 0x0D := by
  cases op <;> decide

namespace Machine

/-- A word decodes to an instruction exactly where it is the word of that command. -/
theorem decodeCommand_eq_ok_iff {w : Word} {i : Instr} :
    decodeCommand w = .ok i ↔ ∃ op : Op, op.word = w ∧ op.instr = i := by
  constructor
  · intro h
    obtain ⟨op, hop, rfl⟩ := decodeCommand_eq_ok h
    exact ⟨op, (decodeOp_eq_ok hop).symm, rfl⟩
  · rintro ⟨op, rfl, rfl⟩
    exact decodeCommand_word op

/-- Settles O1: the listed pairs are the words and instructions of the rows of the map. -/
theorem commandWordsAreTheOpcodeMap : Obligations.CommandWordsAreTheOpcodeMap := by
  intro w i
  rw [decodeCommand_eq_ok_iff]
  change _ ↔ (w, i) ∈ Op.all.map fun op => (op.word, op.instr)
  simp

/-- A word with a reserved bit set or an opcode above 0x0D names no command (30_encoding.md R66). -/
theorem decodeOp_ne_ok_of_illegal {w : Word}
    (h : w.extractLsb' 8 24 ≠ 0#24 ∨ 0x0D < (w.extractLsb' 0 8).toNat) (op : Op) : decodeOp w ≠ .ok op := by
  intro hop
  obtain ⟨reserved, code⟩ := op.word_fields
  rw [← decodeOp_eq_ok hop] at reserved code
  rcases h with hr | hc
  · exact hr reserved
  · omega

/-- A word that names no command, offered to a ready block, is recorded (60_exceptions.md R120). -/
theorem offer_of_illegal {w : Word} (hw : ∀ op, decodeOp w ≠ .ok op) (lag : Nat) {s : State} (h : s.Ready) :
    offer exec w lag s = .next (recordIllegal w s) := by
  obtain ⟨idle, noError⟩ := h
  rcases offer_cases exec w lag s with ⟨hb, _⟩ | ⟨_, he, _⟩ | ⟨_, _, _, e⟩ | ⟨op, _, hop, _⟩ | ⟨op, _, hop, _⟩
  · simp [idle] at hb
  · exact absurd noError he
  · exact e
  · exact absurd hop (hw op)
  · exact absurd hop (hw op)

/-- Settles O2: such a word names no command, and the offer records it; BUSY is 0 already. -/
theorem illegalWordIsRecorded : Obligations.IllegalWordIsRecorded := by
  intro w lag s ready illegal
  have unnamed := decodeOp_ne_ok_of_illegal illegal
  refine ⟨fun i hi => ?_, ?_⟩
  · obtain ⟨op, hop, -⟩ := decodeCommand_eq_ok hi
    exact unnamed op hop
  · have idle : s.status.busy = false := ready.1
    simp only [memWrite_cmd, offer_of_illegal unnamed lag ready, recordIllegal, idle]

end Machine

end Sys2Proof

/-! ## Stream tokens are read back from their encodings (30_encoding.md R69 to R77) -/

namespace Sys2Proof

@[simp] theorem takeBits_bitsOf (n v : Nat) (rest : Bits) : takeBits n (bitsOf n v ++ rest) = some (bitsOf n v, rest) := by
  simpa using takeBits_append (bitsOf n v) rest

theorem decodeToken_magic (book : StreamBook) (rest : Bits) :
    decodeToken book .magic (bitsOf Config.magicBits book.magic.toNat ++ rest) = .ok (.magic, rest) := by
  simp [decodeToken, num_bitsOf_toNat]

theorem decodeHeaderToken_leaf {v : BitVec 9} (hv : v.toNat ≤ Config.sentinel) (rest : Bits) :
    decodeHeaderToken (true :: (bitsOf Config.leafBits v.toNat ++ rest)) = .ok (.hdrLeaf v, rest) := by
  simp [decodeHeaderToken, num_bitsOf_toNat, hv]

theorem decodeToken_unit (book : StreamBook) (u : Byte) (rest : Bits) :
    decodeToken book .unit (bitsOf Config.unitBits u.toNat ++ rest) = .ok (.inputUnit u, rest) := by
  simp [decodeToken, num_bitsOf_toNat]

theorem decodeToken_padding (book : StreamBook) {n : Nat} (hn : n ≤ 7) :
    decodeToken book .padding (List.replicate n false) = .ok (.pad n, []) := by
  simp [decodeToken, hn]

/-- Of two codes neither of which begins the other, one does not begin what the other begins (30_encoding.md R74). -/
theorem isPrefixOf_append_eq_false {c d : Bits} (hcd : ¬ c <+: d) (hdc : ¬ d <+: c) (rest : Bits) :
    c.isPrefixOf (d ++ rest) = false := by
  rw [Bool.eq_false_iff, Ne, List.isPrefixOf_iff_prefix]
  intro h
  exact (List.prefix_or_prefix_of_prefix h (List.prefix_append d rest)).elim hcd hdc

/-- Where no code of the list begins another, the bits after a code are read as that code (30_encoding.md R74). -/
theorem findCode_append {codes : List (BitVec 9 × Bits)}
    (free : codes.Pairwise fun e f => e.1 ≠ f.1 ∧ ¬ e.2 <+: f.2 ∧ ¬ f.2 <+: e.2) {sym : BitVec 9} {c : Bits}
    (hc : (sym, c) ∈ codes) (rest : Bits) : findCode (c ++ rest) codes = some (sym, rest) := by
  induction codes with
  | nil => cases hc
  | cons e codes ih =>
    obtain ⟨apart, free⟩ := List.pairwise_cons.mp free
    rcases List.mem_cons.mp hc with rfl | hc
    · have begins : c.isPrefixOf (c ++ rest) = true := List.isPrefixOf_iff_prefix.mpr (List.prefix_append c rest)
      simp [findCode, begins]
    · obtain ⟨-, hec, hce⟩ := apart _ hc
      have skips : e.2.isPrefixOf (c ++ rest) = false := isPrefixOf_append_eq_false hec hce rest
      simp [findCode, skips, ih free hc]

/-- The code of a symbol stands in the book beside it. -/
theorem StreamBook.mem_codes_of_codeOf {book : StreamBook} {sym : BitVec 9} {c : Bits} (h : book.codeOf sym = some c) :
    (sym, c) ∈ book.codes := by
  obtain ⟨⟨sym', c'⟩, hfind, rfl⟩ := Option.map_eq_some_iff.mp h
  obtain rfl : sym' = sym := by simpa using List.find?_some hfind
  exact List.mem_of_find?_eq_some hfind

namespace Machine

theorem decodeToken_payload {book : StreamBook} (free : uniquelyReadable book) {sym : BitVec 9} {c : Bits}
    (h : book.codeOf sym = some c) (rest : Bits) : decodeToken book .payload (c ++ rest) = .ok (.codeWord sym, rest) := by
  simp only [decodeToken, findCode_append free (StreamBook.mem_codes_of_codeOf h)]

/-- Settles O3, token by token: the fixed-width ones by `num_bitsOf_toNat`, a code word by `findCode_append`. -/
theorem tokenDecodingInvertsEncoding : Obligations.TokenDecodingInvertsEncoding := by
  intro book part i bits rest hwf hpart free hbits hrest
  cases i with
  | magic =>
    cases hpart; cases hbits
    exact decodeToken_magic book rest
  | hdrInternal =>
    cases hpart; cases hbits
    rfl
  | hdrLeaf v =>
    cases hpart; cases hbits
    exact decodeHeaderToken_leaf (of_decide_eq_true hwf) rest
  | codeWord sym =>
    cases hpart
    exact decodeToken_payload free hbits rest
  | pad n =>
    cases hpart; cases hbits
    rw [hrest rfl, List.append_nil]
    exact decodeToken_padding book (of_decide_eq_true hwf)
  | inputUnit u =>
    cases hpart; cases hbits
    exact decodeToken_unit book u rest
  | _ => cases hpart

end Machine

end Sys2Proof

/-! ## Tokens cross their port (30_encoding.md R69 to R77) -/

namespace Sys2Proof.Machine

theorem emit_of_ok {write : State → Run Unit} {s t : State} (hopen : s.status.outClosed = false)
    (h : write s = .ok () t) : emit write s = .next t := by
  rw [emit, if_neg (by simp [hopen]), h]

/-- The codes of the block's own book are the valid entries of its code table (30_encoding.md R74). -/
theorem State.codeEntry_of_codeOf {s : State} {sym : BitVec 9} {c : Bits} (h : s.book.codeOf sym = some c) :
    (s.codeEntry sym.toNat).valid = true ∧ (s.codeEntry sym.toNat).bits = c := by
  obtain ⟨v, hv, e⟩ := List.mem_map.mp (StreamBook.mem_codes_of_codeOf h)
  cases e
  obtain ⟨hlt, hvalid⟩ := List.mem_filter.mp hv
  have small : v < 257 := List.mem_range.mp hlt
  rw [BitVec.toNat_ofNat, Nat.mod_eq_of_lt (by omega)]
  exact ⟨hvalid, rfl⟩

/-- Settles O47: what each output token writes is one OutWrite of its encoding. -/
theorem outputTokensAreWritten : Obligations.OutputTokensAreWritten := by
  intro s i part bits _ hpart hunit hopen hbits
  change exec i s = .next (outWrite bits s)
  cases i with
  | magic =>
    cases hbits
    exact emit_of_ok (write := fun t => .ok () (emitMagic t)) hopen rfl
  | hdrInternal =>
    cases hbits
    exact emit_of_ok (write := fun t => .ok () (emitInternal t)) hopen rfl
  | hdrLeaf v =>
    cases hbits
    exact emit_of_ok (write := fun t => .ok () (emitLeaf v.toNat t)) hopen (congrArg (Run.ok ()) (emitLeaf_eq v.toNat s))
  | codeWord sym =>
    obtain ⟨hvalid, rfl⟩ := State.codeEntry_of_codeOf hbits
    exact emit_of_ok hopen (if_pos hvalid)
  | pad n =>
    cases hbits
    exact emit_of_ok (write := fun t => .ok () (outWrite (List.replicate n false) t)) hopen rfl
  | inputUnit u => exact absurd (Option.some.inj hpart).symm hunit
  | _ => cases hpart

end Sys2Proof.Machine

/-! ### The input unit (30_encoding.md R77) -/

namespace Sys2Proof.Machine

theorem execInputUnit_of_inBits {s : State} {u : Byte} {rest : Bits} (h : s.inBits = bitsOf 8 u.toNat ++ rest) :
    execInputUnit u s = .next { s with inPos := s.inPos + 8, bitsIn := s.bitsIn + 8#32 } := by
  have left := inBits_length s
  rw [h, List.length_append, bitsOf_length] at left
  have read := inRead_of_inBits (by omega) h
  rw [bitsOf_length, num_bitsOf_toNat] at read
  simp [execInputUnit, read]

/-- At a byte boundary the bits that are left begin with the byte there (20_memory.md R43). -/
theorem inBits_of_byte {s : State} {k : Nat} {u : Byte} (hpos : s.inPos = 8 * k) (hu : s.inData[k]? = some u) :
    s.inBits = bitsOf 8 u.toNat ++ inField s.inData (8 * k + 8) (8 * s.inData.length - (8 * k + 8)) := by
  have inside : k < s.inData.length := (List.getElem?_eq_some_iff.mp hu).1
  have length : 8 * s.inData.length - 8 * k = 8 + (8 * s.inData.length - (8 * k + 8)) := by omega
  rw [State.inBits, hpos, length, inField_add, inField_byte, List.getD_eq_getElem?_getD, hu, Option.getD_some]

/-- Settles O48: at a byte boundary the byte is the next 8 bits. -/
theorem inputUnitIsRead : Obligations.InputUnitIsRead :=
  ⟨fun _ _ _ h => execInputUnit_of_inBits h, fun _ _ _ hpos hu => execInputUnit_of_inBits (inBits_of_byte hpos hu)⟩

end Sys2Proof.Machine

/-! ## Offering a command (40_control.md R80, R81) -/

namespace Sys2Proof.Machine

/-- Under an error only CLEAR, and CLOSE_OUT on an open output, are accepted (40_control.md R80, case 2). -/
theorem acceptsUnderError_eq_false_iff {f : Status} {op : Op} :
    f.acceptsUnderError op = false ↔ op ≠ .clear ∧ (op = .closeOut → f.outClosed = true) := by
  simp [Status.acceptsUnderError]

theorem exec_of_busy {s : State} (h : s.status.busy = true) (op : Op) : exec op.instr s = .next (dropBusy s) := by
  rw [exec_eq_command, command, if_pos h]

theorem offer_of_busy {s : State} (h : s.status.busy = true) (w : Word) (lag : Nat) :
    offer exec w lag s = .next (dropBusy s) := by
  rw [offer, if_pos h]

theorem exec_of_error {s : State} {op : Op} (idle : s.status.busy = false) (err : s.status.err ≠ ErrCode.none)
    (h : s.status.acceptsUnderError op = false) : exec op.instr s = .next s := by
  rw [exec_eq_command, command, if_neg (by simp [idle]), if_pos ⟨err, h⟩]

/-- Under an error a word is dropped, unless it is that of a command that is accepted. -/
theorem offer_of_error {s : State} {w : Word} (idle : s.status.busy = false) (err : s.status.err ≠ ErrCode.none)
    (h : ∀ op : Op, w = op.word → s.status.acceptsUnderError op = false) (lag : Nat) : offer exec w lag s = .next s := by
  have notAccepted {op : Op} (hw : decodeOp w = .ok op) :
      ¬ (s.status.err = ErrCode.none ∨ s.status.acceptsUnderError op = true) := by
    simp [err, h op (decodeOp_eq_ok hw)]
  rcases offer_cases exec w lag s with ⟨hb, _⟩ | ⟨_, _, _, e⟩ | ⟨_, he, _⟩ | ⟨op, _, hw, ha, _⟩ | ⟨op, _, hw, ha, _⟩
  · simp [idle] at hb
  · exact e
  · exact absurd he err
  · exact absurd ha (notAccepted hw)
  · exact absurd ha (notAccepted hw)

/-- What acceptance writes, no precondition reads (40_control.md R81). -/
theorem preHolds_accept (op : Op) (s : State) : preHolds op (accept op s).status = preHolds op s.status := by
  cases op <;> rfl

section Accepted

variable {op : Op} {s : State} (idle : s.status.busy = false)
  (accepted : s.status.err = ErrCode.none ∨ s.status.acceptsUnderError op = true)
include idle accepted

/-- An accepted command runs to its end, or to SEQUENCE (40_control.md R80, case 4). -/
theorem exec_of_accepted : exec op.instr s = settle (runAccepted op (opBody op) (accept op s)) := by
  have notDropped : ¬ (s.status.err ≠ ErrCode.none ∧ s.status.acceptsUnderError op = false) := by
    rcases accepted with h | h <;> simp [h]
  rw [exec_eq_command, command, if_neg (by simp [idle]), if_neg notDropped]

theorem exec_of_pre (pre : preHolds op s.status = true) :
    exec op.instr s = settle (opBody op (startReading op (accept op s))) := by
  rw [exec_of_accepted idle accepted, runAccepted, if_pos ((preHolds_accept op s).trans pre)]

/-- With its precondition false an accepted command ends before its body (40_control.md R81). -/
theorem exec_of_not_pre (pre : preHolds op s.status = false) :
    exec op.instr s = .next (recordFault .sequence op.word (accept op s)) := by
  rw [exec_of_accepted idle accepted, runAccepted, preHolds_accept, pre]
  rfl

end Accepted

theorem startReading_err (op : Op) (s : State) : (startReading op s).status.err = s.status.err := by
  rw [startReading_status]
  split <;> rfl

/-- However a body that began with no error ends, it has raised no error but its own (60_exceptions.md R117). -/
theorem err_of_settle_opBody {op : Op} {u t : State} (noError : u.status.err = ErrCode.none)
    (h : settle (opBody op u) = .next t) : t.status.err = ErrCode.none ∨ t.status.err.FromBody := by
  by_cases hc : op = .clear
  · subst hc
    cases h
    exact .inl rfl
  · have run := body_confined hc u
    rcases settle_eq_next.mp h with ⟨v, hr, rfl⟩ | ⟨c, w, v, hr, rfl⟩ <;> rw [hr] at run
    · have kept : v.status.err = u.status.err := (run.same .error (by cases op <;> simp [opParts])).1
      exact .inl (kept.trans noError)
    · exact .inr run.1

/-- Settles O11: a false precondition ends the command before its body, and no body raises SEQUENCE. -/
theorem falsePreconditionFaultsSequence : Obligations.FalsePreconditionFaultsSequence := by
  rintro op s ⟨idle, noError⟩
  refine ⟨fun needs => ?_, fun needs t h => ?_⟩
  · rw [← preHolds_iff, Bool.not_eq_true] at needs
    exact exec_of_not_pre idle (.inl noError) needs
  · rw [exec_of_pre idle (.inl noError) ((preHolds_iff op _).mpr needs)] at h
    have started : (startReading op (accept op s)).status.err = ErrCode.none := (startReading_err op _).trans noError
    rcases err_of_settle_opBody started h with completed | ⟨-, -, notSequence⟩
    · simp [completed]
    · exact notSequence

/-- Settles O9: BUSY = 1 is looked at before the word. -/
theorem busyCommandsAreDropped : Obligations.BusyCommandsAreDropped :=
  fun _ busy => ⟨exec_of_busy busy, offer_of_busy busy⟩

/-- Settles O10: no word but those of CLEAR and CLOSE_OUT names a command that an error lets through. -/
theorem commandsUnderErrorAreDropped : Obligations.CommandsUnderErrorAreDropped := by
  intro s idle err
  refine ⟨fun op hclear hclose => exec_of_error idle err (acceptsUnderError_eq_false_iff.mpr ⟨hclear, hclose⟩),
    fun w lag hclear hclose => offer_of_error idle err (fun op hw => acceptsUnderError_eq_false_iff.mpr ?_) lag⟩
  subst hw
  exact ⟨fun hop => hclear (congrArg Op.word hop), fun hop => hclose (congrArg Op.word hop)⟩

end Sys2Proof.Machine

/-! ## The control commands NOP, CLEAR and CLOSE_OUT (40_control.md R83 to R85) -/

namespace Sys2Proof.Machine

theorem execNop_of_ready {s : State} (h : s.Ready) :
    exec .nop s = .next { s with cmd := 0x00000000#32, status := { s.status with done := true } } := by
  have run : exec .nop s = .next (complete (accept .nop s)) := exec_of_pre (op := .nop) h.1 (.inl h.2) rfl
  have idle : s.status.busy = false := h.1
  simp only [run, complete, accept, idle]
  rfl

/-- Settles O13: NOP has no precondition, and completion sets DONE; the other clauses are the drops of R80. -/
theorem nopOnlyCompletes : Obligations.NopOnlyCompletes :=
  ⟨decodeCommand_word .nop, fun _ => execNop_of_ready,
    fun _ idle err => exec_of_error (op := .nop) idle err (acceptsUnderError_eq_false_iff.mpr ⟨nofun, nofun⟩),
    fun _ busy => exec_of_busy busy .nop,
    _, execNop_of_ready ⟨rfl, rfl⟩, by decide⟩

/-- Settles O14: an idle block accepts CLEAR with and without an error, and it has no precondition. -/
theorem clearGivesResetValues : Obligations.ClearGivesResetValues := by
  intro s idle
  have run : exec .clear s = .next (complete (clearBlock (accept .clear s))) :=
    exec_of_pre (op := .clear) idle (.inr rfl) rfl
  rw [run]
  rfl

/-- Settles O16: an idle block accepts CLOSE_OUT on an open output with and without an error, and the padding is that of
OutClose. -/
theorem closeOutPadsAndCloses : Obligations.CloseOutPadsAndCloses := by
  intro s idle isOpen
  have accepted : s.status.acceptsUnderError .closeOut = true := by simp [Status.acceptsUnderError, isOpen]
  have pre : preHolds .closeOut s.status = true := by simp [preHolds, isOpen]
  have run : exec .closeOut s = .next (complete (outClose (accept .closeOut s))) :=
    exec_of_pre (op := .closeOut) idle (.inr accepted) pre
  refine ⟨padLength s.out.length, padLength_lt _, add_padLength _, ?_⟩
  rw [run]
  simp only [complete, outClose, outWrite, List.length_replicate]
  rfl

end Sys2Proof.Machine

/-! ## The frequency counter (41_frequency.md R86, R87) -/

namespace Sys2Proof

/-- One more in the counter of v (41_frequency.md R86). -/
def Table.bump (t : Table Nat 256) (v : Nat) : Table Nat 256 := t.set v ((t.get? v).getD 0 + 1)

/-- A counter after a list of values: what it was, and how often its value occurs. -/
theorem Table.get?_foldl_bump (us : List Nat) (t : Table Nat 256) {v : Nat} (hv : v < 256) :
    (us.foldl Table.bump t).get? v = some ((t.get? v).getD 0 + us.count v) := by
  induction us generalizing t with
  | nil =>
    obtain ⟨a, ha⟩ := t.get?_lt hv
    simp [ha]
  | cons u us ih =>
    rw [List.foldl_cons, ih, Table.bump, Table.get?_set, List.count_cons]
    by_cases h : u = v
    · simp [h, hv, Nat.add_assoc, Nat.add_comm 1]
    · simp [h]

/-- Counters that hold how often each value occurs sum up to how many values there are. -/
theorem Table.sum_of_get?_count {n : Nat} {t : Table Nat n} {us : List Nat} (small : ∀ u ∈ us, u < n)
    (h : ∀ v, v < n → t.get? v = some (us.count v)) : t.entries.sum = us.length := by
  have entries : t.entries = (List.range n).map us.count := List.ext_getElem? fun v => by
    by_cases hv : v < n
    · simp [show t.entries[v]? = _ from h v hv, hv]
    · simp [show t.entries[v]? = none from t.get?_ge (Nat.le_of_not_lt hv), hv]
  rw [entries, ← List.sum_toFinset us.count List.nodup_range, List.toFinset_range]
  have card := Multiset.sum_count_eq_card (m := (us : Multiset Nat)) fun u hu => Finset.mem_range.mpr (small u hu)
  simpa only [Multiset.coe_count, Multiset.coe_card] using card

namespace Machine

/-! ### The units of an input (30_encoding.md R77) -/

@[simp] theorem unitsFrom_length (data : List Byte) (p : Nat) :
    (unitsFrom data p).length = (8 * data.length - p) / 8 := by simp [unitsFrom]

theorem unitsFrom_lt {data : List Byte} {p u : Nat} (hu : u ∈ unitsFrom data p) : u < 256 := by
  obtain ⟨k, -, rfl⟩ := List.mem_map.mp hu
  simpa using num_lt (inField data (p + 8 * k) 8)

/-- A whole unit is left behind n of them. -/
theorem unit_left {data : List Byte} {p n : Nat} (h : n < (unitsFrom data p).length) :
    p + 8 * n + 8 ≤ 8 * data.length := by
  rw [unitsFrom_length] at h
  omega

theorem unitsFrom_take_succ {data : List Byte} {p n : Nat} (h : n < (unitsFrom data p).length) :
    (unitsFrom data p).take (n + 1) = (unitsFrom data p).take n ++ [num (inField data (p + 8 * n) 8)] := by
  rw [List.take_succ_eq_append_getElem h]
  simp [unitsFrom]

/-- From the first bit on the units are the bytes (20_memory.md R43). -/
theorem unitsFrom_zero (data : List Byte) : unitsFrom data 0 = data.map BitVec.toNat := by
  refine List.ext_getElem (by simp) fun k hk _ => ?_
  have inside : k < data.length := by simpa using hk
  simp [unitsFrom, inField_byte, num_bitsOf_toNat, inside]

/-- One unit more in BITS_IN (10_state.md R34). -/
theorem unitBits_succ (n : Nat) : BitVec.ofNat 32 (8 * (n + 1)) = BitVec.ofNat 32 (8 * n) + 8#32 := by
  rw [Nat.mul_succ, BitVec.ofNat_add]

/-! ### COUNT's loop -/

/-- One pass of COUNT's loop over a whole unit that does not meet a full counter (41_frequency.md R86). -/
def passUnit (s : State) : State :=
  { s with
    freq := s.freq.bump (num (inField s.inData s.inPos 8))
    nbytes := s.nbytes + 1
    inPos := s.inPos + 8
    bitsIn := s.bitsIn + 8#32 }

section Loop

variable {s : State} (bound : Nat)

theorem countLoop_of_room (left : s.inPos + 8 ≤ 8 * s.inData.length) (room : s.nbytes ≠ s.params.maxBytes) :
    countLoop (bound + 1) s = countLoop bound (passUnit s) := by
  rw [countLoop, inRead, if_pos left]
  simp only [countUnit, if_neg room]
  rfl

/-- A unit that meets NBYTES = MAX_BYTES is consumed and raises (41_frequency.md R86). -/
theorem countLoop_of_full (left : s.inPos + 8 ≤ 8 * s.inData.length) (full : s.nbytes = s.params.maxBytes) :
    countLoop (bound + 1) s = .raised .lengthOverflow (BitVec.ofNat 32 s.params.maxBytes)
      { s with inPos := s.inPos + 8, bitsIn := s.bitsIn + 8#32 } := by
  rw [countLoop, inRead, if_pos left]
  simp only [countUnit, if_pos full, Run.bind_raised]
  rw [full]

/-- With less than a unit left the loop ends at END (20_memory.md R45). -/
theorem countLoop_of_end (short : 8 * s.inData.length < s.inPos + 8) :
    countLoop (bound + 1) s =
      .ok () { s with inPos := 8 * s.inData.length, status := { s.status with eos := true } } := by
  rw [countLoop, inRead, if_neg (Nat.not_le.mpr short)]

end Loop

/-- COUNT's loop after its first n units, none of which met a full counter. -/
def afterUnits (n : Nat) (s : State) : State :=
  { s with
    freq := ((unitsFrom s.inData s.inPos).take n).foldl Table.bump s.freq
    nbytes := s.nbytes + n
    inPos := s.inPos + 8 * n
    bitsIn := s.bitsIn + BitVec.ofNat 32 (8 * n) }

@[simp] theorem afterUnits_zero (s : State) : afterUnits 0 s = s := by simp [afterUnits]

theorem afterUnits_succ {n : Nat} {s : State} (left : n < (unitsFrom s.inData s.inPos).length) :
    afterUnits (n + 1) s = passUnit (afterUnits n s) := by
  have freq := congrArg (List.foldl Table.bump s.freq) (unitsFrom_take_succ left)
  rw [List.foldl_append] at freq
  rw [afterUnits, freq, unitBits_succ, ← BitVec.add_assoc]
  rfl

/-- The loop counts the units it has room for, one a pass. -/
theorem countLoop_units {n : Nat} {s : State} (left : n ≤ (unitsFrom s.inData s.inPos).length)
    (room : s.nbytes + n ≤ s.params.maxBytes) (bound : Nat) :
    countLoop (n + bound) s = countLoop bound (afterUnits n s) := by
  induction n generalizing bound with
  | zero => rw [Nat.zero_add, afterUnits_zero]
  | succ n ih =>
    have hroom : (afterUnits n s).nbytes ≠ (afterUnits n s).params.maxBytes := Nat.ne_of_lt room
    rw [Nat.add_assoc, Nat.add_comm 1, ih (by omega) (by omega), afterUnits_succ left]
    exact countLoop_of_room bound (unit_left left) hroom

/-! ### COUNT -/

/-- FREQ after a list of unit values, counted from zeroed counters (41_frequency.md R86). -/
def counters (us : List Nat) : Table Nat 256 := us.foldl Table.bump (Table.fill 256 0)

theorem get?_counters (us : List Nat) {v : Nat} (hv : v < 256) : (counters us).get? v = some (us.count v) := by
  simp [counters, Table.get?_foldl_bump us _ hv, hv]

/-- COUNT zeroes the counters before its first read. -/
theorem afterUnits_countStart (n : Nat) (s : State) : afterUnits n (countStart s) =
    { s with
      freq := counters ((unitsFrom s.inData s.inPos).take n)
      nbytes := n
      inPos := s.inPos + 8 * n
      bitsIn := s.bitsIn + BitVec.ofNat 32 (8 * n)
      status := { s.status with freqValid := false, treeValid := false, codeValid := false } } := by
  have nbytes : (countStart s).nbytes + n = n := Nat.zero_add n
  rw [afterUnits, nbytes]
  rfl

section Body

variable {s : State}

theorem countBody_eq : countBody s = (countLoop ((unitsFrom s.inData s.inPos).length + 1) (countStart s)).bind
    fun _ t => .ok () { t with status := { t.status with freqValid := true } } := by
  rw [unitsFrom_length, countBody]

/-- Where there are at most MAX_BYTES units left, COUNT counts them all and ends at END. -/
theorem countBody_of_fits (fits : (unitsFrom s.inData s.inPos).length ≤ s.params.maxBytes) :
    countBody s = .ok ()
      { s with
        freq := counters (unitsFrom s.inData s.inPos)
        nbytes := (unitsFrom s.inData s.inPos).length
        inPos := 8 * s.inData.length
        bitsIn := s.bitsIn + BitVec.ofNat 32 (8 * (unitsFrom s.inData s.inPos).length)
        status := { s.status with freqValid := true, treeValid := false, codeValid := false, eos := true } } := by
  have short : 8 * s.inData.length < s.inPos + 8 * (unitsFrom s.inData s.inPos).length + 8 := by
    rw [unitsFrom_length]
    omega
  have loop := countLoop_units (n := (unitsFrom s.inData s.inPos).length) (s := countStart s) le_rfl
    ((Nat.zero_add _).trans_le fits) 1
  rw [afterUnits_countStart, countLoop_of_end 0 short] at loop
  rw [countBody_eq, loop, List.take_length]
  rfl

/-- Where there are more, COUNT counts MAX_BYTES units, and the next one meets the full counter. -/
theorem countBody_of_beyond (beyond : s.params.maxBytes < (unitsFrom s.inData s.inPos).length) :
    countBody s = .raised .lengthOverflow (BitVec.ofNat 32 s.params.maxBytes)
      { s with
        freq := counters ((unitsFrom s.inData s.inPos).take s.params.maxBytes)
        nbytes := s.params.maxBytes
        inPos := s.inPos + 8 * (s.params.maxBytes + 1)
        bitsIn := s.bitsIn + BitVec.ofNat 32 (8 * (s.params.maxBytes + 1))
        status := { s.status with freqValid := false, treeValid := false, codeValid := false } } := by
  obtain ⟨rest, hrest⟩ := Nat.exists_eq_add_of_lt beyond
  have bound : (unitsFrom s.inData s.inPos).length + 1 = s.params.maxBytes + (rest + 1 + 1) := by omega
  have loop := countLoop_units (s := countStart s) beyond.le (Nat.zero_add _).le (rest + 1 + 1)
  rw [afterUnits_countStart, countLoop_of_full _ (unit_left beyond) rfl] at loop
  rw [countBody_eq, bound, loop, unitBits_succ, ← BitVec.add_assoc]
  rfl

/-- Acceptance latches COUNT and zeroes BITS_IN and EOS (40_control.md R80). -/
theorem execCount_of_ready (h : s.Ready) : exec .count s = settle (countBody
    { s with
      bitsIn := 0#32
      cmd := 0x00000002#32
      status := { s.status with eos := false, done := false, busy := true } }) :=
  exec_of_pre (op := .count) h.1 (.inl h.2) rfl

end Body

/-- Settles O17: BITS_IN starts at 0, and every whole unit is counted. -/
theorem countCountsTheUnits : Obligations.CountCountsTheUnits := by
  intro s ready fits
  have idle : s.status.busy = false := ready.1
  refine ⟨_, fun v hv => get?_counters _ hv, ?_⟩
  rw [execCount_of_ready ready, countBody_of_fits]
  · simp only [settle, complete, idle, BitVec.zero_add]
  · exact fits

/-- Settles O20: BITS_IN starts at 0, and MAX_BYTES units are counted. -/
theorem countStopsAtMaxBytes : Obligations.CountStopsAtMaxBytes := by
  intro s ready beyond
  have idle : s.status.busy = false := ready.1
  refine ⟨_, fun v hv => get?_counters _ hv, ?_⟩
  rw [execCount_of_ready ready, countBody_of_beyond]
  · simp only [settle, recordFault, idle, BitVec.zero_add]
  · exact beyond

/-- Settles O18: from the first bit on the units are the bytes. -/
theorem countOfAWholeInput : Obligations.CountOfAWholeInput := by
  intro s ready start fits
  have units : unitsFrom s.inData s.inPos = s.inData.map BitVec.toNat := by rw [start, unitsFrom_zero]
  obtain ⟨freq, counts, run⟩ := countCountsTheUnits s ready (by simpa [units] using fits)
  refine ⟨_, run, rfl, rfl, fun v => ?_, by simp [units]⟩
  rw [State.count, counts v.toNat v.isLt, units, List.count_map_of_injective _ _ fun _ _ => BitVec.eq_of_toNat_eq]
  rfl

/-- A block whose counters hold how often each unit of a list occurs meets R87's bounds. -/
theorem count_bounds_of_get?_count {t : State} {us : List Nat} (small : ∀ u ∈ us, u < 256)
    (counts : ∀ v, v < 256 → t.freq.get? v = some (us.count v)) (number : t.nbytes = us.length)
    (fits : us.length ≤ t.params.maxBytes) :
    t.nbytes = t.freq.entries.sum ∧ t.nbytes ≤ t.params.maxBytes ∧ ∀ v, t.count v ≤ t.nbytes := by
  refine ⟨number.trans (Table.sum_of_get?_count small counts).symm, number.trans_le fits, fun v => ?_⟩
  by_cases hv : v < 256
  · rw [State.count, counts v hv, number]
    exact List.count_le_length
  · rw [State.count, t.freq.get?_ge (Nat.le_of_not_lt hv)]
    exact Nat.zero_le _

/-- Settles O19: completed or faulted, the counters hold how often each unit occurs among those counted. -/
theorem countersNeverWrap : Obligations.CountersNeverWrap := by
  intro s t ready next
  rcases le_or_gt (unitsFrom s.inData s.inPos).length s.params.maxBytes with fits | beyond
  · obtain ⟨freq, counts, run⟩ := countCountsTheUnits s ready fits
    cases run.symm.trans next
    exact count_bounds_of_get?_count (fun _ => unitsFrom_lt) counts rfl fits
  · obtain ⟨freq, counts, run⟩ := countStopsAtMaxBytes s ready beyond
    cases run.symm.trans next
    have length := List.length_take_of_le beyond.le
    exact count_bounds_of_get?_count (fun _ hu => unitsFrom_lt (List.mem_of_mem_take hu)) counts length.symm length.le

end Machine

end Sys2Proof

/-! ## Trees of least weighted path length (42_tree_builder.md R94) -/

namespace Sys2Proof.Machine

/-! ### Weights -/

/-- The sum of the weights of a tree's leaves (42_tree_builder.md R93). -/
def Tree.total (w : Nat → Nat) (t : Tree) : Nat := (t.leaves.map w).sum

@[simp] theorem Tree.total_leaf (w : Nat → Nat) (v : Nat) : (Tree.leaf v).total w = w v := by simp [Tree.total, Tree.leaves]

@[simp] theorem Tree.total_node (w : Nat → Nat) (l r : Tree) : (Tree.node l r).total w = l.total w + r.total w := by
  simp [Tree.total, Tree.leaves]

/-- The weights at the leaves of a tree that carries a weight as each leaf's value. -/
def Tree.bag (t : Tree) : Multiset Nat := t.leaves

/-- The weighted path length of such a tree. -/
def Tree.cost (t : Tree) : Nat := t.pathWeight id 0

@[simp] theorem Tree.bag_leaf (v : Nat) : (Tree.leaf v).bag = {v} := rfl

@[simp] theorem Tree.bag_node (l r : Tree) : (Tree.node l r).bag = l.bag + r.bag := rfl

theorem Tree.mem_bag_node {l r : Tree} {v : Nat} : v ∈ (Tree.node l r).bag ↔ v ∈ l.bag ∨ v ∈ r.bag := by
  rw [Tree.bag_node, Multiset.mem_add]

theorem Tree.bag_swap (l r : Tree) : (Tree.node l r).bag = (Tree.node r l).bag := by simp [add_comm]

theorem Tree.bag_ne_zero (t : Tree) : t.bag ≠ 0 := by
  induction t with
  | leaf v => simp
  | node l r ihl ihr => simp [ihl]

theorem Tree.pathWeight_succ (w : Nat → Nat) (t : Tree) (d : Nat) :
    t.pathWeight w (d + 1) = t.pathWeight w d + t.total w := by
  induction t generalizing d with
  | leaf v => simp [Tree.pathWeight, Nat.mul_succ]
  | node l r ihl ihr =>
    simp only [Tree.pathWeight, Tree.total_node, ihl, ihr]
    omega

/-- The root of a tree adds the weights of its leaves to the path weights of its subtrees. -/
theorem Tree.pathWeight_node (w : Nat → Nat) (l r : Tree) : (Tree.node l r).pathWeight w 0 =
    l.pathWeight w 0 + r.pathWeight w 0 + (l.total w + r.total w) := by
  rw [Tree.pathWeight, Tree.pathWeight_succ, Tree.pathWeight_succ]
  omega

@[simp] theorem Tree.cost_leaf (v : Nat) : (Tree.leaf v).cost = 0 := rfl

@[simp] theorem Tree.cost_node (l r : Tree) : (Tree.node l r).cost = l.cost + r.cost + (l.bag.sum + r.bag.sum) := by
  simpa [Tree.cost, Tree.bag, Tree.total] using Tree.pathWeight_node id l r

/-- A tree and its mirror image at the root agree in weights and path length. -/
theorem Tree.cost_swap (l r : Tree) : (Tree.node l r).cost = (Tree.node r l).cost := by
  simp only [Tree.cost_node]
  omega

/-! ### Leaves at a depth -/

/-- The tree has a leaf of weight v at depth k, besides the other leaves: another weight can stand there, at that cost. -/
structure Tree.LeafAt (t : Tree) (v k : Nat) (others : Multiset Nat) : Prop where
  bag : t.bag = v ::ₘ others
  replace : ∀ x, ∃ u : Tree, u.bag = x ::ₘ others ∧ u.cost + v * k = t.cost + x * k

namespace Tree.LeafAt

variable {l r t u : Tree} {v k : Nat} {others : Multiset Nat}

theorem leaf (v : Nat) : (Tree.leaf v).LeafAt v 0 0 := ⟨rfl, fun x => ⟨.leaf x, rfl, by simp⟩⟩

theorem congr (h : t.LeafAt v k others) (bag : u.bag = t.bag) (cost : u.cost = t.cost) : u.LeafAt v k others :=
  ⟨bag.trans h.bag, fun x => cost ▸ h.replace x⟩

theorem others_eq (h : t.LeafAt v k others) {rest : Multiset Nat} (bag : t.bag = v ::ₘ rest) : others = rest :=
  (Multiset.cons_inj_right v).mp (h.bag.symm.trans bag)

theorem left (h : l.LeafAt v k others) (r : Tree) : (Tree.node l r).LeafAt v (k + 1) (others + r.bag) where
  bag := by simp [h.bag]
  replace x := by
    obtain ⟨u, bag, cost⟩ := h.replace x
    refine ⟨.node u r, by simp [bag], ?_⟩
    simp only [Tree.cost_node, bag, h.bag, Multiset.sum_cons, Nat.mul_succ]
    omega

theorem right (h : r.LeafAt v k others) (l : Tree) : (Tree.node l r).LeafAt v (k + 1) (others + l.bag) :=
  (h.left l).congr (Tree.bag_swap l r) (Tree.cost_swap l r)

end Tree.LeafAt

theorem Tree.exists_leafAt {t : Tree} {v : Nat} (h : v ∈ t.bag) : ∃ k others, t.LeafAt v k others := by
  induction t with
  | leaf w =>
    obtain rfl : v = w := by simpa using h
    exact ⟨0, 0, .leaf v⟩
  | node l r ihl ihr =>
    rcases Tree.mem_bag_node.mp h with h | h
    · obtain ⟨k, others, at_l⟩ := ihl h
      exact ⟨_, _, at_l.left r⟩
    · obtain ⟨k, others, at_r⟩ := ihr h
      exact ⟨_, _, at_r.right l⟩

/-- The tree has a leaf of weight v and another leaf x that lies at least as deep. -/
structure Tree.Deeper (t : Tree) (v k x j : Nat) (others : Multiset Nat) : Prop where
  le : k ≤ j
  upper : t.LeafAt v k (x ::ₘ others)
  lower : t.LeafAt x j (v ::ₘ others)

namespace Tree.Deeper

variable {l r t u : Tree} {v k x j : Nat} {others : Multiset Nat}

theorem congr (h : t.Deeper v k x j others) (bag : u.bag = t.bag) (cost : u.cost = t.cost) : u.Deeper v k x j others :=
  ⟨h.le, h.upper.congr bag cost, h.lower.congr bag cost⟩

theorem left (h : l.Deeper v k x j others) (r : Tree) : (Tree.node l r).Deeper v (k + 1) x (j + 1) (others + r.bag) where
  le := Nat.succ_le_succ h.le
  upper := by simpa using h.upper.left r
  lower := by simpa using h.lower.left r

/-- Beside a leaf at depth 1 every leaf lies at least as deep. -/
theorem of_leaf (h : r.LeafAt x j others) (v : Nat) : (Tree.node (.leaf v) r).Deeper v 1 x (j + 1) others where
  le := Nat.succ_pos j
  upper := by simpa [h.bag] using (Tree.LeafAt.leaf v).left r
  lower := by simpa [add_comm others] using h.right (.leaf v)

end Tree.Deeper

/-- In a tree of two leaves or more no leaf is the only deepest one: some other leaf lies at least as deep. -/
theorem Tree.exists_deeper {t : Tree} {v : Nat} (h : v ∈ t.bag) :
    t = .leaf v ∨ ∃ k x j others, t.Deeper v k x j others := by
  induction t with
  | leaf w =>
    obtain rfl : v = w := by simpa using h
    exact .inl rfl
  | node l r ihl ihr =>
    have inFirst {l : Tree} (r : Tree) (ih : l = .leaf v ∨ ∃ k x j others, l.Deeper v k x j others) :
        ∃ k x j others, (Tree.node l r).Deeper v k x j others := by
      rcases ih with rfl | ⟨k, x, j, others, deeper⟩
      · obtain ⟨x, hx⟩ := Multiset.exists_mem_of_ne_zero r.bag_ne_zero
        obtain ⟨j, others, at_x⟩ := Tree.exists_leafAt hx
        exact ⟨_, _, _, _, .of_leaf at_x v⟩
      · exact ⟨_, _, _, _, deeper.left r⟩
    refine .inr ?_
    rcases Tree.mem_bag_node.mp h with h | h
    · exact inFirst r (ihl h)
    · obtain ⟨k, x, j, others, deeper⟩ := inFirst l (ihr h)
      exact ⟨k, x, j, others, deeper.congr (Tree.bag_swap l r) (Tree.cost_swap l r)⟩

/-! ### Merging the two least leaves -/

/-- Some tree of at most the tree's path length, less a + b, has one leaf of weight a + b beside the rest. -/
def Tree.Mergeable (t : Tree) (a b : Nat) (rest : Multiset Nat) : Prop :=
  ∃ u : Tree, u.bag = (a + b) ::ₘ rest ∧ u.cost + (a + b) ≤ t.cost

namespace Tree.Mergeable

variable {l r t : Tree} {a b k x j : Nat} {rest others : Multiset Nat}

theorem symm (h : t.Mergeable a b rest) : t.Mergeable b a rest := by
  rwa [Tree.Mergeable, Nat.add_comm b a]

theorem mirror (h : (Tree.node r l).Mergeable a b rest) : (Tree.node l r).Mergeable a b rest := by
  rwa [Tree.Mergeable, Tree.cost_swap l r]

theorem left (h : l.Mergeable a b rest) (bag : l.bag = a ::ₘ b ::ₘ rest) (r : Tree) :
    (Tree.node l r).Mergeable a b (rest + r.bag) := by
  obtain ⟨u, hu, cost⟩ := h
  refine ⟨.node u r, by simp [hu], ?_⟩
  simp only [Tree.cost_node, hu, bag, Multiset.sum_cons]
  omega

/-- Changing places with a heavier leaf that lies at least as deep, a joins b in one subtree. -/
theorem exchange (upper : l.LeafAt a k rest) (lower : r.LeafAt x j (b ::ₘ others)) (deep : k ≤ j) (light : a ≤ x)
    (together : ∀ u : Tree, u.bag = a ::ₘ b ::ₘ others → u.Mergeable a b others) :
    (Tree.node l r).Mergeable a b (rest + x ::ₘ others) := by
  obtain ⟨l', bag_l', cost_l'⟩ := upper.replace x
  obtain ⟨r', bag_r', cost_r'⟩ := lower.replace a
  obtain ⟨u, bag_u, cost_u⟩ := together r' bag_r'
  have gain : a * j + x * k ≤ a * k + x * j := mul_add_mul_le_mul_add_mul light deep
  refine ⟨.node l' u, by simp [bag_l', bag_u, Multiset.cons_swap], ?_⟩
  simp only [Tree.cost_node, bag_l', bag_u, upper.bag, lower.bag, Multiset.sum_cons]
  omega

end Tree.Mergeable

/-- In trees of fewer than n leaves, a and b can be merged where they are least. -/
def MergeableBelow (n a b : Nat) : Prop :=
  ∀ (u : Tree) (rest : Multiset Nat), u.bag.card < n → u.bag = a ::ₘ b ::ₘ rest → (∀ x ∈ rest, a ≤ x ∧ b ≤ x) →
    u.Mergeable a b rest

theorem MergeableBelow.symm {n a b : Nat} (h : MergeableBelow n a b) : MergeableBelow n b a :=
  fun u rest small bag least => (h u rest small (bag.trans (Multiset.cons_swap b a rest)) fun x hx => (least x hx).symm).symm

namespace Tree.Mergeable

section Apart

variable {l r : Tree} {a b k m x j : Nat} {rest others others' : Multiset Nat}
  (bag_l : l.bag = a ::ₘ rest) (bag_r : r.bag = b ::ₘ others) (least : ∀ x ∈ rest + others, a ≤ x ∧ b ≤ x)
  (below : MergeableBelow (Tree.node l r).bag.card a b)
include bag_l bag_r least below

/-- Where b lies at least as deep as a and not alone, a can join it. -/
theorem of_deeper (upper : l.LeafAt a k rest) (deeper : r.Deeper b m x j others') (deep : k ≤ m) :
    (Tree.node l r).Mergeable a b (rest + others) := by
  obtain rfl : x ::ₘ others' = others := deeper.upper.others_eq bag_r
  refine exchange upper deeper.lower (deep.trans deeper.le) (least x (by simp)).1 fun u bag => ?_
  exact below u others' (by simp [bag, bag_l, bag_r]) bag fun y hy => least y (by simp [hy])

/-- As of_deeper, where a lies at least as deep as b. -/
theorem of_deeper_left (deeper : l.Deeper a k x j others') (upper : r.LeafAt b m others) (deep : m ≤ k) :
    (Tree.node l r).Mergeable a b (rest + others) := by
  rw [add_comm rest] at least ⊢
  rw [Tree.bag_swap] at below
  exact (of_deeper bag_r bag_l (fun x hx => (least x hx).symm) below.symm upper deeper deep).symm.mirror

/-- Least leaves that lie in different subtrees: one changes places with a leaf beside the other, or both are alone. -/
theorem of_apart : (Tree.node l r).Mergeable a b (rest + others) := by
  have only {t : Tree} {v : Nat} {o : Multiset Nat} (leaf : t = .leaf v) (bag : t.bag = v ::ₘ o) : t.LeafAt v 0 o := by
    subst leaf
    exact (Tree.LeafAt.leaf v).others_eq bag ▸ .leaf v
  rcases Tree.exists_deeper (t := l) (v := a) (by simp [bag_l]) with leaf_l | ⟨k, x, j, others_l, deeper_l⟩ <;>
    rcases Tree.exists_deeper (t := r) (v := b) (by simp [bag_r]) with leaf_r | ⟨m, y, i, others_r, deeper_r⟩
  · subst leaf_l leaf_r
    obtain rfl : 0 = rest := (Tree.LeafAt.leaf a).others_eq bag_l
    obtain rfl : 0 = others := (Tree.LeafAt.leaf b).others_eq bag_r
    exact ⟨.leaf (a + b), rfl, by simp⟩
  · exact of_deeper bag_l bag_r least below (only leaf_l bag_l) deeper_r (Nat.zero_le m)
  · exact of_deeper_left bag_l bag_r least below deeper_l (only leaf_r bag_r) (Nat.zero_le k)
  · rcases Nat.le_total k m with deep | deep
    · exact of_deeper bag_l bag_r least below (deeper_l.upper.others_eq bag_l ▸ deeper_l.upper) deeper_r deep
    · exact of_deeper_left bag_l bag_r least below deeper_l (deeper_r.upper.others_eq bag_r ▸ deeper_r.upper) deep

end Apart

/-- With a on the left, b is beside it or apart from it. -/
theorem of_mem_left {l r : Tree} {a b : Nat} {rest : Multiset Nat} (mem : a ∈ l.bag)
    (bag : (Tree.node l r).bag = a ::ₘ b ::ₘ rest) (least : ∀ x ∈ rest, a ≤ x ∧ b ≤ x)
    (below : MergeableBelow (Tree.node l r).bag.card a b) : (Tree.node l r).Mergeable a b rest := by
  obtain ⟨left, bag_l⟩ := Multiset.exists_cons_of_mem mem
  have split : left + r.bag = b ::ₘ rest := by simpa [bag_l] using bag
  rcases Multiset.mem_add.mp (split ▸ Multiset.mem_cons_self b rest) with mem_b | mem_b
  · obtain ⟨left, rfl⟩ := Multiset.exists_cons_of_mem mem_b
    obtain rfl : left + r.bag = rest := by simpa using split
    have fewer : l.bag.card < (Tree.node l r).bag.card := by simpa using Multiset.card_pos.mpr r.bag_ne_zero
    exact (below l left fewer bag_l fun x hx => least x (by simp [hx])).left bag_l r
  · obtain ⟨right, bag_r⟩ := Multiset.exists_cons_of_mem mem_b
    obtain rfl : left + right = rest := by simpa [bag_r] using split
    exact of_apart bag_l bag_r least below

end Tree.Mergeable

/-- The two least leaves of a tree can be merged into one, at the cost of their weights. -/
theorem Tree.mergeable {t : Tree} {a b : Nat} {rest : Multiset Nat} (bag : t.bag = a ::ₘ b ::ₘ rest)
    (least : ∀ x ∈ rest, a ≤ x ∧ b ≤ x) : t.Mergeable a b rest := by
  induction hn : t.bag.card using Nat.strong_induction_on generalizing t rest with
  | _ n ih =>
    subst hn
    have below : MergeableBelow t.bag.card a b := fun _ _ fewer bag least => ih _ fewer bag least rfl
    cases t with
    | leaf v => simpa using congrArg Multiset.card bag
    | node l r =>
      have mem : a ∈ (Tree.node l r).bag := bag ▸ Multiset.mem_cons_self a _
      rcases Tree.mem_bag_node.mp mem with mem | mem
      · exact .of_mem_left mem bag least below
      · rw [Tree.bag_swap] at bag below
        exact (Mergeable.of_mem_left mem bag least below).mirror

/-! ### Merging the two least trees of a forest -/

/-- From the trees ts to the trees us two trees of least weight are merged (42_tree_builder.md R89). -/
inductive MergesLeast (w : Nat → Nat) (ts us : List Tree) : Prop
  | merge (l r : Tree) (rest : List Tree) (before : ts.Perm (l :: r :: rest)) (after : us.Perm (.node l r :: rest))
      (least : ∀ t ∈ rest, l.total w ≤ t.total w ∧ r.total w ≤ t.total w)

/-- Some tree over the roots of the forest makes of it a tree of weighted path length at most c. -/
def Completes (w : Nat → Nat) (ts : List Tree) (c : Nat) : Prop :=
  ∃ top : Tree, top.bag = ts.map (Tree.total w) ∧ (ts.map (Tree.pathWeight w 0)).sum + top.cost ≤ c

namespace MergesLeast

variable {w : Nat → Nat} {ts us : List Tree} {c : Nat}

theorem leaves (h : MergesLeast w ts us) : (us.flatMap Tree.leaves).Perm (ts.flatMap Tree.leaves) := by
  obtain ⟨l, r, rest, before, after, -⟩ := h
  have merged : (Tree.node l r :: rest).flatMap Tree.leaves = (l :: r :: rest).flatMap Tree.leaves := by
    simp [Tree.leaves]
  exact (after.flatMap_right _).trans (merged ▸ (before.flatMap_right _).symm)

/-- A merge of two least trees loses nothing: what could be reached before it can be reached after it. -/
theorem completes (h : MergesLeast w ts us) (reach : Completes w ts c) : Completes w us c := by
  obtain ⟨l, r, rest, before, after, least⟩ := h
  obtain ⟨top, bag, cost⟩ := reach
  have bag' : top.bag = l.total w ::ₘ r.total w ::ₘ (rest.map (Tree.total w) : Multiset Nat) :=
    bag.trans (Multiset.coe_eq_coe.mpr (before.map _))
  obtain ⟨top', bag_top', cost_top'⟩ := Tree.mergeable bag' (by simpa using least)
  refine ⟨top', ?_, ?_⟩
  · rw [bag_top', Multiset.coe_eq_coe.mpr (after.map (Tree.total w))]
    simp
  · rw [(before.map _).sum_eq] at cost
    rw [(after.map _).sum_eq]
    simp only [List.map_cons, List.sum_cons, Tree.pathWeight_node] at cost ⊢
    omega

end MergesLeast

/-- The forest that BUILD starts from: every leaf alone (42_tree_builder.md R89). -/
def singles (values : List Nat) : List Tree := values.map .leaf

/-- The tree with the same shape whose leaves carry their weights. -/
theorem Tree.exists_weighted (w : Nat → Nat) (t : Tree) :
    ∃ u : Tree, u.leaves = t.leaves.map w ∧ ∀ d, u.pathWeight id d = t.pathWeight w d := by
  induction t with
  | leaf v => exact ⟨.leaf (w v), rfl, fun d => rfl⟩
  | node l r ihl ihr =>
    obtain ⟨l', leaves_l, weight_l⟩ := ihl
    obtain ⟨r', leaves_r, weight_r⟩ := ihr
    refine ⟨.node l' r', by simp [Tree.leaves, leaves_l, leaves_r], fun d => ?_⟩
    simp only [Tree.pathWeight, weight_l, weight_r]

/-- Every tree over the leaves is reached from them. -/
theorem completes_singles (w : Nat → Nat) {values : List Nat} {t : Tree} (h : t.leaves.Perm values) :
    Completes w (singles values) (t.pathWeight w 0) := by
  obtain ⟨top, leaves, weight⟩ := t.exists_weighted w
  have total : (singles values).map (Tree.total w) = values.map w := by simp [singles, Tree.total, Tree.leaves]
  have none : ((singles values).map (Tree.pathWeight w 0)).sum = 0 := by
    simp [singles, Function.comp_def, Tree.pathWeight]
  refine ⟨top, ?_, ?_⟩
  · rw [Tree.bag, leaves, total]
    exact Multiset.coe_eq_coe.mpr (h.map w)
  · simp [none, Tree.cost, weight]

section Merged

variable {w : Nat → Nat} {ts : List Tree} {tree : Tree}

theorem leaves_of_merges {us : List Tree} (h : Relation.ReflTransGen (MergesLeast w) ts us) :
    (us.flatMap Tree.leaves).Perm (ts.flatMap Tree.leaves) := by
  induction h with
  | refl => exact .refl _
  | tail _ step ih => exact step.leaves.trans ih

theorem completes_of_merges {us : List Tree} {c : Nat} (h : Relation.ReflTransGen (MergesLeast w) ts us)
    (reach : Completes w ts c) : Completes w us c := by
  induction h with
  | refl => exact reach
  | tail _ step ih => exact step.completes ih

/-- Merging two least trees until one is left makes a tree of least weighted path length (42_tree_builder.md R94). -/
theorem pathWeight_le_of_merges {values : List Nat} (h : Relation.ReflTransGen (MergesLeast w) (singles values) [tree])
    {other : Tree} (leaves : other.leaves.Perm values) : tree.pathWeight w 0 ≤ other.pathWeight w 0 := by
  obtain ⟨top, -, cost⟩ := completes_of_merges h (completes_singles w leaves)
  simp only [List.map_singleton, List.sum_singleton] at cost
  omega

end Merged

end Sys2Proof.Machine

/-! ## The order of removal (42_tree_builder.md R91) -/

namespace Sys2Proof.Machine

/-- The order of removal: weight, then rank, then index. -/
theorem before_iff {s : State} {i j : Nat} : before s i j = true ↔
    s.weight i < s.weight j ∨ (s.weight i = s.weight j ∧
      (s.params.rank i < s.params.rank j ∨ (s.params.rank i = s.params.rank j ∧ i < j))) := by
  unfold before
  split
  · rw [decide_eq_true_iff]; omega
  · split <;> rw [decide_eq_true_iff] <;> omega

/-- Under TB_REF no node has a rank above another's. -/
theorem before_iff_of_default {s : State} (h : s.params.tieRank = []) {i j : Nat} :
    before s i j = true ↔ s.weight i < s.weight j ∨ (s.weight i = s.weight j ∧ i < j) := by
  simp [before_iff, Params.rank, h]

theorem before_trans {s : State} {i j k : Nat} (h : before s i j = true) (h' : before s j k = true) :
    before s i k = true := by
  rw [before_iff] at *
  omega

theorem before_of_not_before {s : State} {i j : Nat} (h : ¬ before s i j = true) (ne : i ≠ j) : before s j i = true := by
  rw [before_iff] at *
  omega

theorem weight_le_of_before {s : State} {i j : Nat} (h : before s i j = true) : s.weight i ≤ s.weight j := by
  rw [before_iff] at h
  omega

/-- The order of two nodes is fixed by their weights and by TIEBREAK. -/
theorem before_congr {s t : State} {i j : Nat} (params : t.params = s.params) (hi : t.weight i = s.weight i)
    (hj : t.weight j = s.weight j) : before t i j = before s i j := by
  rw [Bool.eq_iff_iff, before_iff, before_iff, params, hi, hj]

theorem least_cons {s : State} (i : Nat) {rest : List Nat} {j : Nat} (h : least s rest = some j) :
    least s (i :: rest) = if before s j i then some j else some i := by
  rw [least, h]

/-- The least element of a queue comes before every other. -/
theorem before_of_least {s : State} {queue : List Nat} {i : Nat} (h : least s queue = some i) :
    ∀ j ∈ queue, j ≠ i → before s i j = true := by
  induction queue generalizing i with
  | nil => cases h
  | cons k rest ih =>
    intro j hj ne
    cases hrest : least s rest with
    | none =>
      obtain rfl : k = i := by simpa [least, hrest] using h
      simp [least_eq_none hrest, ne] at hj
    | some m =>
      rw [least_cons k hrest] at h
      split at h <;> cases h
      · rcases List.mem_cons.mp hj with rfl | hj
        · assumption
        · exact ih hrest j hj ne
      · have hj : j ∈ rest := (List.mem_cons.mp hj).resolve_left ne
        by_cases last : j = m
        · subst last
          exact before_of_not_before ‹_› ne
        · by_cases same : m = k
          · exact ih (same ▸ hrest) j hj ne
          · exact before_trans (before_of_not_before ‹_› same) (ih hrest j hj last)

theorem popMin_of_ne_nil {s : State} (h : s.pq ≠ []) :
    ∃ i, least s s.pq = some i ∧ popMin s = some (i, { s with pq := s.pq.erase i }) := by
  cases hi : least s s.pq with
  | none => exact absurd (least_eq_none hi) h
  | some i => exact ⟨i, rfl, by rw [popMin, hi]; rfl⟩

/-- No queued node is lighter than the one PopMin removes (42_tree_builder.md R89). -/
theorem weight_le_of_popMin {s t : State} {i j : Nat} (h : popMin s = some (i, t)) (hj : j ∈ s.pq) :
    s.weight i ≤ s.weight j := by
  by_cases same : j = i
  · rw [same]
  · exact weight_le_of_before (before_of_least (popMin_eq_some h).1 j hj same)

/-- Settles O23: PopMin erases the least element of the queue, which stands there once. -/
theorem popMinTakesTheLeastPair : Obligations.PopMinTakesTheLeastPair := by
  intro s default nodup nonempty
  obtain ⟨i, hi, pop⟩ := popMin_of_ne_nil nonempty
  have erased : s.pq.erase i = s.pq.filter fun j => j ≠ i := by
    rw [nodup.erase_eq_filter]
    exact List.filter_congr fun j _ => (decide_not ..).symm
  exact ⟨i, least_mem hi, erased ▸ pop, fun j hj ne => (before_iff_of_default default).mp (before_of_least hi j hj ne)⟩

end Sys2Proof.Machine

/-! ## What BUILD makes of the counters (42_tree_builder.md R89, R90, R92 to R94) -/

namespace Sys2Proof.Machine

/-! ### The leaves -/

/-- The arena entry of a leaf (42_tree_builder.md R89). -/
def leafNode (v w : Nat) : Node := { isLeaf := true, value := v, weight := w, left := 0, right := 0 }

/-- The leaves' values in the order of their creation: the counted ones, then the sentinel (42_tree_builder.md R90). -/
def State.leafValues (s : State) : List Nat := s.counted ++ [Config.sentinel]

/-- The arena when all leaves are made. -/
def State.leafNodes (s : State) : List Node := s.leafValues.map fun v => leafNode v (s.leafWeight v)

/-- The arena entry of an internal node of weight w over a and b (42_tree_builder.md R89). -/
def internalNode (a b w : Nat) : Node := { isLeaf := false, value := 0, weight := w, left := a, right := b }

theorem newLeaf_eq_of_queue {s : State} (h : s.pq = List.range s.nodes.length) (v w : Nat) :
    newLeaf v w s = { s with
      nodes := s.nodes ++ [leafNode v w]
      pq := List.range (s.nodes ++ [leafNode v w]).length } := by
  rw [List.length_append, List.length_singleton, List.range_succ, ← h]
  rfl

/-- Where every node is queued, so are the leaves that are added for the weights ws of the values from v on. -/
theorem addLeaves_eq {s : State} (h : s.pq = List.range s.nodes.length) (ws : List Nat) (v : Nat) :
    addLeaves ws v s = { s with
      nodes := s.nodes ++ ((ws.zipIdx v).filter fun p => 0 < p.1).map fun p => leafNode p.2 p.1
      pq := List.range (s.nodes ++ ((ws.zipIdx v).filter fun p => 0 < p.1).map fun p => leafNode p.2 p.1).length } := by
  induction ws generalizing v s with
  | nil => simp [addLeaves, ← h]
  | cons w ws ih =>
    rw [addLeaves, List.zipIdx_cons]
    by_cases counted : w > 0
    · rw [if_pos counted, newLeaf_eq_of_queue h, ih rfl]
      simp [counted]
    · rw [if_neg counted, ih h]
      simp [counted]

theorem getElem?_entries (s : State) {v : Nat} (h : v < 256) : s.freq.entries[v]? = some (s.count v) := by
  obtain ⟨a, ha⟩ := s.freq.get?_lt h
  rw [State.count, ha]
  exact ha

/-- The counters, each with its value. -/
theorem zipIdx_entries (s : State) : s.freq.entries.zipIdx = (List.range 256).map fun v => (s.count v, v) := by
  refine List.ext_getElem? fun v => ?_
  rw [List.getElem?_zipIdx, List.getElem?_map]
  by_cases h : v < 256
  · simp [getElem?_entries s h, h]
  · simp [s.freq.size_eq, h]

/-- A counter of 0 adds nothing to the sum. -/
theorem sum_entries (s : State) : s.freq.entries.sum = (s.counted.map s.count).sum := by
  have entries : s.freq.entries = (List.range 256).map s.count := by
    simpa [Function.comp_def] using congrArg (List.map Prod.fst) (zipIdx_entries s)
  have counted : s.counted = (List.range 256).filter fun v => s.count v != 0 :=
    List.filter_congr fun v _ => by
    simp only [Nat.pos_iff_ne_zero, decide_not, bne, beq_eq_decide]
  rw [entries, counted, ← List.sum_filter_bne_zero, List.filter_map]
  rfl

theorem mem_counted {s : State} {v : Nat} (h : v ∈ s.counted) : v < 256 := by
  simpa using (List.mem_filter.mp h).1

theorem leafValues_le {s : State} {v : Nat} (h : v ∈ s.leafValues) : v ≤ Config.sentinel := by
  rcases List.mem_append.mp h with h | h
  · exact (mem_counted h).le
  · exact (List.mem_singleton.mp h).le

theorem leafWeight_of_mem_counted {s : State} {v : Nat} (h : v ∈ s.counted) : s.leafWeight v = s.count v :=
  if_neg (mem_counted h).ne

theorem leafNodes_eq (s : State) : s.leafNodes = (s.counted.map fun v => leafNode v (s.count v)) ++ [leafNode 256 1] := by
  have counted : s.counted.map (fun v => leafNode v (s.leafWeight v)) = s.counted.map fun v => leafNode v (s.count v) :=
    List.map_congr_left fun v h => by rw [leafWeight_of_mem_counted h]
  rw [State.leafNodes, State.leafValues, List.map_append, counted]
  rfl

/-- With all leaves made, every node is queued. -/
theorem buildLeaves_eq_leafNodes (s : State) : buildLeaves s = { buildStart s with
    nodes := s.leafNodes
    pq := List.range s.leafNodes.length } := by
  have counted : ((s.freq.entries.zipIdx).filter fun p => 0 < p.1).map (fun p => leafNode p.2 p.1) =
      s.counted.map fun v => leafNode v (s.count v) := by
    rw [zipIdx_entries, List.filter_map, List.map_map]
    rfl
  rw [buildLeaves_eq, addLeaves_eq rfl, newLeaf_eq_of_queue rfl, leafNodes_eq, ← counted]
  rfl

/-! ### One merge -/

/-- The two removals of a merge: a, then b, leave u (42_tree_builder.md R89). -/
def Pops (s : State) (a b : Nat) (u : State) : Prop := ∃ s1, popMin s = some (a, s1) ∧ popMin s1 = some (b, u)

namespace Pops

variable {s u : State} {a b : Nat} (h : Pops s a b u)
include h

theorem queue : s.pq.Perm (a :: b :: u.pq) := by
  obtain ⟨s1, ha, hb⟩ := h
  exact (popMin_perm ha).trans ((popMin_perm hb).cons a)

theorem eq_requeued : u = { s with pq := u.pq } := by
  obtain ⟨s1, ha, hb⟩ := h
  obtain ⟨-, rfl⟩ := popMin_eq_some ha
  obtain ⟨-, rfl⟩ := popMin_eq_some hb
  rfl

theorem nodes : u.nodes = s.nodes := by rw [h.eq_requeued]

theorem weight (i : Nat) : u.weight i = s.weight i := by rw [h.eq_requeued]; rfl

theorem newInternal_nodes :
    (newInternal a b u).nodes = s.nodes ++ [internalNode a b (s.weight a + s.weight b)] := by
  rw [← h.weight, ← h.weight, ← h.nodes]
  rfl

theorem newInternal_pq : (newInternal a b u).pq = u.pq ++ [s.nodes.length] := by
  rw [← h.nodes]
  rfl

/-- The first removed comes before every other queued node. -/
theorem first : ∀ j ∈ s.pq, j ≠ a → before s a j = true := by
  obtain ⟨s1, ha, -⟩ := h
  exact before_of_least (popMin_eq_some ha).1

/-- The second removed comes before every queued node but the first. -/
theorem second : ∀ j ∈ s.pq, j ≠ a → j ≠ b → before s b j = true := by
  obtain ⟨s1, ha, hb⟩ := h
  obtain ⟨-, rfl⟩ := popMin_eq_some ha
  intro j hj ne_a ne_b
  exact before_of_least (popMin_eq_some hb).1 j ((List.mem_erase_of_ne ne_a).mpr hj) ne_b

/-- Neither removed node is heavier than one that stays. -/
theorem weight_le {j : Nat} (hj : j ∈ u.pq) : s.weight a ≤ s.weight j ∧ s.weight b ≤ s.weight j := by
  obtain ⟨s1, ha, hb⟩ := h
  have queued : j ∈ s1.pq := (popMin_perm hb).mem_iff.mpr (by simp [hj])
  have first := weight_le_of_popMin ha ((popMin_perm ha).mem_iff.mpr (List.mem_cons_of_mem a queued))
  have second := weight_le_of_popMin hb queued
  obtain ⟨-, rfl⟩ := popMin_eq_some ha
  exact ⟨first, second⟩

end Pops

/-- What holds at the first merge and is kept by every merge holds at the end of the merges (42_tree_builder.md R89). -/
theorem mergeLoop_induction {P : State → Prop} {s : State} (start : P s)
    (merge : ∀ {s u : State} {a b : Nat}, P s → Pops s a b u → P (newInternal a b u)) (bound : Nat) :
    P (mergeLoop bound s) := by
  induction bound generalizing s with
  | zero => exact start
  | succ bound ih =>
    unfold mergeLoop
    split
    · exact start
    · split
      · exact start
      · exact ih (merge start ⟨_, ‹_›, ‹_›⟩)

theorem mergeLoop_eq (bound : Nat) (s : State) :
    mergeLoop bound s = { s with nodes := (mergeLoop bound s).nodes, pq := (mergeLoop bound s).pq } := by
  refine mergeLoop_induction (P := fun t => t = { s with nodes := t.nodes, pq := t.pq }) rfl (fun {t u a b} ht h => ?_) bound
  rw [newInternal, h.eq_requeued, ht]

/-- The state in which BUILD takes the root: the leaves made and merged. -/
def State.merged (s : State) : State := mergeLoop (buildLeaves s).pq.length (buildLeaves s)

theorem merged_eq (s : State) : s.merged = { buildStart s with nodes := s.merged.nodes, pq := s.merged.pq } := by
  have h := mergeLoop_eq (buildLeaves s).pq.length (buildLeaves s)
  rw [buildLeaves_eq_leafNodes] at h
  rw [State.merged, buildLeaves_eq_leafNodes]
  exact h

/-! ### The arena and the queue after the merges -/

theorem leafNodes_length (s : State) : s.leafNodes.length = s.counted.length + 1 := by
  simp [State.leafNodes, State.leafValues]

theorem merged_forest (s : State) : Forest s.merged.nodes s.merged.pq :=
  (mergeLoop_forest (buildLeaves_forest s) le_rfl).1

/-- One node is left in the queue, and one internal node fewer than leaves has been made (42_tree_builder.md R94). -/
theorem merged_lengths (s : State) : s.merged.pq.length = 1 ∧ s.merged.nodes.length = 2 * s.counted.length + 1 := by
  obtain ⟨forest, one, room⟩ := mergeLoop_forest (buildLeaves_forest s) le_rfl
  change s.merged.pq.length ≤ 1 at one
  change s.merged.nodes.length + s.merged.pq.length = _ at room
  have start := leafNodes_length s
  simp only [buildLeaves_eq_leafNodes, List.length_range] at room
  have nonempty : s.merged.pq ≠ [] := fun empty => by
    have covers := (merged_forest s).covers
    rw [empty] at covers room
    simp only [List.map_nil, List.sum_nil, List.length_nil] at covers room
    omega
  have := List.length_pos_iff.mpr nonempty
  omega

/-- Every merge queues the newest node, so that it is the root (42_tree_builder.md R94). -/
theorem merged_pq (s : State) : s.merged.pq = [2 * s.counted.length] := by
  obtain ⟨one, nodes⟩ := merged_lengths s
  have last : s.merged.pq.getLast? = some (s.merged.nodes.length - 1) := by
    refine mergeLoop_induction (P := fun t => t.pq.getLast? = some (t.nodes.length - 1)) ?_ (fun _ _ => ?_) _
    · simp [buildLeaves_eq_leafNodes, leafNodes_length, List.range_succ]
    · simp [newInternal]
  obtain ⟨r, hr⟩ := List.length_eq_one_iff.mp one
  rw [hr, nodes] at last
  simpa [hr] using last

/-- The arena is that of the leaves with internal nodes after it. -/
def InternalsFollow (leaves nodes : List Node) : Prop :=
  ∃ inner, nodes = leaves ++ inner ∧ ∀ nd ∈ inner, nd.isLeaf = false ∧ nd.value = 0

theorem InternalsFollow.push {leaves nodes : List Node} (h : InternalsFollow leaves nodes) (a b w : Nat) :
    InternalsFollow leaves (nodes ++ [internalNode a b w]) := by
  obtain ⟨inner, rfl, internal⟩ := h
  refine ⟨inner ++ [internalNode a b w], List.append_assoc .., fun nd hnd => ?_⟩
  rcases List.mem_append.mp hnd with hnd | hnd
  · exact internal nd hnd
  · rw [List.mem_singleton.mp hnd]
    exact ⟨rfl, rfl⟩

/-- The merges append internal nodes to the leaves (42_tree_builder.md R90). -/
theorem merged_nodes (s : State) : InternalsFollow s.leafNodes s.merged.nodes := by
  refine mergeLoop_induction (P := fun t => InternalsFollow s.leafNodes t.nodes) ?_ (fun ht h => ?_) _
  · exact ⟨[], by simp [buildLeaves_eq_leafNodes], nofun⟩
  · rw [h.newInternal_nodes]
    exact ht.push ..

theorem popMin_singleton {s : State} {r : Nat} (h : s.pq = [r]) : popMin s = some (r, { s with pq := [] }) := by
  simp [popMin, h, least]

theorem buildBody_eq (s : State) : buildBody s = .ok ()
    { s with
      nodes := s.merged.nodes
      root := 2 * s.counted.length
      pq := []
      status := { s.status with treeValid := true, codeValid := false } } := by
  have left : { s.merged with pq := [] } = { buildStart s with nodes := s.merged.nodes, pq := [] } := by rw [merged_eq]
  have pop : popMin (mergeLoop (buildLeaves s).pq.length (buildLeaves s)) = _ := popMin_singleton (merged_pq s)
  change _ = some (_, { s.merged with pq := [] }) at pop
  rw [left] at pop
  simp only [buildBody, pop]
  rfl

/-- BUILD on a ready block with counters completes, with the tree of the merges (42_tree_builder.md R89, R94). -/
theorem execBuild_of_ready {s : State} (ready : s.Ready) (valid : s.status.freqValid = true) : exec .build s = .next
    { s with
      nodes := (accept .build s).merged.nodes
      root := 2 * s.counted.length
      pq := []
      cmd := 0x00000003#32
      status := { s.status with treeValid := true, codeValid := false, done := true } } := by
  have idle : s.status.busy = false := ready.1
  have run : exec .build s = settle (buildBody (accept .build s)) := exec_of_pre (op := .build) ready.1 (.inl ready.2) valid
  rw [run, buildBody_eq]
  simp only [settle, complete, idle]
  rfl

/-! ### The trees below the queued nodes -/

/-- The tree below a node of the arena that holds one there. -/
def treeBelow (nodes : List Node) (i : Nat) : Tree := (treeAt nodes nodes.length i).getD (.leaf 0)

/-- The trees below the queued nodes. -/
def State.trees (s : State) : List Tree := s.pq.map (treeBelow s.nodes)

theorem treeBelow_of_treeAt {nodes : List Node} {i : Nat} {t : Tree} (h : treeAt nodes nodes.length i = some t) :
    treeBelow nodes i = t := by
  rw [treeBelow, h, Option.getD_some]

theorem Forest.treeAt_eq {nodes : List Node} {queue : List Nat} (h : Forest nodes queue) {i : Nat} (hi : i ∈ queue) :
    treeAt nodes nodes.length i = some (treeBelow nodes i) := by
  obtain ⟨t, ht⟩ := h.trees i hi
  rw [treeBelow_of_treeAt ht, ht]

theorem Forest.treeBelow_push {nodes : List Node} {queue : List Nat} (h : Forest nodes queue) {i : Nat} (hi : i ∈ queue)
    (nd : Node) : treeBelow (nodes ++ [nd]) i = treeBelow nodes i :=
  treeBelow_of_treeAt (treeAt_push (h.treeAt_eq hi) nd)

/-- A new internal node is the root of the trees below its children. -/
theorem Forest.treeBelow_internal {nodes : List Node} {queue : List Nat} (h : Forest nodes queue) {a b : Nat}
    (ha : a ∈ queue) (hb : b ∈ queue) (w : Nat) :
    treeBelow (nodes ++ [internalNode a b w]) nodes.length = .node (treeBelow nodes a) (treeBelow nodes b) := by
  refine treeBelow_of_treeAt ?_
  rw [List.length_append, List.length_singleton]
  exact treeAt_node (nd := internalNode a b w) (by simp) rfl (treeAt_mono (extra := 0) (h.treeAt_eq ha))
    (treeAt_mono (extra := 0) (h.treeAt_eq hb))

/-- The queued nodes are the roots of trees of the weights they say, and merges of two least trees lead from ts to these. -/
structure Grown (w : Nat → Nat) (ts : List Tree) (s : State) : Prop where
  forest : Forest s.nodes s.pq
  weighs : ∀ i ∈ s.pq, s.weight i = (treeBelow s.nodes i).total w
  merges : Relation.ReflTransGen (MergesLeast w) ts s.trees

theorem weight_append_of_lt {s t : State} {more : List Node} (nodes : t.nodes = s.nodes ++ more) {i : Nat}
    (hi : i < s.nodes.length) : t.weight i = s.weight i := by
  rw [State.weight, nodes, List.getElem?_append_left hi, State.weight]

theorem weight_push_last {s t : State} {nd : Node} (nodes : t.nodes = s.nodes ++ [nd]) :
    t.weight s.nodes.length = nd.weight := by
  rw [State.weight, nodes, List.getElem?_concat_length]
  rfl

theorem lt_length_of_treeAt {nodes : List Node} {fuel i : Nat} {t : Tree} (h : treeAt nodes fuel i = some t) :
    i < nodes.length := by
  by_contra outside
  cases fuel with
  | zero => cases h
  | succ fuel => simp [treeAt, Nat.le_of_not_lt outside] at h

theorem Forest.lt_length {nodes : List Node} {queue : List Nat} (h : Forest nodes queue) {i : Nat} (hi : i ∈ queue) :
    i < nodes.length := by
  obtain ⟨t, ht⟩ := h.trees i hi
  exact lt_length_of_treeAt ht

namespace Grown

variable {w : Nat → Nat} {ts : List Tree} {s u : State} {a b : Nat}

/-- The trees below the queued nodes after a merge. -/
theorem trees_newInternal (h : Grown w ts s) (pops : Pops s a b u) : (newInternal a b u).trees =
    u.pq.map (treeBelow s.nodes) ++ [.node (treeBelow s.nodes a) (treeBelow s.nodes b)] := by
  have kept : u.pq.map (treeBelow (newInternal a b u).nodes) = u.pq.map (treeBelow s.nodes) :=
    List.map_congr_left fun i hi => by
      rw [pops.newInternal_nodes, h.forest.treeBelow_push (pops.queue.mem_iff.mpr (by simp [hi]))]
  have root : treeBelow (newInternal a b u).nodes s.nodes.length = .node (treeBelow s.nodes a) (treeBelow s.nodes b) := by
    rw [pops.newInternal_nodes, h.forest.treeBelow_internal (pops.queue.mem_iff.mpr (by simp))
      (pops.queue.mem_iff.mpr (by simp))]
  rw [State.trees, pops.newInternal_pq, List.map_append, kept, List.map_singleton, root]

theorem mergesLeast (h : Grown w ts s) (pops : Pops s a b u) : MergesLeast w s.trees (newInternal a b u).trees := by
  have total {i : Nat} (hi : i ∈ a :: b :: u.pq) : (treeBelow s.nodes i).total w = s.weight i :=
    (h.weighs i (pops.queue.mem_iff.mpr hi)).symm
  refine .merge (treeBelow s.nodes a) (treeBelow s.nodes b) (u.pq.map (treeBelow s.nodes)) (pops.queue.map _) ?_ ?_
  · rw [h.trees_newInternal pops]
    exact List.perm_append_singleton ..
  · intro t ht
    obtain ⟨j, hj, rfl⟩ := List.mem_map.mp ht
    rw [total (i := a) (by simp), total (i := b) (by simp), total (i := j) (by simp [hj])]
    exact pops.weight_le hj

theorem newInternal (h : Grown w ts s) (pops : Pops s a b u) : Grown w ts (newInternal a b u) where
  forest := newInternal_forest (pops.nodes ▸ h.forest.perm pops.queue)
  merges := h.merges.tail (h.mergesLeast pops)
  weighs i hi := by
    have old {j : Nat} (hj : j ∈ a :: b :: u.pq) : j ∈ s.pq := pops.queue.mem_iff.mpr hj
    rw [pops.newInternal_nodes]
    rcases List.mem_append.mp (pops.newInternal_pq ▸ hi) with hi | hi
    · have queued : i ∈ s.pq := old (by simp [hi])
      rw [weight_append_of_lt pops.newInternal_nodes (h.forest.lt_length queued), h.forest.treeBelow_push queued,
        h.weighs i queued]
    · rw [List.mem_singleton.mp hi, weight_push_last pops.newInternal_nodes,
        h.forest.treeBelow_internal (old (by simp)) (old (by simp)), Tree.total_node, ← h.weighs a (old (by simp)),
        ← h.weighs b (old (by simp))]
      rfl

end Grown

/-- The leaves are a forest of single leaves, each of its own weight. -/
theorem buildLeaves_grown (s : State) : Grown s.leafWeight (singles s.leafValues) (buildLeaves s) := by
  have nodes : (buildLeaves s).nodes = s.leafNodes := by rw [buildLeaves_eq_leafNodes]
  have queue : (buildLeaves s).pq = List.range s.leafValues.length := by
    rw [buildLeaves_eq_leafNodes, State.leafNodes, List.length_map]
  have entry {i v : Nat} (hv : s.leafValues[i]? = some v) : s.leafNodes[i]? = some (leafNode v (s.leafWeight v)) := by
    simp [State.leafNodes, hv]
  have below {i v : Nat} (hv : s.leafValues[i]? = some v) : treeBelow s.leafNodes i = .leaf v := by
    refine treeBelow_of_treeAt ?_
    rw [leafNodes_length]
    exact treeAt_leaf (entry hv) rfl rfl (leafValues_le (List.mem_of_getElem? hv)) _
  refine ⟨buildLeaves_forest s, fun i hi => ?_, ?_⟩
  · obtain ⟨v, hv⟩ : ∃ v, s.leafValues[i]? = some v := ⟨_, List.getElem?_eq_getElem (List.mem_range.mp (queue ▸ hi))⟩
    rw [State.weight, nodes, entry hv, below hv, Tree.total_leaf]
    rfl
  · have trees : (buildLeaves s).trees = singles s.leafValues := by
      refine List.ext_getElem (by simp [State.trees, singles, queue]) fun i hi hi' => ?_
      have inside : i < s.leafValues.length := by simpa [singles] using hi'
      simp only [State.trees, queue, nodes, singles, List.getElem_map, List.getElem_range]
      exact below (List.getElem?_eq_getElem inside)
    rw [trees]

theorem merged_grown (s : State) : Grown s.leafWeight (singles s.leafValues) s.merged :=
  mergeLoop_induction (buildLeaves_grown s) (fun h pops => h.newInternal pops) _

/-- The tree that BUILD makes (42_tree_builder.md R89). -/
def State.built (s : State) : Tree := treeBelow s.merged.nodes (2 * s.counted.length)

theorem merged_trees (s : State) : s.merged.trees = [s.built] := by
  rw [State.trees, merged_pq]
  rfl

theorem built_merges (s : State) :
    Relation.ReflTransGen (MergesLeast s.leafWeight) (singles s.leafValues) [s.built] :=
  merged_trees s ▸ (merged_grown s).merges

theorem built_leaves (s : State) : s.built.leaves.Perm s.leafValues := by
  have leaves := leaves_of_merges (built_merges s)
  simpa [singles, Tree.leaves, List.flatMap_map] using leaves

/-- The tree BUILD makes stands at the root, in whatever state holds its arena. -/
theorem tree_of_merged {s t : State} (nodes : t.nodes = s.merged.nodes) (root : t.root = 2 * s.counted.length) :
    t.tree = some s.built := by
  rw [State.tree, nodes, root]
  exact (merged_forest s).treeAt_eq (by simp [merged_pq])

/-- Settles O24: every merge takes two least trees, so that nothing lighter is lost. -/
theorem builtTreeIsOptimal : Obligations.BuiltTreeIsOptimal := by
  intro s t tree other ready valid run found leaves
  cases (execBuild_of_ready ready valid).symm.trans run
  obtain rfl := Option.some.inj (found.symm.trans (tree_of_merged (s := accept .build s) rfl rfl))
  exact pathWeight_le_of_merges (built_merges (accept .build s)) (leaves.trans (built_leaves _))

/-- Settles O21: the merges append internal nodes to the leaves, and the root is the last of them. -/
theorem buildMakesLeavesAndMerges : Obligations.BuildMakesLeavesAndMerges := by
  intro s ready valid
  have counted : (accept .build s).counted = s.counted := rfl
  obtain ⟨inner, nodes, internal⟩ := merged_nodes (accept .build s)
  have leaves : (accept .build s).built.leaves.Perm (s.counted ++ [256]) := built_leaves _
  have size := (accept .build s).built.size_add_one
  rw [leaves.length_eq, List.length_append, List.length_singleton] at size
  have lengths := congrArg List.length nodes
  rw [List.length_append, leafNodes_length, (merged_lengths _).2, counted] at lengths
  refine ⟨inner, (accept .build s).built, internal, by omega, by omega, leaves, _, execBuild_of_ready ready valid,
    tree_of_merged (s := accept .build s) rfl rfl, ?_⟩
  rw [nodes, leafNodes_eq, List.append_assoc]
  rfl

end Sys2Proof.Machine

/-! ### The order of the merges (42_tree_builder.md R91, R92) -/

namespace Sys2Proof.Machine

/-- No internal node before i has j as a child. -/
def Unmerged (nodes : List Node) (i j : Nat) : Prop :=
  ∀ (k : Nat) (other : Node), k < i → nodes[k]? = some other → other.isLeaf = false → other.left ≠ j ∧ other.right ≠ j

theorem unmerged_append {nodes : List Node} {i : Nat} (hi : i ≤ nodes.length) (more : List Node) (j : Nat) :
    Unmerged (nodes ++ more) i j ↔ Unmerged nodes i j := by
  have same {k : Nat} (hk : k < i) : (nodes ++ more)[k]? = nodes[k]? := List.getElem?_append_left (hk.trans_le hi)
  constructor <;> intro h k other hk hn
  · exact h k other hk (same hk ▸ hn)
  · exact h k other hk (same hk ▸ hn)

theorem unmerged_push_internal (nodes : List Node) (a b w j : Nat) :
    Unmerged (nodes ++ [internalNode a b w]) (nodes.length + 1) j ↔ Unmerged nodes nodes.length j ∧ j ≠ a ∧ j ≠ b := by
  constructor
  · intro h
    obtain ⟨ha, hb⟩ := h nodes.length (internalNode a b w) (Nat.lt_succ_self _) List.getElem?_concat_length rfl
    exact ⟨(unmerged_append le_rfl _ j).mp fun k other hk => h k other (Nat.lt_succ_of_lt hk), ha.symm, hb.symm⟩
  · rintro ⟨h, ha, hb⟩ k other hk hn
    rcases Nat.lt_succ_iff_lt_or_eq.mp hk with hk | rfl
    · exact (unmerged_append le_rfl _ j).mpr h k other hk hn
    · obtain rfl := Option.some.inj (List.getElem?_concat_length.symm.trans hn)
      exact fun _ => ⟨ha.symm, hb.symm⟩

/-- The node nd, formed as node i, is over the two nodes that leave the queue first (42_tree_builder.md R91 to R93). -/
structure FormedAt (s : State) (i : Nat) (nd : Node) : Prop where
  left_lt : nd.left < i
  right_lt : nd.right < i
  ne : nd.left ≠ nd.right
  weight : nd.weight = s.weight nd.left + s.weight nd.right
  ordered : before s nd.left nd.right = true
  first : ∀ j < i, Unmerged s.nodes i j → j ≠ nd.left → before s nd.left j = true
  second : ∀ j < i, Unmerged s.nodes i j → j ≠ nd.left → j ≠ nd.right → before s nd.right j = true

/-- How a node was formed does not change when nodes are made after it. -/
theorem FormedAt.append {s t : State} {i : Nat} {nd : Node} (h : FormedAt s i nd) (hi : i ≤ s.nodes.length)
    (params : t.params = s.params) {more : List Node} (nodes : t.nodes = s.nodes ++ more) : FormedAt t i nd := by
  have weight {j : Nat} (hj : j < i) : t.weight j = s.weight j := weight_append_of_lt nodes (hj.trans_le hi)
  have order {j k : Nat} (hj : j < i) (hk : k < i) : before t j k = before s j k :=
    before_congr params (weight hj) (weight hk)
  have unmerged {j : Nat} (hj : Unmerged t.nodes i j) : Unmerged s.nodes i j :=
    (unmerged_append hi more j).mp (nodes ▸ hj)
  exact
    { left_lt := h.left_lt
      right_lt := h.right_lt
      ne := h.ne
      weight := by rw [weight h.left_lt, weight h.right_lt, h.weight]
      ordered := by rw [order h.left_lt h.right_lt, h.ordered]
      first := fun j hj free ne => by rw [order h.left_lt hj, h.first j hj (unmerged free) ne]
      second := fun j hj free ne ne' => by rw [order h.right_lt hj, h.second j hj (unmerged free) ne ne'] }

/-- The queue is what no merge has taken, and every merge took the two nodes that came first. -/
structure MergedInOrder (s : State) : Prop where
  nodup : s.pq.Nodup
  queued : ∀ j, j ∈ s.pq ↔ j < s.nodes.length ∧ Unmerged s.nodes s.nodes.length j
  formed : ∀ (i : Nat) (nd : Node), s.nodes[i]? = some nd → nd.isLeaf = false → FormedAt s i nd

theorem Pops.nodup {s u : State} {a b : Nat} (h : Pops s a b u) (nodup : s.pq.Nodup) :
    a ≠ b ∧ a ∉ u.pq ∧ b ∉ u.pq ∧ u.pq.Nodup := by
  have := h.queue.nodup_iff.mp nodup
  simp only [List.nodup_cons, List.mem_cons, not_or] at this
  obtain ⟨⟨ne, ha⟩, hb, rest⟩ := this
  exact ⟨ne, ha, hb, rest⟩

namespace MergedInOrder

variable {s u : State} {a b : Nat}

/-- The next node has no parent yet. -/
theorem unmerged_length (h : MergedInOrder s) : Unmerged s.nodes s.nodes.length s.nodes.length := by
  intro k other hk hn internal
  have formed := h.formed k other hn internal
  exact ⟨(formed.left_lt.trans hk).ne, (formed.right_lt.trans hk).ne⟩

theorem formedAt_length (h : MergedInOrder s) (pops : Pops s a b u) :
    FormedAt s s.nodes.length (internalNode a b (s.weight a + s.weight b)) := by
  have queued {j : Nat} (hj : j < s.nodes.length) (free : Unmerged s.nodes s.nodes.length j) : j ∈ s.pq :=
    (h.queued j).mpr ⟨hj, free⟩
  have ha : a ∈ s.pq := pops.queue.mem_iff.mpr (by simp)
  have hb : b ∈ s.pq := pops.queue.mem_iff.mpr (by simp)
  have ne := (pops.nodup h.nodup).1
  exact
    { left_lt := ((h.queued a).mp ha).1
      right_lt := ((h.queued b).mp hb).1
      ne := ne
      weight := rfl
      ordered := pops.first b hb ne.symm
      first := fun j hj free => pops.first j (queued hj free)
      second := fun j hj free => pops.second j (queued hj free) }

/-- A merge leaves in the queue the unmerged nodes, the new one among them. -/
theorem queued_newInternal (h : MergedInOrder s) (pops : Pops s a b u) (j : Nat) :
    j ∈ u.pq ++ [s.nodes.length] ↔ j < s.nodes.length + 1 ∧ Unmerged s.nodes s.nodes.length j ∧ j ≠ a ∧ j ≠ b := by
  obtain ⟨-, ha, hb, -⟩ := pops.nodup h.nodup
  have formed := h.formedAt_length pops
  have old : j ∈ u.pq ↔ j ∈ s.pq ∧ j ≠ a ∧ j ≠ b := by
    rw [pops.queue.mem_iff]
    constructor
    · exact fun hj => ⟨by simp [hj], fun e => ha (e ▸ hj), fun e => hb (e ▸ hj)⟩
    · rintro ⟨hj, ne_a, ne_b⟩
      simpa [ne_a, ne_b] using hj
  rw [List.mem_append, List.mem_singleton, old, h.queued, Nat.lt_succ_iff_lt_or_eq]
  constructor
  · rintro (⟨⟨hj, free⟩, ne⟩ | rfl)
    · exact ⟨.inl hj, free, ne⟩
    · exact ⟨.inr rfl, h.unmerged_length, formed.left_lt.ne', formed.right_lt.ne'⟩
  · rintro ⟨hj | hj, free, ne⟩
    · exact .inl ⟨⟨hj, free⟩, ne⟩
    · exact .inr hj

theorem newInternal (h : MergedInOrder s) (pops : Pops s a b u) : MergedInOrder (newInternal a b u) := by
  have nodes := pops.newInternal_nodes
  have params : (Machine.newInternal a b u).params = s.params := by rw [Machine.newInternal, pops.eq_requeued]
  constructor
  · rw [pops.newInternal_pq]
    obtain ⟨-, -, -, rest⟩ := pops.nodup h.nodup
    have fresh : s.nodes.length ∉ u.pq := fun hn =>
      ((h.queued _).mp (pops.queue.mem_iff.mpr (by simp [hn]))).1.ne rfl
    exact (List.perm_append_singleton ..).nodup_iff.mpr (List.nodup_cons.mpr ⟨fresh, rest⟩)
  · intro j
    rw [pops.newInternal_pq, nodes, List.length_append, List.length_singleton, unmerged_push_internal]
    exact h.queued_newInternal pops j
  · intro i nd hn internal
    rcases Nat.lt_or_ge i s.nodes.length with hi | hi
    · rw [nodes, List.getElem?_append_left hi] at hn
      exact (h.formed i nd hn internal).append hi.le params nodes
    · obtain rfl : i = s.nodes.length := by
        have inside := (List.getElem?_eq_some_iff.mp hn).1
        rw [nodes, List.length_append, List.length_singleton] at inside
        omega
      rw [nodes, List.getElem?_concat_length] at hn
      cases hn
      exact (h.formedAt_length pops).append le_rfl params nodes

end MergedInOrder

theorem buildLeaves_inOrder (s : State) : MergedInOrder (buildLeaves s) := by
  have leaf {i : Nat} {nd : Node} (hn : s.leafNodes[i]? = some nd) : nd.isLeaf ≠ false := by
    obtain ⟨v, -, rfl⟩ := List.mem_map.mp (List.mem_of_getElem? hn)
    exact Bool.noConfusion
  rw [buildLeaves_eq_leafNodes]
  refine ⟨List.nodup_range, fun j => ?_, fun i nd hn internal => absurd internal (leaf hn)⟩
  rw [List.mem_range]
  exact ⟨fun hj => ⟨hj, fun k other _ hn internal => absurd internal (leaf hn)⟩, And.left⟩

theorem merged_inOrder (s : State) : MergedInOrder s.merged :=
  mergeLoop_induction (buildLeaves_inOrder s) (fun h pops => h.newInternal pops) _

theorem weight_root_merged (s : State) : s.merged.weight (2 * s.counted.length) = s.freq.entries.sum + 1 := by
  have counted : s.counted.map s.leafWeight = s.counted.map s.count :=
    List.map_congr_left fun _ => leafWeight_of_mem_counted
  rw [(merged_grown s).weighs _ (by simp [merged_pq])]
  change (s.built.leaves.map s.leafWeight).sum = _
  rw [((built_leaves s).map _).sum_eq, State.leafValues, List.map_append, counted, List.sum_append, sum_entries]
  rfl

/-- Every internal node of the arena BUILD leaves is over the two nodes that came first, in whatever state holds it. -/
theorem formedAt_of_merged {s t : State} (nodes : t.nodes = s.merged.nodes) (params : t.params = s.params) {i : Nat} {nd : Node}
    (hn : t.nodes[i]? = some nd) (internal : nd.isLeaf = false) : FormedAt t i nd := by
  have kept : s.merged.params = s.params := by rw [merged_eq]; rfl
  rw [nodes] at hn
  have made : FormedAt s.merged i nd := (merged_inOrder s).formed i nd hn internal
  exact made.append (List.getElem?_eq_some_iff.mp hn).1.le (params.trans kept.symm) (more := []) (by simp [nodes])

/-- Settles O22: the queue always holds what no merge has taken, and each merge takes the two that come first. -/
theorem buildWeightsAreSums : Obligations.BuildWeightsAreSums := by
  intro s t ready valid run
  have built := Host.Outcome.next.inj (run.symm.trans (execBuild_of_ready ready valid))
  have nodes : t.nodes = (accept .build s).merged.nodes := by rw [built]
  have params : t.params = s.params := by rw [built]
  refine ⟨fun i nd hn internal => ?_, built ▸ weight_root_merged (accept .build s)⟩
  have formed : FormedAt t i nd := formedAt_of_merged (s := accept .build s) nodes params hn internal
  exact ⟨formed.left_lt, formed.right_lt, formed.ne, formed.weight, formed.ordered,
    fun default => (before_iff_of_default (params ▸ default)).mp formed.ordered,
    fun j hj free => ⟨formed.first j hj free, formed.second j hj free⟩⟩

end Sys2Proof.Machine

/-! ## What DERIVE makes of the tree (43_code_table.md R96, R97) -/

namespace Sys2Proof.Machine

/-! ### The entries of a tree -/

/-- Only symbols with a leaf have a valid code (43_code_table.md R96). -/
theorem lastPath_of_entry_valid {t : Tree} {v : Nat} (h : (t.entry v).valid = true) :
    t.lastPath v = some (t.entry v).bits := by
  unfold Tree.entry at h ⊢
  split at h
  · assumption
  · cases h

theorem follow_entry_of_valid {t : Tree} {v : Nat} (h : (t.entry v).valid = true) :
    t.follow (t.entry v).bits = some (.leaf v) :=
  Tree.follow_lastPath (lastPath_of_entry_valid h)

/-- Nothing lies below a leaf, so a path to a leaf that begins another path to a leaf is all of it (43_code_table.md R97). -/
theorem Tree.follow_leaf_unique_of_prefix {t : Tree} {p q : Bits} {a b : Nat} (hp : t.follow p = some (.leaf a))
    (hq : t.follow q = some (.leaf b)) (begins : p <+: q) : a = b := by
  obtain ⟨rest, rfl⟩ := begins
  rw [Tree.follow_append, hp] at hq
  cases rest with
  | nil => cases hq; rfl
  | cons step rest => cases hq

theorem entry_bits_not_prefix {t : Tree} {a b : Nat} (ne : a ≠ b) (ha : (t.entry a).valid = true)
    (hb : (t.entry b).valid = true) : ¬ (t.entry a).bits <+: (t.entry b).bits := fun begins =>
  ne (Tree.follow_leaf_unique_of_prefix (follow_entry_of_valid ha) (follow_entry_of_valid hb) begins)

/-! ### The command -/

/-- The code table of a tree, as its walk fills it from the table without codes. -/
def Tree.codeTable (t : Tree) : Table CodeEntry 257 := walk t [] (Table.fill 257 CodeEntry.unset)

theorem get?_codeTable (t : Tree) {v : Nat} (hv : v < 257) : t.codeTable.get? v = some (t.entry v) := by
  rw [Tree.codeTable, walk_get? t [] _ hv, Table.get?_fill, if_pos hv, Tree.entry]
  cases t.lastPath v <;> rfl

theorem deriveBody_of_tree {s : State} {tree : Tree} (h : s.tree = some tree) : deriveBody s = .ok ()
    { s with code := tree.codeTable, status := { s.status with codeValid := true } } := by
  rw [deriveBody, h]
  rfl

/-- DERIVE on a ready block with a tree completes, with the tree's code table (43_code_table.md R96). -/
theorem execDerive_of_ready {s : State} {tree : Tree} (ready : s.Ready) (valid : s.status.treeValid = true)
    (whole : s.tree = some tree) : exec .derive s = .next
    { s with
      code := tree.codeTable
      cmd := 0x00000004#32
      status := { s.status with codeValid := true, done := true } } := by
  obtain ⟨idle, noError⟩ := ready
  have run : exec .derive s = settle (deriveBody (accept .derive s)) :=
    exec_of_pre (op := .derive) idle (.inl noError) valid
  have accepted : (accept .derive s).tree = some tree := whole
  rw [run, deriveBody_of_tree accepted]
  simp only [settle, complete, idle]
  rfl

/-- Settles O25: DERIVE fills the table by the walk, which writes each symbol's last path. -/
theorem deriveRecordsThePaths : Obligations.DeriveRecordsThePaths := by
  intro s tree ready valid whole
  exact ⟨tree.codeTable, fun v hv => get?_codeTable tree hv, execDerive_of_ready ready valid whole⟩

/-- Settles O26: valid codes are paths to leaves, and no path to a leaf goes on to another. -/
theorem derivedCodesArePrefixFree : Obligations.DerivedCodesArePrefixFree := by
  intro s t tree ready valid whole run
  have derived := Host.Outcome.next.inj (run.symm.trans (execDerive_of_ready ready valid whole))
  have entries : ∀ v, v < 257 → t.codeEntry v = tree.entry v := fun v hv => codeEntry_walk (by rw [derived]; rfl) hv
  refine ⟨fun v hv coded => ?_, fun a b ha hb ne codedA codedB => ?_⟩
  · rw [entries v hv] at coded ⊢
    exact follow_entry_of_valid coded
  · rw [entries a ha] at codedA ⊢
    rw [entries b hb] at codedB ⊢
    exact entry_bits_not_prefix ne codedA codedB

end Sys2Proof.Machine

/-! ## The tree-header codec (44_header_codec.md R99 to R104) -/

namespace Sys2Proof.Machine

/-! ### WR_MAGIC and WR_HEADER -/

/-- Settles O27: the magic token is bits_32(HUFF_MAGIC), whose bit k from the first is bit 31 − k of the word. -/
theorem wrMagicWritesTheMagic : Obligations.WrMagicWritesTheMagic := by
  rintro s ⟨idle, noError⟩ isOpen
  have run : exec .wrMagic s = .next (complete (emitMagic (accept .wrMagic s))) :=
    exec_of_pre (op := .wrMagic) idle (.inl noError) ((preHolds_iff .wrMagic _).mpr isOpen)
  refine ⟨bitsOf 32 s.params.huffMagic.toNat, bitsOf_length _ _, fun k hk => ?_, ?_⟩
  · rw [bitsOf_getElem? _ _ _ hk, BitVec.getMsbD, decide_eq_true hk, Bool.true_and]
    rfl
  · simp only [run, complete, emitMagic, outWrite, bitsOf_length, accept, idle]
    rfl

theorem wrHeaderBody_of_tree {s : State} {tree : Tree} (h : s.tree = some tree) :
    wrHeaderBody s = .ok () (outWrite tree.header s) := by
  simp only [wrHeaderBody, h, ser_eq]

/-- Settles O28: the walk is one write of the header, and a header takes one bit less than 11 a leaf. -/
theorem wrHeaderWritesTheTree : Obligations.WrHeaderWritesTheTree := by
  rintro s tree ⟨idle, noError⟩ valid isOpen whole
  have run : exec .wrHeader s = settle (wrHeaderBody (accept .wrHeader s)) :=
    exec_of_pre (op := .wrHeader) idle (.inl noError) ((preHolds_iff .wrHeader _).mpr ⟨valid, isOpen⟩)
  have accepted : (accept .wrHeader s).tree = some tree := whole
  have length : tree.header.length = 11 * tree.leaves.length - 1 := by have := tree.header_length_add_one; omega
  rw [run, wrHeaderBody_of_tree accepted]
  simp only [settle, complete, outWrite, length, accept, idle]
  rfl

/-! ### Reading the beginning of what is left -/

/-- The state after the bits were delivered and the entries allocated for them (20_memory.md R44, 44_header_codec.md R102). -/
def State.consumed (bits : Bits) (allocated : List Node) (s : State) : State :=
  { s with
    nodes := s.nodes ++ allocated
    inPos := s.inPos + bits.length
    bitsIn := s.bitsIn + BitVec.ofNat 32 bits.length }

@[simp] theorem consumed_nodes (bits : Bits) (allocated : List Node) (s : State) :
    (s.consumed bits allocated).nodes = s.nodes ++ allocated := rfl

@[simp] theorem consumed_nil (s : State) : s.consumed [] [] = s := by simp [State.consumed]

@[simp] theorem consumed_consumed (a b : Bits) (x y : List Node) (s : State) :
    (s.consumed a x).consumed b y = s.consumed (a ++ b) (x ++ y) := by
  simp [State.consumed, Nat.add_assoc, BitVec.add_assoc, BitVec.ofNat_add]

theorem inBits_consumed {s : State} {bits rest : Bits} (h : s.inBits = bits ++ rest) (allocated : List Node) :
    (s.consumed bits allocated).inBits = rest := inBits_after h _ rfl rfl

theorem inBits_consumed_bit {s : State} {b : Bool} {rest : Bits} (h : s.inBits = b :: rest) (allocated : List Node) :
    (s.consumed [b] allocated).inBits = rest := inBits_consumed (bits := [b]) h allocated

/-- A read of at least one bit that is left answers it: where a bit is left, the position is in the data. -/
theorem inRead_eq_consumed {s : State} {n : Nat} {bits rest : Bits} (h : s.inBits = bits ++ rest) (length : bits.length = n)
    (pos : 0 < n) : inRead n s = (some (num bits), s.consumed bits []) := by
  have left := inBits_length s
  rw [h, List.length_append] at left
  subst length
  rw [inRead_of_inBits (by omega) h]
  simp [State.consumed]

/-- The state after a read that met the end of the input (20_memory.md R44, R45). -/
def State.atEnd (s : State) : State :=
  { s with inPos := 8 * s.inData.length, status := { s.status with eos := true } }

/-- A ready block that has accepted a command that reads the input port (40_control.md R80). -/
def State.reading (op : Op) (s : State) : State :=
  { s with bitsIn := 0#32, cmd := op.word, status := { s.status with eos := false, done := false, busy := true } }

theorem exec_of_reading {op : Op} {s : State} (ready : s.Ready) (reads : readsInput op = true)
    (pre : preHolds op s.status = true) : exec op.instr s = settle (opBody op (s.reading op)) := by
  rw [exec_of_pre ready.1 (.inl ready.2) pre, startReading, if_pos reads]
  rfl

/-! ### RD_MAGIC -/

theorem rdMagicBody_of_magic {s : State} {rest : Bits} (h : s.inBits = bitsOf 32 s.params.huffMagic.toNat ++ rest) :
    rdMagicBody s = .ok () (s.consumed (bitsOf 32 s.params.huffMagic.toNat) []) := by
  simp only [rdMagicBody, inRead_eq_consumed h (bitsOf_length _ _) (by decide), num_bitsOf_toNat]
  exact if_neg (not_not.mpr rfl)

theorem rdMagicBody_of_other {s : State} {w : Word} {rest : Bits} (other : w ≠ s.params.huffMagic)
    (h : s.inBits = bitsOf 32 w.toNat ++ rest) :
    rdMagicBody s = .raised .format w (s.consumed (bitsOf 32 w.toNat) []) := by
  simp only [rdMagicBody, inRead_eq_consumed h (bitsOf_length _ _) (by decide), num_bitsOf_toNat, BitVec.ofNat_toNat,
    BitVec.setWidth_eq]
  exact if_pos (mt BitVec.eq_of_toNat_eq other)

theorem rdMagicBody_of_short {s : State} (h : s.inBits.length < 32) : rdMagicBody s = .raised .format 0#32 s.atEnd := by
  simp only [rdMagicBody, inRead_end h]
  rfl

/-- Settles O29: the 32 bits spell one word, which is HUFF_MAGIC or not; a read past the end has no value. -/
theorem rdMagicChecksTheWord : Obligations.RdMagicChecksTheWord := by
  intro s ready
  have idle : s.status.busy = false := ready.1
  have run : exec .rdMagic s = settle (rdMagicBody (s.reading .rdMagic)) := exec_of_reading (op := .rdMagic) ready rfl rfl
  rw [run]
  refine ⟨fun rest bits => ?_, fun w rest other bits => ?_, fun short => ?_⟩
  · rw [rdMagicBody_of_magic (s := s.reading .rdMagic) bits]
    simp [settle, complete, State.consumed, State.reading, Op.word, Op.code, idle]
  · rw [rdMagicBody_of_other (s := s.reading .rdMagic) other bits]
    simp [settle, recordFault, State.consumed, State.reading, Op.word, Op.code, idle]
  · rw [rdMagicBody_of_short (s := s.reading .rdMagic) short]
    simp [settle, recordFault, State.atEnd, State.reading, Op.word, Op.code, idle]

/-! ### One token of Des() (44_header_codec.md R102, R103) -/

/-- The entry of a leaf read from a header. -/
def headerLeaf (v : Nat) : Node := { isLeaf := true, value := v, weight := 0, left := 0, right := 0 }

/-- The entry of an internal node read from a header, before its children are. -/
def headerInternal : Node := { isLeaf := false, value := 0, weight := 0, left := 0, right := 0 }

theorem alloc_of_room {s : State} (room : s.nodes.length < 513) (nd : Node) :
    alloc nd s = .ok s.nodes.length (s.consumed [] [nd]) := by
  rw [alloc, if_neg room.ne]
  simp [State.consumed]

theorem alloc_of_full {s : State} (full : s.nodes.length = 513) (nd : Node) :
    alloc nd s = .raised .nodeOverflow s.bitsIn s := if_pos full

section Token

variable {s : State} {bound : Nat} {rest : Bits}

theorem inRead_bit {b : Bool} (h : s.inBits = b :: rest) : inRead 1 s = (some b.toNat, s.consumed [b] []) := by
  simpa [num] using inRead_eq_consumed (n := 1) (bits := [b]) h rfl Nat.one_pos

theorem des_internal (h : s.inBits = false :: rest) : des (bound + 1) s =
    (alloc headerInternal (s.consumed [false] [])).bind fun i u =>
      (des bound u).bind fun l u' => (des bound u').bind fun r u'' => .ok i (setChildren i l r u'') := by
  simp only [des, inRead_bit h]
  rfl

theorem inRead_field {v : Nat} (small : v < 512) (h : s.inBits = true :: (bitsOf 9 v ++ rest)) :
    inRead 9 (s.consumed [true] []) = (some v, s.consumed (true :: bitsOf 9 v) []) := by
  have field : (s.consumed [true] []).inBits = bitsOf 9 v ++ rest := inBits_consumed_bit h []
  rw [inRead_eq_consumed field (bitsOf_length _ _) (by decide), num_bitsOf_of_lt small]
  simp

theorem des_leaf {v : Nat} (value : v ≤ 256) (h : s.inBits = true :: (bitsOf 9 v ++ rest)) :
    des (bound + 1) s = alloc (headerLeaf v) (s.consumed (true :: bitsOf 9 v) []) := by
  simp only [des, inRead_bit h, inRead_field (by omega) h]
  exact if_neg (Nat.not_lt.mpr value)

theorem des_bad_leaf {v : Nat} (bad : 256 < v) (small : v < 512) (h : s.inBits = true :: (bitsOf 9 v ++ rest)) :
    des (bound + 1) s = .raised .badLeafValue (BitVec.ofNat 32 v) (s.consumed (true :: bitsOf 9 v) []) := by
  simp only [des, inRead_bit h, inRead_field small h]
  exact if_pos bad

/-- An input that ends in a token delivers at most the tag of a leaf. -/
theorem des_cut_token {part : Bits} (cut : CutToken part) (h : s.inBits = part) : des (bound + 1) s =
    .raised .truncHeader (s.consumed (part.take 1) []).bitsIn (s.consumed (part.take 1) []).atEnd := by
  rcases cut with rfl | ⟨tag, short⟩
  · simp only [des, inRead_end (n := 1) (s := s) (by simp [h]), List.take_nil, consumed_nil]
    rfl
  · obtain ⟨field, rfl⟩ := List.head?_eq_some_iff.mp tag
    have left : (s.consumed [true] []).inBits = field := inBits_consumed_bit h []
    have ended := inRead_end (n := 9) (s := s.consumed [true] []) (by simpa [left, Nat.add_comm 1] using short)
    simp only [des, inRead_bit h, ended]
    rfl

/-- The token of one more node than the arena holds (44_header_codec.md R103). -/
theorem des_of_full {token : Bits} (full : s.nodes.length = 513)
    (ht : token = [false] ∨ ∃ v, v ≤ 256 ∧ token = true :: bitsOf 9 v) (h : s.inBits = token ++ rest) :
    des (bound + 1) s = .raised .nodeOverflow (s.consumed token []).bitsIn (s.consumed token []) := by
  rcases ht with rfl | ⟨v, value, rfl⟩
  · rw [des_internal h, alloc_of_full (by simpa using full), Run.bind_raised]
  · rw [des_leaf value h, alloc_of_full (by simpa using full)]

end Token

/-! ### Des() over a tree, and over a beginning of a header -/

theorem setChildren_consumed (s : State) (bits : Bits) (nd : Node) (more : List Node) (l r : Nat) :
    setChildren s.nodes.length l r (s.consumed bits (nd :: more)) =
      s.consumed bits ({ nd with left := l, right := r } :: more) := by
  simp [setChildren, State.consumed, List.modify_eq_take_drop]

/-- An internal node that finds room is allocated before its subtrees are read. -/
theorem des_internal_of_room {s : State} {bound : Nat} {rest : Bits} (room : s.nodes.length < 513)
    (h : s.inBits = false :: rest) : des (bound + 1) s =
      (des bound (s.consumed [false] [headerInternal])).bind fun l u => (des bound u).bind fun r w =>
        .ok s.nodes.length (setChildren s.nodes.length l r w) := by
  rw [des_internal h, alloc_of_room (by simpa using room), Run.bind_ok]
  simp

/-- From the header of a tree Des() allocates its entries in pre-order and reads no bit after it. -/
theorem des_of_tree {t : Tree} (values : ∀ v ∈ t.leaves, v ≤ 256) {s : State} {rest : Bits}
    (h : s.inBits = t.header ++ rest) (room : s.nodes.length + t.size ≤ 513) {bound : Nat} (deep : t.size ≤ bound) :
    des bound s = .ok s.nodes.length (s.consumed t.header (t.arena s.nodes.length)) := by
  induction t generalizing s rest bound with
  | leaf v =>
    obtain ⟨k, rfl⟩ : ∃ k, bound = k + 1 := Nat.exists_eq_add_one.mpr deep
    rw [des_leaf (values v (by simp [Tree.leaves])) h, alloc_of_room (by simpa using Nat.lt_of_succ_le room)]
    simp [Tree.header, Tree.arena, headerLeaf]
  | node l r ihl ihr =>
    simp only [Tree.leaves, List.mem_append] at values
    rw [Tree.size] at deep room
    obtain ⟨k, rfl⟩ : ∃ k, bound = k + 1 := Nat.exists_eq_add_one.mpr (by omega)
    have bits : s.inBits = false :: (l.header ++ (r.header ++ rest)) := by simpa [Tree.header] using h
    have afterTag := inBits_consumed_bit bits [headerInternal]
    have left := ihl (fun v hv => values v (.inl hv)) (bound := k) afterTag (by simp; omega) (by omega)
    have right := ihr (fun v hv => values v (.inr hv)) (bound := k)
      (inBits_consumed afterTag (l.arena (s.nodes.length + 1))) (by simp; omega) (by omega)
    rw [consumed_nodes, List.length_append, List.length_singleton] at left
    rw [des_internal_of_room (by omega) bits, left, Run.bind_ok, right, Run.bind_ok]
    simp [setChildren_consumed, Tree.header, Tree.arena, headerInternal, Nat.add_assoc, Nat.add_comm 1]

/-- Des() reads a beginning of a header up to the cut, and a fault there, at whatever depth is still allowed, ends every open
call above it. -/
theorem des_of_cut {c : HeaderCut} (values : ∀ v ∈ c.leaves, v ≤ 256) {s : State} {tail : Bits}
    (h : s.inBits = c.bits ++ tail) (room : s.nodes.length + c.size ≤ 513) {e : ErrCode} {info : Word} {u : State}
    (fails : ∀ k, des (k + 1) (s.consumed c.bits (c.arena s.nodes.length)) = .raised e info u) {bound : Nat}
    (deep : c.size < bound) : des bound s = .raised e info u := by
  obtain ⟨k, rfl⟩ : ∃ k, bound = k + 1 := Nat.exists_eq_add_one.mpr (by omega)
  induction c generalizing s k with
  | here => simpa [HeaderCut.bits, HeaderCut.arena] using fails k
  | inLeft l ih =>
    rw [HeaderCut.size] at deep room
    have bits : s.inBits = false :: (l.bits ++ tail) := by simpa [HeaderCut.bits] using h
    obtain ⟨m, rfl⟩ : ∃ m, k = m + 1 := Nat.exists_eq_add_one.mpr (by omega)
    have left := ih values (k := m) (inBits_consumed_bit bits [headerInternal]) (by simp; omega)
      (by simpa [HeaderCut.bits, HeaderCut.arena, headerInternal] using fails) (by omega)
    rw [des_internal_of_room (by omega) bits, left, Run.bind_raised]
  | inRight l r ih =>
    simp only [HeaderCut.leaves, List.mem_append] at values
    rw [HeaderCut.size] at deep room
    have bits : s.inBits = false :: (l.header ++ (r.bits ++ tail)) := by simpa [HeaderCut.bits] using h
    obtain ⟨m, rfl⟩ : ∃ m, k = m + 1 := Nat.exists_eq_add_one.mpr (by omega)
    have afterTag := inBits_consumed_bit bits [headerInternal]
    have left := des_of_tree (fun v hv => values v (.inl hv)) afterTag (by simp; omega) (bound := m + 1) (by omega)
    have right := ih (fun v hv => values v (.inr hv)) (k := m)
      (inBits_consumed afterTag (l.arena (s.nodes.length + 1))) (by simp; omega)
      (by simpa [HeaderCut.bits, HeaderCut.arena, headerInternal, Nat.add_assoc, Nat.add_comm 1] using fails) (by omega)
    rw [consumed_nodes, List.length_append, List.length_singleton] at left
    rw [des_internal_of_room (by omega) bits, left, Run.bind_ok, right, Run.bind_raised]

/-! ### RD_HEADER -/

/-- The state in which an accepted RD_HEADER has read the bits and allocated the entries for them (44_header_codec.md R102). -/
def State.readHeader (bits : Bits) (allocated : List Node) (s : State) : State :=
  (rdHeaderStart (s.reading .rdHeader)).consumed bits allocated

theorem readHeader_eq (bits : Bits) (allocated : List Node) (s : State) : s.readHeader bits allocated =
    { s with
      nodes := allocated
      inPos := s.inPos + bits.length
      bitsIn := BitVec.ofNat 32 bits.length
      cmd := 0x0000000A#32
      status := { s.status with treeValid := false, codeValid := false, eos := false, done := false, busy := true } } := by
  simp only [State.readHeader, State.consumed, rdHeaderStart, State.reading, List.nil_append, BitVec.zero_add]
  rfl

@[simp] theorem readHeader_nodes (bits : Bits) (allocated : List Node) (s : State) :
    (s.readHeader bits allocated).nodes = allocated := rfl

@[simp] theorem consumed_readHeader (a b : Bits) (x y : List Node) (s : State) :
    (s.readHeader a x).consumed b y = s.readHeader (a ++ b) (x ++ y) := consumed_consumed a b x y _

theorem inBits_readHeader {s : State} {bits rest : Bits} (h : s.inBits = bits ++ rest) (allocated : List Node) :
    (s.readHeader bits allocated).inBits = rest :=
  inBits_consumed (s := rdHeaderStart (s.reading .rdHeader)) h allocated

section Header

variable {s : State} (ready : s.Ready)
include ready

theorem execRdHeader_of_ready : exec .rdHeader s = settle ((des 514 (s.readHeader [] [])).bind
    fun r t => .ok () { t with root := r, status := { t.status with treeValid := true } }) := by
  rw [State.readHeader, consumed_nil]
  exact exec_of_reading (op := .rdHeader) ready rfl rfl

/-- A fault of Des() after any readable beginning of a header is RD_HEADER's. -/
theorem execRdHeader_of_cut {cut : HeaderCut} (readable : cut.Readable) {tail : Bits} (h : s.inBits = cut.bits ++ tail)
    {e : ErrCode} {info : Word} {u : State}
    (fails : ∀ k, des (k + 1) (s.readHeader cut.bits (cut.arena 0)) = .raised e info u) :
    exec .rdHeader s = .next (recordFault e info u) := by
  obtain ⟨values, fits⟩ := readable
  have start : (s.readHeader [] []).inBits = cut.bits ++ tail := inBits_readHeader (bits := []) h []
  have failed := des_of_cut values start (by simpa using fits) (by simpa using fails) (Nat.lt_succ_of_le fits)
  rw [execRdHeader_of_ready ready, failed]
  rfl

/-- R103, NODE_OVERFLOW: the token of one node more than the arena holds. -/
theorem execRdHeader_of_full {cut : HeaderCut} (readable : cut.Readable) (full : cut.size = 513) {token rest : Bits}
    (ht : token = [false] ∨ ∃ v, v ≤ 256 ∧ token = true :: bitsOf 9 v) (bits : s.inBits = cut.bits ++ token ++ rest) :
    exec .rdHeader s = .next
      { s with
        nodes := cut.arena 0
        inPos := s.inPos + (cut.bits ++ token).length
        bitsIn := BitVec.ofNat 32 (cut.bits ++ token).length
        errInfo := BitVec.ofNat 32 (cut.bits ++ token).length
        cmd := 0x0000000A#32
        status := { s.status with
          treeValid := false, codeValid := false, eos := false, done := false, err := .nodeOverflow } } := by
  have idle : s.status.busy = false := ready.1
  rw [List.append_assoc] at bits
  rw [execRdHeader_of_cut ready readable bits fun _ => des_of_full (by simpa using full) ht (inBits_readHeader bits _),
    consumed_readHeader, List.append_nil, readHeader_eq]
  simp only [recordFault, idle]

end Header

/-- Settles O30: Des() over the tree, from the empty arena; what it has allocated is the tree's arena. -/
theorem rdHeaderReadsTheTree : Obligations.RdHeaderReadsTheTree := by
  intro s tree rest ready values fits bits
  have idle : s.status.busy = false := ready.1
  have start : (s.readHeader [] []).inBits = tree.header ++ rest := inBits_readHeader (bits := []) bits []
  have read : des 514 (s.readHeader [] []) = .ok 0 (s.readHeader tree.header (tree.arena 0)) := by
    simpa using des_of_tree values start (by simpa using fits) (bound := 514) (by omega)
  refine ⟨?_, by simpa using treeAt_arena values le_rfl (pre := []) rfl []⟩
  rw [execRdHeader_of_ready ready, read, readHeader_eq]
  simp only [Run.bind_ok, settle, complete, idle]

/-- Settles O31: the fault is met at the cut, where at most the tag of a leaf is still delivered. -/
theorem rdHeaderFaultsOnTruncation : Obligations.RdHeaderFaultsOnTruncation := by
  intro s cut part ready readable token bits
  have idle : s.status.busy = false := ready.1
  have delivered : (part.take 1).length = if part = [] then 0 else 1 := by cases part <;> simp
  refine ⟨_, rfl, ?_⟩
  rw [execRdHeader_of_cut ready readable bits fun _ => des_cut_token token (inBits_readHeader bits _),
    consumed_readHeader, List.append_nil, readHeader_eq]
  simp only [State.atEnd, recordFault, List.length_append, delivered, idle]

/-- Settles O32: the value is looked at before room for a leaf is. -/
theorem rdHeaderFaultsOnABadLeaf : Obligations.RdHeaderFaultsOnABadLeaf := by
  intro s cut v rest ready readable bad small bits
  have idle : s.status.busy = false := ready.1
  rw [execRdHeader_of_cut ready readable bits fun _ => des_bad_leaf bad small (inBits_readHeader bits _),
    consumed_readHeader, List.append_nil, readHeader_eq]
  simp only [recordFault, List.length_append, List.length_cons, bitsOf_length, idle]

/-- n internal nodes, each the left child of the one before. -/
def HeaderCut.spine : Nat → HeaderCut
  | 0 => .here
  | n + 1 => .inLeft (spine n)

theorem HeaderCut.spine_bits (n : Nat) : (spine n).bits = List.replicate n false := by
  induction n with
  | zero => rfl
  | succ n ih => rw [spine, HeaderCut.bits, ih, List.replicate_succ]

theorem HeaderCut.spine_size (n : Nat) : (spine n).size = n := by
  induction n with
  | zero => rfl
  | succ n ih => rw [spine, HeaderCut.size, ih, Nat.add_comm]

theorem HeaderCut.spine_leaves (n : Nat) : (spine n).leaves = [] := by
  induction n with
  | zero => rfl
  | succ n ih => rw [spine, HeaderCut.leaves, ih]

theorem HeaderCut.spine_arena (n base : Nat) : (spine n).arena base = List.replicate n headerInternal := by
  induction n generalizing base with
  | zero => rfl
  | succ n ih => rw [spine, HeaderCut.arena, ih, List.replicate_succ, headerInternal]

/-- Settles O33: 513 zeros are the beginning of a header whose every node is the left child of the one before. -/
theorem rdHeaderOverflowsAtTheCapacity : Obligations.RdHeaderOverflowsAtTheCapacity := by
  refine ⟨fun s cut token rest ready readable full ht bits => execRdHeader_of_full ready readable full ht bits,
    fun s rest ready bits => ?_⟩
  have readable : (HeaderCut.spine 513).Readable :=
    ⟨by simp [HeaderCut.spine_leaves], (HeaderCut.spine_size 513).le⟩
  have zeros : s.inBits = (HeaderCut.spine 513).bits ++ [false] ++ rest := by
    rw [bits, HeaderCut.spine_bits, ← List.replicate_succ']
  rw [execRdHeader_of_full ready readable (HeaderCut.spine_size 513) (.inl rfl) zeros, HeaderCut.spine_bits,
    HeaderCut.spine_arena, ← List.replicate_succ', List.length_replicate]
  rfl

end Sys2Proof.Machine

/-! ## ENCODE (45_payload_codec.md R105) -/

namespace Sys2Proof.Machine

/-- A loop over a list and one more element of it, where each takes one pass. -/
theorem length_concat_add {α : Type} (xs : List α) (x : α) (bound : Nat) :
    (xs ++ [x]).length + bound = xs.length + (bound + 1) := by
  rw [List.length_append, List.length_singleton, Nat.add_assoc, Nat.add_comm 1]

/-- The codes of a list of bytes under the block's code table, one after another (30_encoding.md R75). -/
def State.codes (s : State) (bytes : List Byte) : Bits := bytes.flatMap fun b => (s.codeEntry b.toNat).bits

/-- ENCODE after its first n units, with the given bits written. -/
def State.encoding (n : Nat) (written : Bits) (s : State) : State :=
  { s with
    inData := s.secondPass
    inPos := 8 * n
    lateInput := none
    bitsIn := s.bitsIn + BitVec.ofNat 32 (8 * n)
    out := s.out ++ written
    bitsOut := s.bitsOut + BitVec.ofNat 32 written.length }

theorem inReset_eq_encoding (s : State) : inReset s = s.encoding 0 [] := by
  simp [State.encoding, inReset]

@[simp] theorem codeEntry_encoding (n : Nat) (written : Bits) (s : State) (sym : Nat) :
    (s.encoding n written).codeEntry sym = s.codeEntry sym := rfl

@[simp] theorem codeEntry_atEnd (s : State) (sym : Nat) : s.atEnd.codeEntry sym = s.codeEntry sym := rfl

@[simp] theorem codeEntry_reading (op : Op) (s : State) (sym : Nat) : (s.reading op).codeEntry sym = s.codeEntry sym := rfl

@[simp] theorem outWrite_encoding (n : Nat) (written str : Bits) (s : State) :
    outWrite str (s.encoding n written) = s.encoding n (written ++ str) := by
  simp [State.encoding, outWrite, BitVec.add_assoc, BitVec.ofNat_add]

@[simp] theorem outWrite_atEnd (str : Bits) (s : State) : outWrite str s.atEnd = (outWrite str s).atEnd := rfl

section Units

variable {s : State} {pre post : List Byte} {u : Byte}

/-- The unit after the first bytes is the next byte (30_encoding.md R77). -/
theorem inRead_encoding (data : s.secondPass = pre ++ u :: post) (written : Bits) :
    inRead 8 (s.encoding pre.length written) = (some u.toNat, s.encoding (pre.length + 1) written) := by
  have left : 8 * pre.length + 8 ≤ 8 * s.secondPass.length := by simp [data]; omega
  have unit : inField s.secondPass (8 * pre.length) 8 = bitsOf 8 u.toNat := by simp [inField_byte, data]
  have read : inRead 8 (s.encoding pre.length written) = (some (num (inField s.secondPass (8 * pre.length) 8)), _) :=
    if_pos left
  rw [read, unit, num_bitsOf_toNat, State.encoding, State.encoding, unitBits_succ, ← BitVec.add_assoc]
  rfl

/-- After the last byte the input is at its end (20_memory.md R45). -/
theorem inRead_encoding_end (s : State) (written : Bits) :
    inRead 8 (s.encoding s.secondPass.length written) = (none, (s.encoding s.secondPass.length written).atEnd) :=
  if_neg (Nat.not_le.mpr (Nat.lt_add_of_pos_right (by decide)))

/-- The loop writes the codes of the bytes that have one, a byte a pass. -/
theorem encodeLoop_of_coded (data : s.secondPass = pre ++ post) (coded : ∀ b ∈ pre, (s.codeEntry b.toNat).valid = true)
    (bound : Nat) :
    encodeLoop (pre.length + bound) (inReset s) = encodeLoop bound (s.encoding pre.length (s.codes pre)) := by
  induction pre using List.reverseRecOn generalizing post bound with
  | nil => simp [inReset_eq_encoding, State.codes]
  | append_singleton pre u ih =>
    simp only [List.mem_append, List.mem_singleton] at coded
    have next : s.secondPass = pre ++ u :: post := by simpa using data
    rw [length_concat_add, ih next fun b hb => coded b (.inl hb)]
    simp [encodeLoop, inRead_encoding next, emitCode, coded u (.inr rfl), State.codes]

/-- The first byte without a code ends the loop, consumed. -/
theorem encodeBody_of_uncoded_byte (data : s.secondPass = pre ++ u :: post)
    (coded : ∀ b ∈ pre, (s.codeEntry b.toNat).valid = true) (uncoded : (s.codeEntry u.toNat).valid = false) :
    encodeBody s = .raised .uncodedSymbol (BitVec.ofNat 32 u.toNat) (s.encoding (pre.length + 1) (s.codes pre)) := by
  have bound : s.secondPass.length + 1 = pre.length + (post.length + 1 + 1) := by simp [data]; omega
  rw [encodeBody, bound, encodeLoop_of_coded data coded]
  simp [encodeLoop, inRead_encoding data, emitCode, uncoded]

/-- Where every byte has a code the loop ends at END, and the sentinel's code is left to write. -/
theorem encodeBody_of_coded (coded : ∀ b ∈ s.secondPass, (s.codeEntry b.toNat).valid = true) :
    encodeBody s = emitCode 256 (s.encoding s.secondPass.length (s.codes s.secondPass)).atEnd := by
  rw [encodeBody, encodeLoop_of_coded (List.append_nil _).symm coded]
  simp only [encodeLoop, inRead_encoding_end, Run.bind_ok]

end Units

/-- ENCODE on a ready block with a code table and an open output runs its body (40_control.md R80, R81). -/
theorem execEncode_of_ready {s : State} (ready : s.Ready) (valid : s.status.codeValid = true)
    (isOpen : s.status.outClosed = false) : exec .encode s = settle (encodeBody (s.reading .encode)) :=
  exec_of_reading (op := .encode) ready rfl ((preHolds_iff .encode _).mpr ⟨valid, isOpen⟩)

/-- An accepted ENCODE after its first n units: BITS_IN counts from 0 (40_control.md R80). -/
theorem encoding_reading (n : Nat) (written : Bits) (s : State) : (s.reading .encode).encoding n written =
    { s with
      inData := s.secondPass
      inPos := 8 * n
      lateInput := none
      bitsIn := BitVec.ofNat 32 (8 * n)
      out := s.out ++ written
      bitsOut := s.bitsOut + BitVec.ofNat 32 written.length
      cmd := 0x00000007#32
      status := { s.status with eos := false, done := false, busy := true } } := by
  simp only [State.encoding, State.reading, BitVec.zero_add]
  rfl

/-- Settles O34: after the bytes' codes the sentinel's is written. -/
theorem encodeWritesThePayload : Obligations.EncodeWritesThePayload := by
  intro s ready valid isOpen coded sentinel
  have idle : s.status.busy = false := ready.1
  have run : encodeBody (s.reading .encode) =
      .ok () ((s.reading .encode).encoding s.secondPass.length (s.payload s.secondPass)).atEnd := by
    rw [encodeBody_of_coded (s := s.reading .encode) coded, emitCode, if_pos (by simpa using sentinel), outWrite_atEnd,
      outWrite_encoding]
    rfl
  rw [execEncode_of_ready ready valid isOpen, run, encoding_reading]
  simp only [settle, complete, State.atEnd, idle]

/-- Settles O35: the loop ends at the first byte without a code; where there is none, the sentinel's is looked up. -/
theorem encodeFaultsOnAnUncodedSymbol : Obligations.EncodeFaultsOnAnUncodedSymbol := by
  intro s ready valid isOpen
  have idle : s.status.busy = false := ready.1
  rw [execEncode_of_ready ready valid isOpen]
  refine ⟨fun pre post u data coded uncoded => ?_, fun coded uncoded => ?_⟩
  · rw [encodeBody_of_uncoded_byte (s := s.reading .encode) data coded uncoded, encoding_reading]
    simp only [settle, recordFault, idle]
    rfl
  · have run : encodeBody (s.reading .encode) = .raised .uncodedSymbol 256#32
        ((s.reading .encode).encoding s.secondPass.length (s.codes s.secondPass)).atEnd := by
      rw [encodeBody_of_coded (s := s.reading .encode) coded, emitCode, if_neg (by simp [uncoded])]
      rfl
    rw [run, encoding_reading]
    simp only [settle, recordFault, State.atEnd, idle]
    rfl

end Sys2Proof.Machine

/-! ## DECODE (45_payload_codec.md R107 to R109) -/

namespace Sys2Proof.Machine

/-! ### The tree below a node of the arena -/

/-- Below node n the arena holds the tree. -/
def Holds (nodes : List Node) (n : Nat) (t : Tree) : Prop := ∃ fuel, treeAt nodes fuel n = some t

/-- Node c is the child of node n on side b, 0 for the left and 1 for the right (45_payload_codec.md R107). -/
def ChildAt (nodes : List Node) (n : Nat) (b : Bool) (c : Nat) : Prop :=
  ∃ nd, nodes[n]? = some nd ∧ c = if b then nd.right else nd.left

theorem holds_of_tree {s : State} {t : Tree} (h : s.tree = some t) : Holds s.nodes s.root t := ⟨_, h⟩

/-- What a tree says of the node it was read from. -/
theorem treeAt_succ_eq_some {nodes : List Node} {fuel n : Nat} {t : Tree} (h : treeAt nodes (fuel + 1) n = some t) :
    ∃ nd, nodes[n]? = some nd ∧
      ((nd.isLeaf = true ∧ nd.value ≤ 256 ∧ t = .leaf nd.value) ∨
        (nd.isLeaf = false ∧ ∃ l r, treeAt nodes fuel nd.left = some l ∧ treeAt nodes fuel nd.right = some r ∧
          t = .node l r)) := by
  unfold treeAt at h
  split at h
  · cases h
  · rename_i nd hn
    refine ⟨nd, hn, ?_⟩
    split at h
    · split at h
      · cases h; exact .inl ⟨‹_›, ‹_›, rfl⟩
      · cases h
    · split at h
      · cases h
      · split at h
        · cases h
        · cases h
          exact .inr ⟨by simpa using ‹¬ nd.isLeaf = true›, _, _, ‹_›, ‹_›, rfl⟩

theorem Holds.leaf {nodes : List Node} {n v : Nat} (h : Holds nodes n (.leaf v)) :
    ∃ nd, nodes[n]? = some nd ∧ nd.isLeaf = true ∧ nd.value = v := by
  obtain ⟨_ | fuel, h⟩ := h
  · cases h
  · obtain ⟨nd, hn, ⟨leaf, -, e⟩ | ⟨-, _, _, -, -, e⟩⟩ := treeAt_succ_eq_some h <;> cases e
    exact ⟨nd, hn, leaf, rfl⟩

theorem Holds.node {nodes : List Node} {n : Nat} {l r : Tree} (h : Holds nodes n (.node l r)) :
    ∃ nd, nodes[n]? = some nd ∧ nd.isLeaf = false ∧ Holds nodes nd.left l ∧ Holds nodes nd.right r := by
  obtain ⟨_ | fuel, h⟩ := h
  · cases h
  · obtain ⟨nd, hn, ⟨-, -, e⟩ | ⟨internal, _, _, hl, hr, e⟩⟩ := treeAt_succ_eq_some h <;> cases e
    exact ⟨nd, hn, internal, ⟨fuel, hl⟩, ⟨fuel, hr⟩⟩

/-- An internal node has a child on either side, with the subtree of that side below it (44_header_codec.md R104). -/
theorem Holds.child {nodes : List Node} {n : Nat} {l r : Tree} (h : Holds nodes n (.node l r)) (b : Bool) :
    ∃ c, ChildAt nodes n b c ∧ Holds nodes c (if b then r else l) := by
  obtain ⟨nd, hn, -, hl, hr⟩ := h.node
  refine ⟨_, ⟨nd, hn, rfl⟩, ?_⟩
  cases b
  · exact hl
  · exact hr

/-- A path of at least one bit ends with a step from an internal node. -/
theorem Tree.follow_concat {t u : Tree} {path : Bits} {b : Bool} (h : t.follow (path ++ [b]) = some u) :
    ∃ l r, t.follow path = some (.node l r) ∧ u = if b then r else l := by
  rw [Tree.follow_append] at h
  obtain ⟨v, hv, hu⟩ := Option.bind_eq_some_iff.mp h
  cases v with
  | leaf w => cases hu
  | node l r => cases b <;> exact ⟨l, r, hv, by simpa [Tree.follow, eq_comm] using hu⟩

/-- Only the empty path leads from a leaf, to the leaf itself. -/
theorem Tree.follow_leaf {v : Nat} {path : Bits} {t : Tree} (h : (Tree.leaf v).follow path = some t) :
    path = [] ∧ t = .leaf v := by
  cases path with
  | nil => cases h; exact ⟨rfl, rfl⟩
  | cons b path => cases h

/-! ### One pass of the loop (45_payload_codec.md R108) -/

/-- DECODE after it has read and written the given bits, with CUR and DSTATE as given. -/
def State.decoding (read written : Bits) (cur : Nat) (d : DState) (s : State) : State :=
  { s with
    cur := cur
    out := s.out ++ written
    bitsOut := s.bitsOut + BitVec.ofNat 32 written.length
    inPos := s.inPos + read.length
    bitsIn := s.bitsIn + BitVec.ofNat 32 read.length
    status := { s.status with dstate := d } }

@[simp] theorem decoding_nodes (read written : Bits) (cur : Nat) (d : DState) (s : State) :
    (s.decoding read written cur d).nodes = s.nodes := rfl

@[simp] theorem decoding_cur (read written : Bits) (cur : Nat) (d : DState) (s : State) :
    (s.decoding read written cur d).cur = cur := rfl

theorem decoding_start (s : State) (cur : Nat) (d : DState) :
    s.decoding [] [] cur d = { s with cur := cur, status := { s.status with dstate := d } } := by
  simp [State.decoding]

theorem inBits_decoding {s : State} {read rest : Bits} (h : s.inBits = read ++ rest) (written : Bits) (cur : Nat)
    (d : DState) : (s.decoding read written cur d).inBits = rest := inBits_after h _ rfl rfl

@[simp] theorem consumed_decoding (read written more : Bits) (cur : Nat) (d : DState) (s : State) :
    (s.decoding read written cur d).consumed more [] = s.decoding (read ++ more) written cur d := by
  simp [State.decoding, State.consumed, Nat.add_assoc, BitVec.add_assoc, BitVec.ofNat_add]

@[simp] theorem outWrite_decoding (read written str : Bits) (cur : Nat) (d : DState) (s : State) :
    outWrite str (s.decoding read written cur d) = s.decoding read (written ++ str) cur d := by
  simp [State.decoding, outWrite, BitVec.add_assoc, BitVec.ofNat_add]

section Pass

variable {s : State} {read rest : Bits} {b : Bool} {cur c : Nat} {cn : Node} (d : DState) (written : Bits) (bound : Nat)

/-- END is TRUNC_PAYLOAD. -/
theorem decodeLoop_end (bits : s.inBits = read) : decodeLoop (bound + 1) (s.decoding read written cur d) =
    .raised .truncPayload (s.bitsIn + BitVec.ofNat 32 read.length) (s.decoding read written cur d).atEnd := by
  have ended : (s.decoding read written cur d).inBits = [] := inBits_decoding (by simpa using bits) ..
  have answer := inRead_end (n := 1) (s := s.decoding read written cur d) (by simp [ended])
  simp only [decodeLoop, answer]
  rfl

/-- The table of R108 for one bit: c is the child of CUR on its side. -/
theorem decodeLoop_bit (bits : s.inBits = read ++ b :: rest) (child : ChildAt s.nodes cur b c)
    (reached : s.nodes[c]? = some cn) : decodeLoop (bound + 1) (s.decoding read written cur d) =
      if cn.isLeaf then
        if cn.value = 256 then .ok () (s.decoding (read ++ [b]) written c .done)
        else decodeLoop bound (s.decoding (read ++ [b]) (written ++ bitsOf 8 cn.value) s.root .atRoot)
      else decodeLoop bound (s.decoding (read ++ [b]) written c .midWalk) := by
  obtain ⟨nd, found, rfl⟩ := child
  have answer := inRead_bit (inBits_decoding bits written cur d)
  have side : (if b.toNat = 0 then nd.left else nd.right) = if b then nd.right else nd.left := by cases b <;> rfl
  simp only [decodeLoop, answer, consumed_decoding, decoding_nodes, decoding_cur, found, side, reached, outWrite_decoding]
  rfl

end Pass

/-! ### One bit of a walk down the tree -/

section Step

variable {s : State} {read rest : Bits} {b : Bool} {cur : Nat} {l r : Tree} (d : DState) (written : Bits) (bound : Nat)
  (bits : s.inBits = read ++ b :: rest) (below : Holds s.nodes cur (.node l r))
include bits below

theorem decodeLoop_to_node {l' r' : Tree} (sub : (if b then r else l) = .node l' r') :
    ∃ c, Holds s.nodes c (.node l' r') ∧ decodeLoop (bound + 1) (s.decoding read written cur d) =
      decodeLoop bound (s.decoding (read ++ [b]) written c .midWalk) := by
  obtain ⟨c, child, holds⟩ := below.child b
  rw [sub] at holds
  obtain ⟨cn, at_c, internal, -⟩ := holds.node
  exact ⟨c, holds, by rw [decodeLoop_bit d written bound bits child at_c, if_neg (by simp [internal])]⟩

theorem decodeLoop_to_byte {v : Nat} (sub : (if b then r else l) = .leaf v) (byte : v ≠ 256) :
    decodeLoop (bound + 1) (s.decoding read written cur d) =
      decodeLoop bound (s.decoding (read ++ [b]) (written ++ bitsOf 8 v) s.root .atRoot) := by
  obtain ⟨c, child, holds⟩ := below.child b
  rw [sub] at holds
  obtain ⟨cn, at_c, leaf, rfl⟩ := holds.leaf
  rw [decodeLoop_bit d written bound bits child at_c, if_pos leaf, if_neg byte]

theorem decodeLoop_to_sentinel (sub : (if b then r else l) = .leaf 256) :
    ∃ c nd, s.nodes[c]? = some nd ∧ nd.isLeaf = true ∧ nd.value = 256 ∧
      decodeLoop (bound + 1) (s.decoding read written cur d) = .ok () (s.decoding (read ++ [b]) written c .done) := by
  obtain ⟨c, child, holds⟩ := below.child b
  rw [sub] at holds
  obtain ⟨cn, at_c, leaf, value⟩ := holds.leaf
  exact ⟨c, cn, at_c, leaf, value, by rw [decodeLoop_bit d written bound bits child at_c, if_pos leaf, if_pos value]⟩

end Step

/-! ### Paths from the root -/

section Path

variable {s : State} {l r : Tree} (root : Holds s.nodes s.root (.node l r)) {read path rest : Bits}
  (bits : s.inBits = read ++ path ++ rest) (written : Bits) (bound : Nat)
include root bits

/-- A path to an internal node is walked without a byte. -/
theorem decodeLoop_of_node {l' r' : Tree} (leads : (Tree.node l r).follow path = some (.node l' r')) :
    ∃ c, Holds s.nodes c (.node l' r') ∧
      decodeLoop (path.length + bound) (s.decoding read written s.root .atRoot) =
        decodeLoop bound (s.decoding (read ++ path) written c (if path = [] then .atRoot else .midWalk)) := by
  induction path using List.reverseRecOn generalizing l' r' rest bound with
  | nil =>
    cases leads
    exact ⟨s.root, root, by simp⟩
  | append_singleton path b ih =>
    obtain ⟨m, n, leads, sub⟩ := Tree.follow_concat leads
    obtain ⟨c, holds, walk⟩ := ih (rest := b :: rest) (by simpa using bits) (bound + 1) leads
    obtain ⟨c', holds', step⟩ := decodeLoop_to_node (read := read ++ path) (rest := rest)
      (if path = [] then .atRoot else .midWalk) written bound (by simpa using bits) holds sub.symm
    refine ⟨c', holds', ?_⟩
    rw [length_concat_add, walk, step]
    simp

/-- A path to a leaf of a byte value emits the byte and leads back to the root. -/
theorem decodeLoop_of_byte {v : Nat} (leads : (Tree.node l r).follow path = some (.leaf v)) (byte : v ≠ 256) :
    decodeLoop (path.length + bound) (s.decoding read written s.root .atRoot) =
      decodeLoop bound (s.decoding (read ++ path) (written ++ bitsOf 8 v) s.root .atRoot) := by
  obtain rfl | ⟨path, b, rfl⟩ := path.eq_nil_or_concat'
  · cases leads
  · obtain ⟨m, n, leads, sub⟩ := Tree.follow_concat leads
    obtain ⟨c, holds, walk⟩ := decodeLoop_of_node root (rest := b :: rest) (by simpa using bits) written (bound + 1) leads
    rw [length_concat_add, walk, decodeLoop_to_byte (read := read ++ path) (rest := rest) _ written bound (by simpa using bits)
      holds sub.symm byte, List.append_assoc]

/-- A path to a sentinel leaf ends the loop there. -/
theorem decodeLoop_of_sentinel (leads : (Tree.node l r).follow path = some (.leaf 256)) :
    ∃ c nd, s.nodes[c]? = some nd ∧ nd.isLeaf = true ∧ nd.value = 256 ∧
      decodeLoop (path.length + bound) (s.decoding read written s.root .atRoot) =
        .ok () (s.decoding (read ++ path) written c .done) := by
  obtain rfl | ⟨path, b, rfl⟩ := path.eq_nil_or_concat'
  · cases leads
  · obtain ⟨m, n, leads, sub⟩ := Tree.follow_concat leads
    obtain ⟨c, holds, walk⟩ := decodeLoop_of_node root (rest := b :: rest) (by simpa using bits) written (bound + 1) leads
    obtain ⟨c', nd, at_c, leaf, value, step⟩ := decodeLoop_to_sentinel (read := read ++ path) (rest := rest)
      (if path = [] then .atRoot else .midWalk) written bound (by simpa using bits) holds sub.symm
    refine ⟨c', nd, at_c, leaf, value, ?_⟩
    rw [length_concat_add, walk, step, List.append_assoc]

end Path

/-- The bytes of a list of spelled bytes, as they are emitted (45_payload_codec.md R107). -/
def emitted (spelled : List (Byte × Bits)) : Bits := (spelled.map Prod.fst).flatMap fun b => bitsOf 8 b.toNat

theorem emitted_length (spelled : List (Byte × Bits)) : (emitted spelled).length = 8 * spelled.length := by
  simp [emitted, List.length_flatMap, Function.comp_def, Nat.mul_comm]

theorem toNat_ne_sentinel (v : Byte) : v.toNat ≠ 256 := v.isLt.ne

/-- Spelled bytes are emitted one after another, each from the root and back to it. -/
theorem decodeLoop_of_spelled {s : State} {l r : Tree} (root : Holds s.nodes s.root (.node l r))
    {spelled : List (Byte × Bits)} (leads : ∀ e ∈ spelled, (Tree.node l r).follow e.2 = some (.leaf e.1.toNat))
    {read rest : Bits} (bits : s.inBits = read ++ spelled.flatMap Prod.snd ++ rest) (written : Bits) (bound : Nat) :
    decodeLoop ((spelled.flatMap Prod.snd).length + bound) (s.decoding read written s.root .atRoot) =
      decodeLoop bound (s.decoding (read ++ spelled.flatMap Prod.snd) (written ++ emitted spelled) s.root .atRoot) := by
  induction spelled generalizing read written with
  | nil => simp [emitted]
  | cons e spelled ih =>
    have head := leads e (by simp)
    simp only [List.flatMap_cons, List.append_assoc] at bits
    rw [List.flatMap_cons, List.length_append, Nat.add_assoc,
      decodeLoop_of_byte root (by simpa using bits) written _ head (toNat_ne_sentinel _),
      ih (fun e he => leads e (by simp [he])) (by simpa using bits)]
    simp [emitted]

/-! ### The root (45_payload_codec.md R109) -/

section Root

variable {s : State}

theorem decodeBody_of_sentinel (root : Holds s.nodes s.root (.leaf 256)) :
    decodeBody s = .ok () (s.decoding [] [] s.root .done) := by
  obtain ⟨nd, at_root, leaf, value⟩ := root.leaf
  simp only [decodeBody, at_root, leaf, value, if_true, decoding_start]

theorem decodeBody_of_byte {v : Nat} (root : Holds s.nodes s.root (.leaf v)) (byte : v ≠ 256) :
    decodeBody s = .raised .walkOffLeaf (BitVec.ofNat 32 v) (s.decoding [] [] s.root .atRoot) := by
  obtain ⟨nd, at_root, leaf, rfl⟩ := root.leaf
  simp only [decodeBody, at_root, leaf, if_true, if_neg byte, decoding_start]

theorem decodeBody_of_node {l r : Tree} (root : Holds s.nodes s.root (.node l r)) :
    decodeBody s = decodeLoop (s.inBits.length + 1) (s.decoding [] [] s.root .atRoot) := by
  obtain ⟨nd, at_root, internal, -⟩ := root.node
  simp only [decodeBody, at_root, internal, Bool.false_eq_true, if_false, decoding_start, inBits_length]

end Root

/-- Under an internal root the loop begins with the spelled bytes. -/
theorem decodeBody_of_spelled {s : State} {l r : Tree} (root : Holds s.nodes s.root (.node l r))
    {spelled : List (Byte × Bits)} (leads : ∀ e ∈ spelled, (Tree.node l r).follow e.2 = some (.leaf e.1.toNat)) {tail : Bits}
    (bits : s.inBits = spelled.flatMap Prod.snd ++ tail) : decodeBody s =
      decodeLoop (tail.length + 1) (s.decoding (spelled.flatMap Prod.snd) (emitted spelled) s.root .atRoot) := by
  have loop := decodeLoop_of_spelled root leads (read := []) bits [] (tail.length + 1)
  rw [decodeBody_of_node root, bits, List.length_append, Nat.add_assoc]
  exact loop

/-- Under a sentinel root no byte is spelled. -/
theorem spelled_eq_nil {spelled : List (Byte × Bits)}
    (leads : ∀ e ∈ spelled, (Tree.leaf 256).follow e.2 = some (.leaf e.1.toNat)) : spelled = [] :=
  List.eq_nil_iff_forall_not_mem.mpr fun e he =>
    toNat_ne_sentinel e.1 (Tree.leaf.inj (Tree.follow_leaf (leads e he)).2)

/-- The loop emits the spelled bytes and ends at the sentinel's leaf; where that is the root, nothing is read or written. -/
theorem decodeBody_of_sentinel_path {s : State} {tree : Tree} (root : Holds s.nodes s.root tree)
    {spelled : List (Byte × Bits)} (leads : ∀ e ∈ spelled, tree.follow e.2 = some (.leaf e.1.toNat)) {last rest : Bits}
    (ends : tree.follow last = some (.leaf 256)) (bits : s.inBits = spelled.flatMap Prod.snd ++ last ++ rest) :
    ∃ c nd, s.nodes[c]? = some nd ∧ nd.isLeaf = true ∧ nd.value = 256 ∧
      decodeBody s = .ok () (s.decoding (spelled.flatMap Prod.snd ++ last) (emitted spelled) c .done) := by
  cases tree with
  | leaf v =>
    obtain ⟨rfl, e⟩ := Tree.follow_leaf ends
    cases e
    obtain rfl := spelled_eq_nil leads
    obtain ⟨nd, at_root, leaf, value⟩ := root.leaf
    exact ⟨s.root, nd, at_root, leaf, value, decodeBody_of_sentinel root⟩
  | node l r =>
    obtain ⟨c, nd, at_c, leaf, value, loop⟩ :=
      decodeLoop_of_sentinel root bits (emitted spelled) (rest.length + 1) ends
    refine ⟨c, nd, at_c, leaf, value, ?_⟩
    rw [decodeBody_of_spelled root leads (by rw [bits, List.append_assoc]), List.length_append, Nat.add_assoc, loop]

/-- The loop emits the spelled bytes and meets END at an internal node. -/
theorem decodeBody_of_cut_path {s : State} {tree left right : Tree} (root : Holds s.nodes s.root tree)
    {spelled : List (Byte × Bits)} (leads : ∀ e ∈ spelled, tree.follow e.2 = some (.leaf e.1.toNat)) {last : Bits}
    (ends : tree.follow last = some (.node left right)) (bits : s.inBits = spelled.flatMap Prod.snd ++ last) :
    ∃ c, decodeBody s = .raised .truncPayload (s.bitsIn + BitVec.ofNat 32 s.inBits.length)
      (s.decoding s.inBits (emitted spelled) c (if last = [] then .atRoot else .midWalk)).atEnd := by
  cases tree with
  | leaf v => cases (Tree.follow_leaf ends).2
  | node l r =>
    have input : s.inBits = spelled.flatMap Prod.snd ++ last ++ [] := by rw [bits, List.append_nil]
    obtain ⟨c, -, loop⟩ := decodeLoop_of_node root input (emitted spelled) 1 ends
    exact ⟨c, by rw [decodeBody_of_spelled root leads bits, loop, decodeLoop_end _ _ 0 bits, bits]⟩

/-! ### The command -/

/-- DECODE on a ready block with a tree and an open output runs its body (40_control.md R80, R81). -/
theorem execDecode_of_ready {s : State} (ready : s.Ready) (valid : s.status.treeValid = true)
    (isOpen : s.status.outClosed = false) : exec .decode s = settle (decodeBody (s.reading .decode)) :=
  exec_of_reading (op := .decode) ready rfl ((preHolds_iff .decode _).mpr ⟨valid, isOpen⟩)

/-- An accepted DECODE: BITS_IN counts from 0 (40_control.md R80). -/
theorem decoding_reading (read written : Bits) (cur : Nat) (d : DState) (s : State) :
    (s.reading .decode).decoding read written cur d =
      { s with
        cur := cur
        out := s.out ++ written
        bitsOut := s.bitsOut + BitVec.ofNat 32 written.length
        inPos := s.inPos + read.length
        bitsIn := BitVec.ofNat 32 read.length
        cmd := 0x0000000B#32
        status := { s.status with dstate := d, eos := false, done := false, busy := true } } := by
  simp only [State.decoding, State.reading, BitVec.zero_add]
  rfl

/-- Settles O37: the root is looked at before the first read. -/
theorem decodeFaultsOnALeafRoot : Obligations.DecodeFaultsOnALeafRoot := by
  intro s v ready valid isOpen whole byte
  have idle : s.status.busy = false := ready.1
  rw [execDecode_of_ready ready valid isOpen,
    decodeBody_of_byte (s := s.reading .decode) (holds_of_tree whole) byte, decoding_reading]
  simp [settle, recordFault, State.reading, idle]

/-- Settles O36: BITS_IN starts at 0, and the walk ends at the sentinel's leaf. -/
theorem decodeEmitsTheBytes : Obligations.DecodeEmitsTheBytes := by
  intro s tree spelled last rest ready valid isOpen whole leads ends bits
  have idle : s.status.busy = false := ready.1
  obtain ⟨cur, nd, at_cur, leaf, value, run⟩ :=
    decodeBody_of_sentinel_path (s := s.reading .decode) (holds_of_tree whole) leads ends bits
  refine ⟨cur, nd, at_cur, leaf, value, ?_⟩
  rw [execDecode_of_ready ready valid isOpen, run, decoding_reading, emitted_length]
  simp only [settle, complete, idle]
  rfl

/-- Settles O38: BITS_IN starts at 0, and the walk meets END at an internal node. -/
theorem decodeFaultsOnTruncation : Obligations.DecodeFaultsOnTruncation := by
  intro s tree left right spelled last ready valid isOpen whole leads ends bits
  have idle : s.status.busy = false := ready.1
  obtain ⟨cur, run⟩ := decodeBody_of_cut_path (s := s.reading .decode) (holds_of_tree whole) leads ends bits
  refine ⟨cur, ?_⟩
  rw [execDecode_of_ready ready valid isOpen, run, decoding_reading, emitted_length]
  simp only [settle, recordFault, State.atEnd, State.reading, BitVec.zero_add, idle]
  rfl

end Sys2Proof.Machine

/-! ## No step is a fault of the model (45_payload_codec.md R109, R110, 70_reset_and_hazards.md R150) -/

namespace Sys2Proof.Machine

/-! ### Runs that finish -/

/-- The run completes or raises: it does not end in a fault of the model (log entry 8). -/
def Run.Finishes {α : Type} : Run α → Prop
  | .ok _ _ => True
  | .raised _ _ _ => True
  | .stuck _ => False

namespace Run.Finishes

variable {α β : Type} {r : Run α}

theorem bind {f : α → State → Run β} (hr : r.Finishes) (hf : ∀ a s, r = .ok a s → (f a s).Finishes) :
    (r.bind f).Finishes := by
  cases r with
  | ok a s => exact hf a s rfl
  | raised c w s => trivial
  | stuck e => exact hr

theorem closing (hr : r.Finishes) (close : State → State) : (r.closing close).Finishes := by
  cases r with
  | ok a s => trivial
  | raised c w s => trivial
  | stuck e => exact hr

/-- A command whose body finishes is no fault of the model. -/
theorem settle_ne_fault {r : Run Unit} (hr : r.Finishes) (f : Fault) : settle r ≠ .fault f := fun h => by
  rw [settle_eq_fault] at h
  subst h
  exact hr

end Run.Finishes

/-- What holds however a run ends holds where it completes. -/
theorem Run.Ends.of_ok {α : Type} {P : State → Prop} {r : Run α} (h : r.Ends P) {a : α} {t : State} (ok : r = .ok a t) :
    P t := by
  subst ok
  exact h

/-! ### The loops over units -/

/-- A read that is answered takes its bits from those left (20_memory.md R44). -/
theorem inBits_length_of_inRead {n v : Nat} {s t : State} (h : inRead n s = (some v, t)) :
    t.inBits.length + n = s.inBits.length := by
  rcases inRead_cases n s with ⟨le, e⟩ | ⟨_, e⟩ <;> rw [e] at h <;> cases h
  simp only [inBits_length]
  omega

/-- What writes neither the input position nor the data leaves the bits that are left. -/
theorem Frame.inBits_eq {ps : List Part} {s t : State} (f : Frame ps s t) (input : .input ∉ ps) (data : .data ∉ ps) :
    t.inBits = s.inBits := by
  rw [State.inBits, State.inBits, (f.same .data data).1, (f.same .input input).1]

theorem countUnit_finishes (u : Nat) (s : State) : (countUnit u s).Finishes := by
  unfold countUnit
  split
  · trivial
  · trivial

theorem emitCode_finishes (sym : Nat) (s : State) : (emitCode sym s).Finishes := by
  rcases emitCode_cases sym s with ⟨_, e⟩ | ⟨_, e⟩ <;> rw [e] <;> trivial

/-- A pass that takes a unit, and then writes neither the input position nor the data, leaves fewer bits. -/
theorem inBits_length_after_unit {u bound : Nat} {s t t' : State} (left : s.inBits.length < 8 * (bound + 1))
    (read : inRead 8 s = (some u, t)) {ps : List Part} (f : Frame ps t t') (input : .input ∉ ps) (data : .data ∉ ps) :
    t'.inBits.length < 8 * bound := by
  have taken := inBits_length_of_inRead read
  rw [f.inBits_eq input data]
  omega

theorem countLoop_finishes {bound : Nat} {s : State} (left : s.inBits.length < 8 * bound) : (countLoop bound s).Finishes := by
  induction bound generalizing s with
  | zero => omega
  | succ bound ih =>
    unfold countLoop
    split
    · trivial
    · rename_i u t read
      refine (countUnit_finishes u t).bind fun _ t' counted => ih ?_
      exact inBits_length_after_unit left read ((countUnit_confined u t).ends.of_ok counted) (by simp) (by simp)

theorem encodeLoop_finishes {bound : Nat} {s : State} (left : s.inBits.length < 8 * bound) : (encodeLoop bound s).Finishes := by
  induction bound generalizing s with
  | zero => omega
  | succ bound ih =>
    unfold encodeLoop
    split
    · trivial
    · rename_i u t read
      refine (emitCode_finishes u t).bind fun _ t' written => ih ?_
      exact inBits_length_after_unit left read ((emitCode_confined u t).ends.of_ok written) (by simp) (by simp)

theorem countBody_finishes (s : State) : (countBody s).Finishes := by
  have start : (countStart s).inBits.length = 8 * s.inData.length - s.inPos := inBits_length _
  exact (countLoop_finishes (by omega)).bind fun _ _ _ => trivial

theorem encodeBody_finishes (s : State) : (encodeBody s).Finishes := by
  refine Run.Finishes.bind (encodeLoop_finishes ?_) fun _ t _ => emitCode_finishes _ t
  rw [inBits_length, inReset_inData, inReset_inPos]
  omega

/-! ### Des() -/

theorem alloc_finishes (nd : Node) (s : State) : (alloc nd s).Finishes := by
  unfold alloc
  split
  · trivial
  · trivial

/-- Des(), completed, has allocated nodes, and no more than NODE_CAP. -/
theorem des_grows {bound : Nat} {s t : State} {i : Nat} (h : des bound s = .ok i t) (fits : s.nodes.length ≤ Config.nodeCap) :
    s.nodes.length ≤ t.nodes.length ∧ t.nodes.length ≤ Config.nodeCap := by
  obtain ⟨-, tree, -, nodes⟩ := des_eq_ok h
  exact ⟨by simp [nodes], (des_fits bound fits).of_ok h⟩

/-- Each level below the first has allocated a node, and no more than NODE_CAP are (44_header_codec.md R102). -/
theorem des_finishes {bound : Nat} {s : State} (fits : s.nodes.length ≤ Config.nodeCap)
    (deep : Config.nodeCap < s.nodes.length + bound) : (des bound s).Finishes := by
  induction bound generalizing s with
  | zero => omega
  | succ bound ih =>
    unfold des
    split
    · trivial
    · rename_i b t bit
      have nodes : t.nodes = s.nodes := nodes_of_inRead bit
      split
      · split
        · trivial
        · split
          · trivial
          · exact alloc_finishes _ _
      · refine (alloc_finishes _ t).bind fun i u allocated => ?_
        obtain ⟨room, -, e⟩ := alloc_eq_ok allocated
        have one : u.nodes.length = s.nodes.length + 1 := by simp [e, nodes]
        have fits' : u.nodes.length ≤ Config.nodeCap := by rw [nodes] at room; omega
        refine (ih fits' (by omega)).bind fun l u' left => ?_
        obtain ⟨grown, fits''⟩ := des_grows left fits'
        exact (ih fits'' (by omega)).bind fun _ _ _ => trivial

/-! ### DECODE's loop -/

/-- From an internal node every bit leads to a node of the tree, and each pass takes a bit (45_payload_codec.md R109, R110). -/
theorem decodeLoop_finishes {s : State} {l r : Tree} (root : Holds s.nodes s.root (.node l r)) {read rest written : Bits}
    {cur : Nat} {d : DState} {l' r' : Tree} (below : Holds s.nodes cur (.node l' r')) (bits : s.inBits = read ++ rest) :
    (decodeLoop (rest.length + 1) (s.decoding read written cur d)).Finishes := by
  induction rest generalizing read written cur d l' r' with
  | nil =>
    rw [decodeLoop_end d written _ (by simpa using bits)]
    trivial
  | cons b rest ih =>
    have left : s.inBits = read ++ [b] ++ rest := by simpa using bits
    cases sub : if b then r' else l' with
    | node =>
      obtain ⟨c, holds, step⟩ := decodeLoop_to_node d written (rest.length + 1) bits below sub
      rw [List.length_cons, step]
      exact ih holds left
    | leaf v =>
      by_cases sentinel : v = 256
      · subst sentinel
        obtain ⟨c, nd, -, -, -, step⟩ := decodeLoop_to_sentinel d written (rest.length + 1) bits below sub
        rw [List.length_cons, step]
        trivial
      · rw [List.length_cons, decodeLoop_to_byte d written (rest.length + 1) bits below sub sentinel]
        exact ih root left

theorem decodeBody_finishes {s : State} {tree : Tree} (whole : s.tree = some tree) : (decodeBody s).Finishes := by
  have root := holds_of_tree whole
  cases tree with
  | leaf v =>
    by_cases sentinel : v = 256
    · subst sentinel
      rw [decodeBody_of_sentinel root]
      trivial
    · rw [decodeBody_of_byte root sentinel]
      trivial
  | node l r =>
    rw [decodeBody_of_node root]
    exact decodeLoop_finishes root root (read := []) rfl

/-! ### Every command -/

theorem buildBody_finishes (s : State) : (buildBody s).Finishes := by
  rw [buildBody_eq]
  trivial

theorem rdMagicBody_finishes (s : State) : (rdMagicBody s).Finishes := by
  unfold rdMagicBody
  split
  · trivial
  · split
    · trivial
    · trivial

theorem rdHeaderBody_finishes (s : State) : (rdHeaderBody s).Finishes := by
  rw [rdHeaderBody_eq]
  exact (des_finishes (Nat.zero_le _) (by omega)).bind fun _ _ _ => trivial

/-- RD_HEADER, completed, leaves a tree (44_header_codec.md R104). -/
theorem rdHeaderBody_tree {s t : State} (h : rdHeaderBody s = .ok () t) : ∃ tree, t.tree = some tree := by
  rw [rdHeaderBody_eq] at h
  obtain ⟨r, u, read, h⟩ := Run.bind_eq_ok.mp h
  cases h
  obtain ⟨root, tree, leaves, nodes⟩ := des_eq_ok read
  exact ⟨tree, tree_of_arena leaves nodes root⟩

/-- DERIVE and WR_HEADER find the tree that BUILD made. -/
theorem compressBody_finishes (s : State) : (compressBody s).Finishes := by
  refine Run.Finishes.closing ?_ _
  refine (countBody_finishes s).bind fun _ s1 _ => (buildBody_finishes s1).bind fun _ s2 built => ?_
  obtain ⟨⟨tree, whole, -⟩, -⟩ := (buildBody_ends s1).of_ok built
  rw [deriveBody_of_tree whole, Run.bind_ok, wrMagicBody, Run.bind_ok, wrHeaderBody_of_tree (by exact whole), Run.bind_ok]
  exact encodeBody_finishes _

/-- DECODE finds the tree that RD_HEADER read. -/
theorem decompressBody_finishes (s : State) : (decompressBody s).Finishes := by
  refine Run.Finishes.closing ?_ _
  refine (rdMagicBody_finishes s).bind fun _ s1 _ => (rdHeaderBody_finishes s1).bind fun _ s2 read => ?_
  obtain ⟨tree, whole⟩ := rdHeaderBody_tree read
  exact decodeBody_finishes whole

theorem opBody_finishes {op : Op} {s : State} (h : s.Sound) (pre : preHolds op s.status = true) :
    (opBody op s).Finishes := by
  have needs := (preHolds_iff op s.status).mp pre
  cases op with
  | nop => trivial
  | clear => trivial
  | count => exact countBody_finishes s
  | build => exact buildBody_finishes s
  | derive =>
    obtain ⟨tree, whole, -⟩ := h.tree_whole needs
    show (deriveBody s).Finishes
    rw [deriveBody_of_tree whole]
    trivial
  | wrMagic => trivial
  | wrHeader =>
    obtain ⟨tree, whole, -⟩ := h.tree_whole needs.1
    show (wrHeaderBody s).Finishes
    rw [wrHeaderBody_of_tree whole]
    trivial
  | encode => exact encodeBody_finishes s
  | closeOut => trivial
  | rdMagic => exact rdMagicBody_finishes s
  | rdHeader => exact rdHeaderBody_finishes s
  | decode =>
    obtain ⟨tree, whole, -⟩ := h.tree_whole needs.1
    exact decodeBody_finishes whole
  | compress => exact compressBody_finishes s
  | decompress => exact decompressBody_finishes s

theorem preHolds_startReading (op : Op) (s : State) :
    preHolds op (startReading op s).status = preHolds op s.status := by
  rw [startReading_status]
  cases op <;> rfl

theorem exec_op_ne_fault {op : Op} {s : State} (h : s.Sound) (f : Fault) : exec op.instr s ≠ .fault f := by
  rw [exec_eq_command]
  rcases command_cases op (opBody op) s with ⟨_, e⟩ | ⟨_, _, _, e⟩ | ⟨_, _, _, e⟩ | ⟨_, _, hp, e⟩ <;> rw [e]
  · nofun
  · nofun
  · nofun
  · have accepted : (accept op s).Sound := h.of_frame ((accept_frame op s).mono (by simp))
    have start := accepted.of_frame (startReading_frame op (accept op s) (fun _ => by simp))
    exact (opBody_finishes start (by rw [preHolds_startReading, preHolds_accept, hp])).settle_ne_fault f

/-! ### Every step -/

/-- A running block has latched a command. -/
theorem blockStep_ne_fault {s : State} (h : s.Inv) (busy : s.status.busy = true) (f : Fault) : blockStep exec s ≠ .fault f := by
  obtain ⟨-, op, latched, -⟩ := h.running busy
  have command : decodeCommand s.cmd = .ok op.instr := by rw [decodeCommand, latched]
  have idle : ({ s with status := { s.status with busy := false }, lag := 0 } : State).Sound :=
    { ((inv_iff s).mp h).1 with }
  rcases blockStep_cases exec s with ⟨⟨e, illegal⟩, _⟩ | ⟨i, hi, ⟨_, _, e⟩ | ⟨g, run, _⟩ | ⟨_, _, e⟩⟩
  · cases command.symm.trans illegal
  · rw [e]; nofun
  · cases command.symm.trans hi
    exact absurd run (exec_op_ne_fault idle g)
  · rw [e]; nofun

theorem offer_ne_fault {s : State} (h : s.Sound) (w : Word) (lag : Nat) (f : Fault) : offer exec w lag s ≠ .fault f := by
  rcases offer_cases exec w lag s with ⟨_, e⟩ | ⟨_, _, _, e⟩ | ⟨_, _, _, e⟩ | ⟨op, _, _, _, _, e⟩ | ⟨op, _, _, _, _, e⟩ <;>
    rw [e]
  · nofun
  · nofun
  · nofun
  · exact exec_op_ne_fault h f
  · nofun

theorem memWrite_ne_fault {s : State} (h : s.Sound) (off : Nat) (v : Word) (lag : Nat) (f : Fault) :
    memWrite exec off v lag s ≠ .fault f := by
  by_cases cmd : off = 0x00
  · subst cmd
    exact offer_ne_fault h v lag f
  · by_cases tblAddr : off = 0x28
    · subst tblAddr
      nofun
    · rw [memWrite_other exec v lag s cmd tblAddr]
      nofun

/-- Of the host's operations only a CMD write runs a command. -/
theorem hostStep_ne_fault {s : State} (h : s.Sound) (op : HostOp) (f : Fault) : hostStep exec op s ≠ .fault f := by
  cases op with
  | read addr width =>
    simp only [hostStep]
    split <;> nofun
  | write addr width v lag =>
    simp only [hostStep]
    split
    · nofun
    · exact memWrite_ne_fault h _ v lag f
  | wait =>
    simp only [hostStep]
    split <;> nofun
  | bindInput data late => nofun
  | bindOutput => nofun
  | reset => nofun

/-- Settles O6, by the cases of a step: every body finishes, a running block has latched a command, and the host's other
operations run nothing. -/
theorem stepNeverStopsUnderInvariant : Obligations.StepNeverStopsUnderInvariant := by
  intro s f h
  have sound := ((inv_iff s).mp h).1
  rcases step_cases s with ⟨i, token, _⟩ | ⟨_, busy, _, e⟩ | ⟨_, _, _, e⟩ | ⟨op, rest, _, _, _, e⟩
  · simp [h.no_token] at token
  · rw [e]
    exact blockStep_ne_fault h busy f
  · rw [e]
    nofun
  · rw [e]
    exact hostStep_ne_fault (s := { s with hostOps := rest, lag := s.lag - 1 }) { sound with } op f

end Sys2Proof.Machine

/-! ## The bytes of an output, and of an input (20_memory.md R43, R50) -/

namespace Sys2Proof.Machine

/-- The bits of a list of bytes, one after another. -/
def byteBits (bytes : List Byte) : Bits := bytes.flatMap fun b => bitsOf 8 b.toNat

theorem byteBits_cons (b : Byte) (bytes : List Byte) : byteBits (b :: bytes) = bitsOf 8 b.toNat ++ byteBits bytes := rfl

@[simp] theorem byteBits_length (bytes : List Byte) : (byteBits bytes).length = 8 * bytes.length := by
  simp [byteBits, List.length_flatMap, Nat.mul_comm]

@[simp] theorem outBytes_length (o : Bits) : (outBytes o).length = o.length / 8 := by simp [outBytes]

theorem outBytes_byte_append (b : Byte) (o : Bits) : outBytes (bitsOf 8 b.toNat ++ o) = b :: outBytes o := by
  have count : (bitsOf 8 b.toNat ++ o).length / 8 = o.length / 8 + 1 := by
    rw [List.length_append, bitsOf_length]
    omega
  have first : (bitsOf 8 b.toNat ++ o).take 8 = bitsOf 8 b.toNat := List.take_left' (bitsOf_length ..)
  have later (k : Nat) : (bitsOf 8 b.toNat ++ o).drop (8 * (k + 1)) = o.drop (8 * k) := by
    rw [Nat.mul_succ, Nat.add_comm, ← List.drop_drop, List.drop_left' (bitsOf_length ..)]
  rw [outBytes, count, List.range_succ_eq_map, List.map_cons, List.map_map, Nat.mul_zero, List.drop_zero, first,
    num_bitsOf_toNat, BitVec.ofNat_toNat, BitVec.setWidth_eq, outBytes]
  simp only [Function.comp_def, Nat.succ_eq_add_one, later]

theorem outBytes_byteBits (bytes : List Byte) : outBytes (byteBits bytes) = bytes := by
  induction bytes with
  | nil => rfl
  | cons b bytes ih => rw [byteBits_cons, outBytes_byte_append, ih]

/-- Whole bytes of bits are the bits of their bytes. -/
theorem byteBits_outBytes {n : Nat} {o : Bits} (whole : o.length = 8 * n) : byteBits (outBytes o) = o := by
  induction n generalizing o with
  | zero =>
    obtain rfl := List.length_eq_zero_iff.mp whole
    rfl
  | succ n ih =>
    have byte : (o.take 8).length = 8 := List.length_take_of_le (by omega)
    have bits : bitsOf 8 (BitVec.ofNat 8 (num (o.take 8))).toNat = o.take 8 := by
      have small := num_lt (o.take 8)
      have same := bitsOf_num (o.take 8)
      rw [byte] at small same
      rw [BitVec.toNat_ofNat, Nat.mod_eq_of_lt small, same]
    have split := outBytes_byte_append (BitVec.ofNat 8 (num (o.take 8))) (o.drop 8)
    rw [bits, List.take_append_drop] at split
    rw [split, byteBits_cons, bits, ih (by rw [List.length_drop]; omega), List.take_append_drop]

/-- The whole input is the bits of its bytes. -/
theorem inField_whole (data : List Byte) : inField data 0 (8 * data.length) = byteBits data := by
  have begins : ∀ n, n ≤ data.length → inField data 0 (8 * n) = byteBits (data.take n) := by
    intro n
    induction n with
    | zero => intro; rfl
    | succ n ih =>
      intro inside
      have byte : data.getD n 0#8 = data[n] := by simp [show n < data.length from inside]
      rw [Nat.mul_succ, inField_add, ih (by omega), Nat.zero_add, inField_byte, byte,
        List.take_succ_eq_append_getElem inside, byteBits, byteBits, List.flatMap_append, List.flatMap_singleton]
  rw [begins _ le_rfl, List.take_length]

theorem inBits_of_start {s : State} (start : s.inPos = 0) : s.inBits = byteBits s.inData := by
  rw [State.inBits, start, Nat.sub_zero, inField_whole]

/-- A whole output, bound to the input port, is what the port delivers. -/
theorem inBits_of_outBytes {s : State} {o : Bits} (start : s.inPos = 0) (data : s.inData = outBytes o)
    (whole : o.length % 8 = 0) : s.inBits = o := by
  rw [inBits_of_start start, data]
  exact byteBits_outBytes (n := o.length / 8) (by omega)

end Sys2Proof.Machine

/-! ## The tree BUILD makes is that of the counters and the tie-break (42_tree_builder.md R89, R91) -/

namespace Sys2Proof.Machine

/-- The states agree in all that the merges read: the arena, the queue and TIEBREAK. -/
structure SameForest (s t : State) : Prop where
  nodes : t.nodes = s.nodes
  pq : t.pq = s.pq
  params : t.params = s.params

namespace SameForest

variable {s t : State} (h : SameForest s t)
include h

theorem weight (i : Nat) : t.weight i = s.weight i := by rw [State.weight, h.nodes, State.weight]

theorem least (queue : List Nat) : least t queue = Machine.least s queue := by
  induction queue with
  | nil => rfl
  | cons i rest ih => simp only [Machine.least, ih, before_congr h.params (h.weight _) (h.weight _)]

theorem popMin_none (empty : popMin s = none) : popMin t = none := by
  rw [popMin, Option.map_eq_none_iff] at empty ⊢
  rw [h.pq, h.least, empty]

theorem popMin_some {i : Nat} {u : State} (pop : popMin s = some (i, u)) :
    ∃ v, popMin t = some (i, v) ∧ SameForest u v := by
  obtain ⟨first, rfl⟩ := popMin_eq_some pop
  refine ⟨{ t with pq := t.pq.erase i }, ?_, h.nodes, by rw [h.pq], h.params⟩
  rw [popMin, h.pq, h.least, first, Option.map_some]

theorem newInternal (a b : Nat) : SameForest (newInternal a b s) (Machine.newInternal a b t) where
  nodes := by simp only [Machine.newInternal, h.nodes, h.weight]
  pq := by simp only [Machine.newInternal, h.nodes, h.pq]
  params := h.params

theorem mergeLoop (bound : Nat) : SameForest (mergeLoop bound s) (Machine.mergeLoop bound t) := by
  induction bound generalizing s t with
  | zero => exact h
  | succ bound ih =>
    cases first : popMin s with
    | none => simpa only [Machine.mergeLoop, first, h.popMin_none first] using h
    | some p =>
      obtain ⟨a, s1⟩ := p
      obtain ⟨t1, first', h1⟩ := h.popMin_some first
      cases second : popMin s1 with
      | none => simpa only [Machine.mergeLoop, first, first', second, h1.popMin_none second] using h
      | some p =>
        obtain ⟨b, s2⟩ := p
        obtain ⟨t2, second', h2⟩ := h1.popMin_some second
        simpa only [Machine.mergeLoop, first, first', second, second'] using ih (h2.newInternal a b)

end SameForest

/-- The arena BUILD leaves depends on the counters and the tie-break only. -/
theorem merged_nodes_congr {s t : State} (freq : t.freq = s.freq) (params : t.params = s.params) :
    t.merged.nodes = s.merged.nodes := by
  have count : t.count = s.count := funext fun v => by rw [State.count, freq, State.count]
  have leaves : t.leafNodes = s.leafNodes := by
    unfold State.leafNodes State.leafValues State.counted State.leafWeight
    rw [count]
  have start : SameForest (buildLeaves s) (buildLeaves t) := by
    rw [buildLeaves_eq_leafNodes, buildLeaves_eq_leafNodes, leaves]
    exact ⟨rfl, rfl, params⟩
  rw [State.merged, State.merged, start.pq]
  exact (start.mergeLoop _).nodes

end Sys2Proof.Machine

/-! ## COMPRESS (46_pipelines.md R111, R113, R114) -/

namespace Sys2Proof.Machine

/-! ### The counts of a whole input, and the leaves of the tree made of them -/

/-- Counters that hold the units of a whole input hold how often each byte value stands in it (41_frequency.md R88). -/
theorem count_of_counters {s : State} {data : List Byte} (freq : s.freq = counters (unitsFrom data 0)) {v : Nat}
    (hv : v < 256) : s.count v = (data.map BitVec.toNat).count v := by
  rw [State.count, freq, unitsFrom_zero, get?_counters _ hv, Option.getD_some]

theorem count_map_toNat (data : List Byte) (b : Byte) : (data.map BitVec.toNat).count b.toNat = data.count b :=
  List.count_map_of_injective _ _ (fun _ _ => BitVec.eq_of_toNat_eq) _

/-- A sum over the bytes of a list is a sum over the byte values, each as often as it occurs. -/
theorem sum_range_count_mul (data : List Byte) (f : Nat → Nat) :
    ((List.range 256).map fun v => (data.map BitVec.toNat).count v * f v).sum = (data.map fun b => f b.toNat).sum := by
  have inside : (data.map BitVec.toNat).toFinset ⊆ Finset.range 256 := fun v hv => by
    obtain ⟨b, -, rfl⟩ := List.mem_map.mp (List.mem_toFinset.mp hv)
    exact Finset.mem_range.mpr b.isLt
  have each := Finset.sum_list_map_count (data.map BitVec.toNat) f
  rw [List.map_map, Finset.sum_subset inside fun v _ absent => by
    rw [List.count_eq_zero.mpr fun hv => absent (List.mem_toFinset.mpr hv), zero_smul]] at each
  exact each.symm

/-- A symbol with a leaf has a code (43_code_table.md R96). -/
theorem entry_valid_of_mem_leaves {t : Tree} {v : Nat} (leaf : v ∈ t.leaves) : (t.entry v).valid = true := by
  have found : (t.lastPath v).isSome = true := by
    induction t with
    | leaf w =>
      obtain rfl := List.mem_singleton.mp leaf
      simp [Tree.lastPath]
    | node l r ihl ihr =>
      rw [Tree.lastPath]
      cases right : r.lastPath v with
      | some path => rfl
      | none =>
        rcases List.mem_append.mp leaf with leaf | leaf
        · simpa using ihl leaf
        · simpa [right] using ihr leaf
  obtain ⟨path, found⟩ := Option.isSome_iff_exists.mp found
  rw [Tree.entry, found]

theorem mem_counted_of_count_pos {s : State} {v : Byte} (pos : 0 < s.count v.toNat) : v.toNat ∈ s.counted :=
  List.mem_filter.mpr ⟨List.mem_range.mpr v.isLt, decide_eq_true pos⟩

/-- At most one node for each symbol and one for each merge (42_tree_builder.md R94). -/
theorem size_le_of_leaves {s : State} {t : Tree} (leaves : t.leaves.Perm (s.counted ++ [256])) : t.size ≤ 513 := by
  have size := t.size_add_one
  have counted : s.counted.length ≤ 256 := (List.length_filter_le _ _).trans_eq List.length_range
  rw [leaves.length_eq, List.length_append, List.length_singleton] at size
  omega

/-! ### The stages before the payload -/

/-- The state in which COUNT completes, BITS_IN counted on from what it was (41_frequency.md R86). -/
def State.afterCount (s : State) : State :=
  { s with
    freq := counters (unitsFrom s.inData s.inPos)
    nbytes := (unitsFrom s.inData s.inPos).length
    inPos := 8 * s.inData.length
    bitsIn := s.bitsIn + BitVec.ofNat 32 (8 * (unitsFrom s.inData s.inPos).length)
    status := { s.status with freqValid := true, treeValid := false, codeValid := false, eos := true } }

/-- The state in which BUILD completes (42_tree_builder.md R89). -/
def State.afterBuild (s : State) : State :=
  { s with
    nodes := s.merged.nodes
    root := 2 * s.counted.length
    pq := []
    status := { s.status with treeValid := true, codeValid := false } }

theorem tree_afterBuild (s : State) : s.afterBuild.tree = some s.built := tree_of_merged rfl rfl

/-- The state in which COMPRESS comes to its encode pass: counted, built, derived, and the magic word and the header written
(46_pipelines.md R111). -/
def State.beforePayload (s : State) : State :=
  { s.afterCount.afterBuild with
    code := s.afterCount.built.codeTable
    out := s.out ++ (bitsOf 32 s.params.huffMagic.toNat ++ s.afterCount.built.header)
    bitsOut := s.bitsOut + BitVec.ofNat 32 (bitsOf 32 s.params.huffMagic.toNat ++ s.afterCount.built.header).length
    status := { s.status with freqValid := true, treeValid := true, codeValid := true, eos := true } }

theorem compressStages_of_fits {s : State} (fits : (unitsFrom s.inData s.inPos).length ≤ s.params.maxBytes) :
    compressStages s = encodeBody s.beforePayload := by
  have counted : countBody s = .ok () s.afterCount := countBody_of_fits fits
  have built : buildBody s.afterCount = .ok () s.afterCount.afterBuild := buildBody_eq _
  have tree := tree_afterBuild s.afterCount
  rw [compressStages, counted, Run.bind_ok, built, Run.bind_ok, deriveBody_of_tree tree, Run.bind_ok, wrMagicBody,
    Run.bind_ok, wrHeaderBody_of_tree (by exact tree), Run.bind_ok, emitMagic, outWrite_outWrite]
  rfl

/-- COMPRESS on a ready block with an open output runs its stages and closes the output (40_control.md R80, R81). -/
theorem execCompress_of_ready {s : State} (ready : s.Ready) (isOpen : s.status.outClosed = false) :
    exec .compress s = settle ((compressStages (s.reading .compress)).closing outClose) :=
  exec_of_reading (op := .compress) ready rfl ((preHolds_iff .compress _).mpr isOpen)

theorem codeEntry_beforePayload (s : State) {v : Nat} (hv : v < 257) :
    s.beforePayload.codeEntry v = s.afterCount.built.entry v := codeEntry_walk rfl hv

/-- The tree of the counts has a leaf for every byte of the input, and one for the sentinel. -/
theorem coded_beforePayload {s : State} (start : s.inPos = 0) :
    (∀ b ∈ s.inData, (s.beforePayload.codeEntry b.toNat).valid = true) ∧
      (s.beforePayload.codeEntry 256).valid = true := by
  have coded {v : Nat} (leaf : v ∈ s.afterCount.leafValues) (hv : v < 257) :
      (s.beforePayload.codeEntry v).valid = true := by
    rw [codeEntry_beforePayload s hv]
    exact entry_valid_of_mem_leaves ((built_leaves _).mem_iff.mpr leaf)
  refine ⟨fun b hb => coded (List.mem_append_left _ (mem_counted_of_count_pos ?_)) (by omega),
    coded (List.mem_append_right _ (List.mem_singleton.mpr rfl)) (by omega)⟩
  rw [count_of_counters (s := s.afterCount) (data := s.inData) (by rw [State.afterCount, start]) b.isLt, count_map_toNat]
  exact List.count_pos_iff.mpr hb

/-- COMPRESS up to its close, where every byte of the encode pass was met by the count pass (46_pipelines.md R111). -/
theorem compressStages_of_coded {s : State} (start : s.inPos = 0) (fits : s.inData.length ≤ s.params.maxBytes)
    (met : ∀ b ∈ s.secondPass, b ∈ s.inData) : compressStages s = .ok ()
      (s.beforePayload.encoding s.secondPass.length (s.beforePayload.payload s.secondPass)).atEnd := by
  obtain ⟨coded, sentinel⟩ := coded_beforePayload start
  rw [compressStages_of_fits (by simpa [start] using fits),
    encodeBody_of_coded (s := s.beforePayload) fun b hb => coded b (met b hb), emitCode, if_pos (by simpa using sentinel),
    outWrite_atEnd, outWrite_encoding]
  rfl

/-- BUILD after COUNT makes the arena that COMPRESS makes (46_pipelines.md R111). -/
theorem exec_count_then_build {s : State} (ready : s.Ready) (fits : (unitsFrom s.inData s.inPos).length ≤ s.params.maxBytes) :
    ∃ u w, exec .count s = .next u ∧ exec .build u = .next w ∧ (s.reading .compress).beforePayload.nodes = w.nodes ∧
      (s.reading .compress).beforePayload.root = w.root := by
  have counted : countBody (s.reading .count) = .ok () (s.reading .count).afterCount := countBody_of_fits fits
  have run : exec .count s = .next (complete (s.reading .count).afterCount) := by
    rw [execCount_of_ready ready]
    exact congrArg settle counted
  refine ⟨_, _, run, execBuild_of_ready ⟨rfl, ready.2⟩ rfl, ?_, rfl⟩
  exact merged_nodes_congr (s := accept .build (complete (s.reading .count).afterCount))
    (t := (s.reading .compress).afterCount) rfl rfl

/-! ### The state in which COMPRESS completes -/

/-- What a symbol's code is depends on the code table only. -/
theorem codeEntry_congr {s t : State} (code : t.code = s.code) : t.codeEntry = s.codeEntry :=
  funext fun v => by rw [State.codeEntry, code, State.codeEntry]

theorem payload_congr {s t : State} (code : t.code = s.code) : t.payload = s.payload :=
  funext fun bytes => by rw [State.payload, codeEntry_congr code, State.payload]

/-- The state in which COMPRESS has written the payload of what its encode pass reads, before it closes the output. -/
def State.afterPayload (s : State) : State :=
  (s.beforePayload.encoding s.secondPass.length (s.beforePayload.payload s.secondPass)).atEnd

/-- The tree that COMPRESS, offered in the state, makes. -/
def State.compressTree (s : State) : Tree := (s.reading .compress).afterCount.built

/-- The state in which COMPRESS, offered in the state, completes. -/
def State.compressed (s : State) : State := complete (outClose (s.reading .compress).afterPayload)

theorem tree_compressed (s : State) : s.compressed.tree = some s.compressTree := tree_of_merged rfl rfl

theorem code_compressed (s : State) : s.compressed.code = (s.reading .compress).beforePayload.code := rfl

theorem codeEntry_compressed (s : State) {v : Nat} (hv : v < 257) : s.compressed.codeEntry v = s.compressTree.entry v := by
  rw [codeEntry_congr (code_compressed s), codeEntry_beforePayload _ hv, State.compressTree]

theorem counted_compressed (s : State) : s.compressed.counted = (s.reading .compress).afterCount.counted := rfl

theorem leaves_compressTree (s : State) : s.compressTree.leaves.Perm (s.compressed.counted ++ [256]) := by
  rw [counted_compressed]
  exact built_leaves _

theorem values_compressTree (s : State) : ∀ v ∈ s.compressTree.leaves, v ≤ 256 := fun _ leaf =>
  leafValues_le ((leaves_compressTree s).mem_iff.mp leaf)

/-- What COMPRESS writes before the padding (30_encoding.md R68). -/
def State.compressStream (s : State) : Bits :=
  bitsOf 32 s.params.huffMagic.toNat ++ s.compressTree.header ++ s.compressed.payload s.secondPass

theorem out_compressed (s : State) : s.compressed.out = s.out ++ s.compressStream ++
    List.replicate (padLength (s.out ++ s.compressStream).length) false := by
  have written : (s.reading .compress).afterPayload.out = s.out ++
      (bitsOf 32 s.params.huffMagic.toNat ++ s.compressTree.header) ++
        (s.reading .compress).beforePayload.payload s.secondPass := rfl
  rw [List.append_assoc, ← payload_congr (code_compressed s)] at written
  exact congrArg (fun o => o ++ List.replicate (padLength o.length) false) written

theorem status_compressed {s : State} (idle : s.status.busy = false) : s.compressed.status = { s.status with
    freqValid := true, treeValid := true, codeValid := true, outClosed := true, eos := true, done := true } := by
  simp only [State.compressed, complete_status, outClose_status, idle]
  rfl

section Compress

variable {s : State} (start : s.inPos = 0)
include start

theorem count_compressed {v : Nat} (hv : v < 256) : s.compressed.count v = (s.inData.map BitVec.toNat).count v := by
  have units : unitsFrom s.inData s.inPos = unitsFrom s.inData 0 := by rw [start]
  exact count_of_counters (congrArg counters units) hv

theorem nbytes_compressed : s.compressed.nbytes = s.inData.length := by
  have number : (unitsFrom s.inData s.inPos).length = s.inData.length := by simp [start]
  exact number

theorem coded_compressed :
    (∀ b ∈ s.inData, (s.compressed.codeEntry b.toNat).valid = true) ∧ (s.compressed.codeEntry 256).valid = true := by
  rw [codeEntry_congr (code_compressed s)]
  exact coded_beforePayload (s := s.reading .compress) start

/-- BITS_IN counts 8 bits a byte of each pass (10_state.md R34). -/
theorem bitsIn_compressed : s.compressed.bitsIn = BitVec.ofNat 32 (8 * (s.inData.length + s.secondPass.length)) := by
  have number : (unitsFrom s.inData s.inPos).length = s.inData.length := nbytes_compressed start
  have passes : s.compressed.bitsIn = 0#32 + BitVec.ofNat 32 (8 * (unitsFrom s.inData s.inPos).length) +
      BitVec.ofNat 32 (8 * s.secondPass.length) := rfl
  rw [passes, BitVec.zero_add, ← BitVec.ofNat_add, ← Nat.mul_add, number]

theorem execCompress_of_coded (ready : s.Ready) (isOpen : s.status.outClosed = false)
    (fits : s.inData.length ≤ s.params.maxBytes) (met : ∀ b ∈ s.secondPass, b ∈ s.inData) :
    exec .compress s = .next s.compressed := by
  have stages : compressStages (s.reading .compress) = .ok () (s.reading .compress).afterPayload :=
    compressStages_of_coded start fits met
  rw [execCompress_of_ready ready isOpen, stages]
  rfl

end Compress

/-- Settles O39: the stages one after another, and the close. -/
theorem compressWritesTheStream : Obligations.CompressWritesTheStream := by
  intro s ready isOpen start fits met
  obtain ⟨coded, sentinel⟩ := coded_compressed start
  have out := out_compressed s
  rw [State.compressStream, ← List.append_assoc, ← List.append_assoc] at out
  exact ⟨s.compressed, s.compressTree, _, execCompress_of_coded start ready isOpen fits met, tree_compressed s,
    padLength_lt _, out, outClose_aligned _, fun v => (count_compressed start v.isLt).trans (count_map_toNat _ v),
    fun v hv => codeEntry_compressed s hv, coded, sentinel, nbytes_compressed start, leaves_compressTree s,
    exec_count_then_build ready (by simpa [start] using fits), rfl, rfl, bitsIn_compressed start, rfl, rfl,
    status_compressed ready.1⟩

/-! ### The length of the output (46_pipelines.md R114) -/
theorem payload_length (s : State) (bytes : List Byte) : (s.payload bytes).length =
    (bytes.map fun b => (s.codeEntry b.toNat).len).sum + (s.codeEntry 256).len := by
  rw [State.payload, List.length_append, List.length_flatMap]
  rfl

/-- The padding fills the last byte (46_pipelines.md R114). -/
theorem padLength_eq (n : Nat) : padLength n = 8 * ((n + 7) / 8) - n := by
  unfold padLength
  omega

/-- Settles O41: a header takes one bit less than 11 a leaf, and the payload's codes are as many as the counts say. -/
theorem compressOutputLength : Obligations.CompressOutputLength := by
  intro s t tree T ready isOpen start empty unchanged fits run found length
  obtain rfl : s.compressed = t := Host.Outcome.next.inj
    ((execCompress_of_coded start ready isOpen fits fun b hb => unchanged ▸ hb).symm.trans run)
  obtain rfl : s.compressTree = tree := Option.some.inj ((tree_compressed s).symm.trans found)
  have counts : (List.range 256).map (fun v => s.compressed.count v * (s.compressed.codeEntry v).len) =
      (List.range 256).map fun v => (s.inData.map BitVec.toNat).count v * (s.compressed.codeEntry v).len :=
    List.map_congr_left fun v hv => by rw [count_compressed start (List.mem_range.mp hv)]
  have stream : s.compressStream.length = T := by
    have header := s.compressTree.header_length_add_one
    rw [State.compressStream, List.length_append, List.length_append, bitsOf_length, payload_length, unchanged,
      length, counts, sum_range_count_mul s.inData fun v => (s.compressed.codeEntry v).len]
    omega
  have out : s.compressed.out = s.compressStream ++ List.replicate (8 * ((T + 7) / 8) - T) false := by
    rw [out_compressed, empty, List.nil_append, stream, padLength_eq]
  refine ⟨?_, _, stream, out⟩
  rw [outBytes_length, out, List.length_append, List.length_replicate, stream]
  omega

/-! ### An input longer than MAX_BYTES, and every exit (46_pipelines.md R111, R113) -/

/-- Settles O42: COUNT raises, and only the close runs after it. -/
theorem compressFaultsOnOverflow : Obligations.CompressFaultsOnOverflow := by
  intro s ready isOpen start beyond
  have idle : s.status.busy = false := ready.1
  have raised := countBody_of_beyond (s := s.reading .compress) (by simpa [State.reading, start] using beyond)
  have run := execCompress_of_ready ready isOpen
  rw [compressStages, raised, Run.bind_raised] at run
  refine ⟨_, padLength s.out.length, run, padLength_lt _, rfl, outClose_aligned _, rfl, ?_⟩
  simp only [recordFault_status, outClose_status, idle]
  rfl

/-- However a run that closes the output ends, the output is closed and whole bytes. -/
theorem closing_outClose_ends {α : Type} (r : Run α) :
    (r.closing outClose).Ends fun t => t.status.outClosed = true ∧ t.out.length % 8 = 0 := by
  cases r with
  | ok a s => exact ⟨rfl, outClose_aligned s⟩
  | raised c w s => exact ⟨rfl, outClose_aligned s⟩
  | stuck f => trivial

theorem opBody_pipeline_ends {op : Op} (pipeline : op = .compress ∨ op = .decompress) (s : State) :
    (opBody op s).Ends fun t => t.status.outClosed = true ∧ t.out.length % 8 = 0 := by
  rcases pipeline with rfl | rfl
  · exact closing_outClose_ends _
  · exact closing_outClose_ends _

/-- Settles O45: every exit path ends with the close, and every raise records an error. -/
theorem pipelinesCloseTheOutput : Obligations.PipelinesCloseTheOutput := by
  intro op s t pipeline ready isOpen run
  have notClear : op ≠ .clear := by rcases pipeline with rfl | rfl <;> nofun
  have reads : readsInput op = true := by rcases pipeline with rfl | rfl <;> rfl
  have pre : preHolds op s.status = true := by rcases pipeline with rfl | rfl <;> simp [preHolds, isOpen]
  obtain ⟨bits, appended, -⟩ := (exec_op_effect run notClear).frame.appends
  rw [exec_of_reading ready reads pre] at run
  have closed := opBody_pipeline_ends pipeline (s.reading op)
  have raises := body_confined notClear (s.reading op)
  rcases settle_eq_next.mp run with ⟨u, ends, rfl⟩ | ⟨c, w, u, ends, rfl⟩ <;> rw [ends] at closed raises
  · exact ⟨closed.1, closed.2, ⟨bits, appended.symm⟩, .inl rfl⟩
  · exact ⟨closed.1, closed.2, ⟨bits, appended.symm⟩, .inr raises.1.1⟩

end Sys2Proof.Machine

/-! ## DECOMPRESS (46_pipelines.md R112, R113) -/

namespace Sys2Proof.Machine

/-! ### The stages -/

/-- DECOMPRESS on a ready block with an open output runs its stages and closes the output (40_control.md R80, R81). -/
theorem execDecompress_of_ready {s : State} (ready : s.Ready) (isOpen : s.status.outClosed = false) :
    exec .decompress s = settle ((decompressStages (s.reading .decompress)).closing outClose) :=
  exec_of_reading (op := .decompress) ready rfl ((preHolds_iff .decompress _).mpr isOpen)

/-- The state in which an accepted DECOMPRESS has read the magic word and the bits of a header, and allocated the entries for
them. -/
def State.inHeader (bits : Bits) (allocated : List Node) (s : State) : State :=
  { s with
    nodes := allocated
    inPos := s.inPos + (32 + bits.length)
    bitsIn := BitVec.ofNat 32 (32 + bits.length)
    cmd := 0x0000000D#32
    status := { s.status with treeValid := false, codeValid := false, eos := false, done := false, busy := true } }

/-- The state in which DECOMPRESS comes to its payload. -/
def State.afterHeader (tree : Tree) (s : State) : State :=
  { s.inHeader tree.header (tree.arena 0) with
    root := 0
    status := { s.status with treeValid := true, codeValid := false, eos := false, done := false, busy := true } }

@[simp] theorem inHeader_nodes (bits : Bits) (allocated : List Node) (s : State) :
    (s.inHeader bits allocated).nodes = allocated := rfl

@[simp] theorem consumed_inHeader (a b : Bits) (x y : List Node) (s : State) :
    (s.inHeader a x).consumed b y = s.inHeader (a ++ b) (x ++ y) := by
  simp [State.inHeader, State.consumed, Nat.add_assoc, BitVec.ofNat_add, BitVec.add_assoc]

theorem tree_afterHeader {tree : Tree} (values : ∀ v ∈ tree.leaves, v ≤ 256) (s : State) :
    (s.afterHeader tree).tree = some tree := tree_of_arena values rfl rfl

section Stages

variable {s : State} {rest : Bits}

theorem inBits_inHeader {bits : Bits} (h : s.inBits = bitsOf 32 s.params.huffMagic.toNat ++ bits ++ rest)
    (allocated : List Node) : (s.inHeader bits allocated).inBits = rest := by
  refine inBits_after h _ rfl ?_
  rw [List.length_append, bitsOf_length]
  rfl

theorem inBits_afterHeader {tree : Tree} (h : s.inBits = bitsOf 32 s.params.huffMagic.toNat ++ tree.header ++ rest) :
    (s.afterHeader tree).inBits = rest := inBits_inHeader h (tree.arena 0)

/-- After the magic word Des() starts from an empty arena. -/
theorem decompressStages_of_magic (h : s.inBits = bitsOf 32 s.params.huffMagic.toNat ++ rest) :
    decompressStages (s.reading .decompress) = ((des 514 (s.inHeader [] [])).bind fun r t =>
      .ok () { t with root := r, status := { t.status with treeValid := true } }).bind fun _ t => decodeBody t := by
  have start :
      rdHeaderStart ((s.reading .decompress).consumed (bitsOf 32 s.params.huffMagic.toNat) []) = s.inHeader [] [] := by
    simp only [rdHeaderStart, State.consumed, State.reading, State.inHeader, bitsOf_length, BitVec.zero_add]
    rfl
  rw [decompressStages, rdMagicBody_of_magic (s := s.reading .decompress) h, Run.bind_ok, rdHeaderBody_eq]
  exact congrArg (fun t => ((des 514 t).bind _).bind _) start

theorem decompressStages_of_tree {tree : Tree} (values : ∀ v ∈ tree.leaves, v ≤ 256) (fits : tree.size ≤ 513)
    (h : s.inBits = bitsOf 32 s.params.huffMagic.toNat ++ tree.header ++ rest) :
    decompressStages (s.reading .decompress) = decodeBody (s.afterHeader tree) := by
  rw [List.append_assoc] at h
  have start : (s.inHeader [] []).inBits = tree.header ++ rest := inBits_inHeader (by rw [List.append_nil, h]) []
  have read : des 514 (s.inHeader [] []) = .ok 0 (s.inHeader tree.header (tree.arena 0)) := by
    simpa using des_of_tree values start (by simpa using fits) (bound := 514) (by omega)
  rw [decompressStages_of_magic h, read]
  rfl

/-- A fault of Des() after any readable beginning of a header is DECOMPRESS's. -/
theorem decompressStages_of_cut {cut : HeaderCut} (readable : cut.Readable)
    (h : s.inBits = bitsOf 32 s.params.huffMagic.toNat ++ cut.bits ++ rest) {e : ErrCode} {info : Word} {u : State}
    (fails : ∀ k, des (k + 1) (s.inHeader cut.bits (cut.arena 0)) = .raised e info u) :
    decompressStages (s.reading .decompress) = .raised e info u := by
  obtain ⟨values, fits⟩ := readable
  rw [List.append_assoc] at h
  have start : (s.inHeader [] []).inBits = cut.bits ++ rest := inBits_inHeader (by rw [List.append_nil, h]) []
  have failed := des_of_cut values start (by simpa using fits) (by simpa using fails) (Nat.lt_succ_of_le fits)
  rw [decompressStages_of_magic h, failed]
  rfl

end Stages

/-! ### A whole stream -/

/-- Settles O43: the header's tree is walked from the first bit after it, and the output is closed. -/
theorem decompressReadsTheStream : Obligations.DecompressReadsTheStream := by
  intro s tree spelled last rest ready isOpen values fits leads ends bits
  have idle : s.status.busy = false := ready.1
  have stream : s.inBits =
      bitsOf 32 s.params.huffMagic.toNat ++ tree.header ++ (spelled.flatMap Prod.snd ++ last ++ rest) := by
    simpa using bits
  obtain ⟨cur, -, -, -, -, decoded⟩ := decodeBody_of_sentinel_path (holds_of_tree (tree_afterHeader values s)) leads ends
    (inBits_afterHeader stream)
  have run := execDecompress_of_ready ready isOpen
  rw [decompressStages_of_tree values fits stream, decoded] at run
  have written : (s.out ++ emitted spelled).length = s.out.length + 8 * spelled.length := by
    rw [List.length_append, emitted_length]
  have aligned := add_padLength (s.out ++ emitted spelled).length
  have length := congrArg List.length stream
  rw [List.length_append (bs := _ ++ rest), List.length_append (bs := tree.header), List.length_append (bs := rest),
    bitsOf_length] at length
  have left := inBits_length s
  have inPos : s.inPos + (32 + tree.header.length) + (spelled.flatMap Prod.snd ++ last).length =
      8 * s.inData.length - rest.length := by omega
  have bitsIn : s.inBits.length - rest.length = 32 + tree.header.length + (spelled.flatMap Prod.snd ++ last).length := by
    omega
  refine ⟨cur, padLength (s.out ++ emitted spelled).length, padLength_lt _, by omega,
    run.trans (congrArg Host.Outcome.next ?_)⟩
  rw [bitsIn, BitVec.ofNat_add (32 + _), ← inPos, BitVec.ofNat_add (8 * _), ← BitVec.add_assoc, ← emitted_length]
  simp only [complete, outClose, outWrite, List.length_replicate, State.decoding, State.afterHeader, State.inHeader, idle]
  rfl

/-! ### Faults -/

/-- A fault of a stage is DECOMPRESS's, with the output closed after what was written (46_pipelines.md R112). -/
theorem rejects_of_raised {s u : State} (ready : s.Ready) (isOpen : s.status.outClosed = false) {c : ErrCode} {info : Word}
    {written : Bits} (raised : decompressStages (s.reading .decompress) = .raised c info u)
    (out : u.out = s.out ++ written) (bitsOut : u.bitsOut = s.bitsOut + BitVec.ofNat 32 written.length) :
    s.Rejects c info written := by
  have body : decompressBody (s.reading .decompress) = .raised c info (outClose u) := by
    rw [decompressBody, raised]
    rfl
  have kept := decompressBody_confined (s.reading .decompress)
  rw [body] at kept
  obtain ⟨cmd, done⟩ := kept.2.same .latched (by simp [opParts])
  refine ⟨recordFault c info (outClose u), padLength u.out.length, ?_, padLength_lt _, ?_, outClose_aligned _, ?_, rfl,
    cmd, rfl, done, rfl, rfl⟩
  · rw [execDecompress_of_ready ready isOpen, raised]
    rfl
  · rw [recordFault_out, outClose_out, out]
  · rw [recordFault_bitsOut, outClose_bitsOut, bitsOut, List.length_replicate, BitVec.add_assoc, ← BitVec.ofNat_add]

/-- A fault before the payload has written nothing. -/
theorem rejects_of_raised_unwritten {s u : State} (ready : s.Ready) (isOpen : s.status.outClosed = false) {c : ErrCode}
    {info : Word} (raised : decompressStages (s.reading .decompress) = .raised c info u) (out : u.out = s.out)
    (bitsOut : u.bitsOut = s.bitsOut) : s.Rejects c info [] :=
  rejects_of_raised ready isOpen raised (by rw [out, List.append_nil]) (by simp [bitsOut])

section Rejects

variable {s : State} (ready : s.Ready) (isOpen : s.status.outClosed = false)
include ready isOpen

theorem rejects_short (short : s.inBits.length < 32) : s.Rejects .format 0#32 [] := by
  refine rejects_of_raised_unwritten (u := (s.reading .decompress).atEnd) ready isOpen ?_ rfl rfl
  rw [decompressStages, rdMagicBody_of_short (s := s.reading .decompress) short]
  rfl

theorem rejects_other_word {w : Word} {rest : Bits} (other : w ≠ s.params.huffMagic)
    (bits : s.inBits = bitsOf 32 w.toNat ++ rest) : s.Rejects .format w [] := by
  refine rejects_of_raised_unwritten (u := (s.reading .decompress).consumed (bitsOf 32 w.toNat) []) ready isOpen ?_ rfl rfl
  rw [decompressStages, rdMagicBody_of_other (s := s.reading .decompress) other bits]
  rfl

theorem rejects_cut_header {cut : HeaderCut} {part : Bits} (readable : cut.Readable) (token : CutToken part)
    (bits : s.inBits = bitsOf 32 s.params.huffMagic.toNat ++ cut.bits ++ part) :
    s.Rejects .truncHeader (BitVec.ofNat 32 (32 + cut.bits.length + (if part = [] then 0 else 1))) [] := by
  have delivered : (cut.bits ++ part.take 1).length = cut.bits.length + (if part = [] then 0 else 1) := by
    cases part <;> simp
  have raised := decompressStages_of_cut readable bits fun _ => des_cut_token token (inBits_inHeader bits _)
  rw [consumed_inHeader] at raised
  rw [Nat.add_assoc, ← delivered]
  exact rejects_of_raised_unwritten ready isOpen raised rfl rfl

theorem rejects_bad_leaf {cut : HeaderCut} {v : Nat} {rest : Bits} (readable : cut.Readable) (bad : 256 < v)
    (small : v < 512) (bits : s.inBits = bitsOf 32 s.params.huffMagic.toNat ++ cut.bits ++ true :: (bitsOf 9 v ++ rest)) :
    s.Rejects .badLeafValue (BitVec.ofNat 32 v) [] :=
  rejects_of_raised_unwritten ready isOpen
    (decompressStages_of_cut readable bits fun _ => des_bad_leaf bad small (inBits_inHeader bits _)) rfl rfl

theorem rejects_full_arena {cut : HeaderCut} {token rest : Bits} (readable : cut.Readable) (full : cut.size = 513)
    (node : token = [false] ∨ ∃ v, v ≤ 256 ∧ token = true :: bitsOf 9 v)
    (bits : s.inBits = bitsOf 32 s.params.huffMagic.toNat ++ cut.bits ++ token ++ rest) :
    s.Rejects .nodeOverflow (BitVec.ofNat 32 (32 + (cut.bits ++ token).length)) [] := by
  rw [List.append_assoc] at bits
  have raised := decompressStages_of_cut readable bits fun _ =>
    des_of_full (by simpa using full) node (inBits_inHeader bits _)
  rw [consumed_inHeader] at raised
  exact rejects_of_raised_unwritten ready isOpen raised rfl rfl

theorem rejects_byte_root {v : Nat} {rest : Bits} (byte : v < 256)
    (bits : s.inBits = bitsOf 32 s.params.huffMagic.toNat ++ (Tree.leaf v).header ++ rest) :
    s.Rejects .walkOffLeaf (BitVec.ofNat 32 v) [] := by
  have values : ∀ w ∈ (Tree.leaf v).leaves, w ≤ 256 := by simpa [Tree.leaves] using byte.le
  have raised := decompressStages_of_tree values (by decide : 1 ≤ 513) bits
  rw [decodeBody_of_byte (holds_of_tree (tree_afterHeader values s)) byte.ne] at raised
  exact rejects_of_raised ready isOpen raised rfl rfl

theorem rejects_cut_payload {tree left right : Tree} {spelled : List (Byte × Bits)} {last : Bits}
    (values : ∀ v ∈ tree.leaves, v ≤ 256) (fits : tree.size ≤ 513)
    (leads : ∀ e ∈ spelled, tree.follow e.2 = some (.leaf e.1.toNat)) (ends : tree.follow last = some (.node left right))
    (bits : s.inBits = bitsOf 32 s.params.huffMagic.toNat ++ tree.header ++ spelled.flatMap Prod.snd ++ last) :
    s.Rejects .truncPayload (BitVec.ofNat 32 s.inBits.length) (emitted spelled) := by
  rw [List.append_assoc] at bits
  have payload := inBits_afterHeader bits
  have raised := decompressStages_of_tree values fits bits
  obtain ⟨cur, decoded⟩ := decodeBody_of_cut_path (holds_of_tree (tree_afterHeader values s)) leads ends payload
  have delivered : (s.afterHeader tree).bitsIn + BitVec.ofNat 32 (s.afterHeader tree).inBits.length =
      BitVec.ofNat 32 s.inBits.length := by
    rw [payload, bits, List.length_append (bs := _ ++ last), List.length_append (bs := tree.header), bitsOf_length,
      BitVec.ofNat_add (32 + tree.header.length)]
    rfl
  rw [decoded, delivered] at raised
  exact rejects_of_raised ready isOpen raised rfl rfl

end Rejects

end Sys2Proof.Machine

/-! ## DECOMPRESS of a COMPRESS output, whole or cut (46_pipelines.md R115, R116) -/

namespace Sys2Proof.Machine

/-! ### Beginnings of a header, of a path, and of a payload -/

/-- A beginning of two strings that is no shorter than the first is the first and a beginning of the second. -/
theorem exists_append_of_prefix {p a b : Bits} (begins : p <+: a ++ b) (long : a.length ≤ p.length) :
    ∃ q, p = a ++ q ∧ q <+: b := by
  obtain ⟨q, rfl⟩ := List.prefix_of_prefix_length_le (List.prefix_append a b) begins long
  exact ⟨q, rfl, (List.prefix_append_right_inj a).mp begins⟩

theorem prefix_left_of_lt {p a b : Bits} (begins : p <+: a ++ b) (short : p.length < a.length) : p <+: a :=
  List.prefix_of_prefix_length_le begins (List.prefix_append a b) short.le

/-- Every proper beginning of a header is cut before a token or inside a leaf's token (44_header_codec.md R103). -/
theorem Tree.exists_headerCut {t : Tree} {p : Bits} (begins : p <+: t.header) (short : p.length < t.header.length) :
    ∃ (cut : HeaderCut) (part : Bits), p = cut.bits ++ part ∧ CutToken part ∧ cut.size < t.size ∧
      ∀ v ∈ cut.leaves, v ∈ t.leaves := by
  induction t generalizing p with
  | leaf v =>
    refine ⟨.here, p, rfl, ?_, Nat.one_pos, nofun⟩
    cases p with
    | nil => exact .inl rfl
    | cons b p =>
      obtain ⟨rfl, -⟩ := List.cons_prefix_cons.mp begins
      exact .inr ⟨rfl, by simpa [Tree.header, Nat.add_comm] using short⟩
  | node l r ihl ihr =>
    cases p with
    | nil => exact ⟨.here, [], rfl, .inl rfl, by rw [HeaderCut.size, Tree.size]; omega, nofun⟩
    | cons b p =>
      obtain ⟨rfl, afterTag⟩ := List.cons_prefix_cons.mp begins
      rcases Nat.lt_or_ge p.length l.header.length with inside | long
      · obtain ⟨cut, part, rfl, token, size, leaves⟩ := ihl (prefix_left_of_lt afterTag inside) inside
        exact ⟨.inLeft cut, part, rfl, token, by rw [HeaderCut.size, Tree.size]; omega,
          fun v hv => List.mem_append_left _ (leaves v hv)⟩
      · obtain ⟨q, rfl, inRight⟩ := exists_append_of_prefix afterTag long
        simp only [Tree.header, List.length_cons, List.length_append] at short
        obtain ⟨cut, part, rfl, token, size, leaves⟩ := ihr inRight (by omega)
        refine ⟨.inRight l cut, part, by simp [HeaderCut.bits], token, by rw [HeaderCut.size, Tree.size]; omega,
          fun v hv => ?_⟩
        rcases List.mem_append.mp hv with hv | hv
        · exact List.mem_append_left _ hv
        · exact List.mem_append_right _ (leaves v hv)

/-- A path that goes on to a leaf is at an internal node. -/
theorem Tree.follow_node_of_prefix {t : Tree} {p q : Bits} {v : Nat} (ends : t.follow q = some (.leaf v)) (begins : p <+: q)
    (short : p.length < q.length) : ∃ l r, t.follow p = some (.node l r) := by
  obtain ⟨rest, rfl⟩ := begins
  rw [Tree.follow_append] at ends
  obtain ⟨u, reached, ends⟩ := Option.bind_eq_some_iff.mp ends
  cases u with
  | leaf w =>
    obtain ⟨rfl, -⟩ := Tree.follow_leaf ends
    simp at short
  | node l r => exact ⟨l, r, reached⟩

/-- The bytes, each with its code (30_encoding.md R75). -/
def State.spelled (s : State) (bytes : List Byte) : List (Byte × Bits) :=
  bytes.map fun b => (b, (s.codeEntry b.toNat).bits)

theorem spelled_bits (s : State) (bytes : List Byte) : (s.spelled bytes).flatMap Prod.snd = s.codes bytes := by
  rw [State.spelled, List.flatMap_map, State.codes]

theorem emitted_spelled (s : State) (bytes : List Byte) : emitted (s.spelled bytes) = byteBits bytes := by
  rw [emitted, State.spelled, List.map_map, List.flatMap_map, byteBits]
  rfl

/-- The tree spells the bytes, and the sentinel, by the codes of the block's table. -/
structure Spells (s : State) (tree : Tree) (bytes : List Byte) : Prop where
  bytes : ∀ b ∈ bytes, tree.follow (s.codeEntry b.toNat).bits = some (.leaf b.toNat)
  sentinel : tree.follow (s.codeEntry 256).bits = some (.leaf 256)

namespace Spells

variable {s : State} {tree : Tree} {data : List Byte} (h : Spells s tree data)
include h

theorem leads {bytes : List Byte} (among : ∀ b ∈ bytes, b ∈ data) :
    ∀ e ∈ s.spelled bytes, tree.follow e.2 = some (.leaf e.1.toNat) := by
  intro e he
  obtain ⟨b, hb, rfl⟩ := List.mem_map.mp he
  exact h.bytes b (among b hb)

/-- Every proper beginning of a payload is the codes of some first bytes and a path to an internal node. -/
theorem exists_cut {q : Bits} (begins : q <+: s.payload data) (short : q.length < (s.payload data).length) :
    ∃ (k : Nat) (last : Bits) (l r : Tree), q = s.codes (data.take k) ++ last ∧ tree.follow last = some (.node l r) := by
  induction data generalizing q with
  | nil =>
    obtain ⟨l, r, node⟩ := Tree.follow_node_of_prefix h.sentinel begins short
    exact ⟨0, q, l, r, rfl, node⟩
  | cons b data ih =>
    have payload : s.payload (b :: data) = (s.codeEntry b.toNat).bits ++ s.payload data := by
      simp [State.payload]
    rw [payload] at begins short
    rcases Nat.lt_or_ge q.length (s.codeEntry b.toNat).bits.length with inside | long
    · obtain ⟨l, r, node⟩ := Tree.follow_node_of_prefix (h.bytes b (by simp)) (prefix_left_of_lt begins inside) inside
      exact ⟨0, q, l, r, rfl, node⟩
    · obtain ⟨q, rfl, after⟩ := exists_append_of_prefix begins long
      obtain ⟨k, last, l, r, rfl, node⟩ :=
        ih ⟨fun c hc => h.bytes c (List.mem_cons_of_mem b hc), h.sentinel⟩ after (by simpa using short)
      exact ⟨k + 1, last, l, r, by simp [State.codes], node⟩

end Spells

/-! ### What COMPRESS has written -/

/-- On an empty output, from an input that does not change, COMPRESS leaves one stream (30_encoding.md R68). -/
theorem out_compressed_of_empty {s : State} (empty : s.out = []) (unchanged : s.secondPass = s.inData) :
    ∃ padding, s.compressed.out = bitsOf 32 s.params.huffMagic.toNat ++
      (s.compressTree.header ++ (s.compressed.payload s.inData ++ padding)) := by
  rw [out_compressed, empty, List.nil_append, State.compressStream, unchanged, List.append_assoc, List.append_assoc]
  exact ⟨_, rfl⟩

/-- Every byte of the input has a leaf, and its code is the path there. -/
theorem spells_compressed {s : State} (start : s.inPos = 0) : Spells s.compressed s.compressTree s.inData := by
  obtain ⟨coded, sentinel⟩ := coded_compressed start
  have follows {v : Nat} (hv : v < 257) (valid : (s.compressed.codeEntry v).valid = true) :
      s.compressTree.follow (s.compressed.codeEntry v).bits = some (.leaf v) := by
    rw [codeEntry_compressed s hv] at valid ⊢
    exact follow_entry_of_valid valid
  exact ⟨fun b hb => follows (by omega) (coded b hb), follows (by omega) sentinel⟩

section CutStream

variable {s u : State} (ready : u.Ready) (isOpen : u.status.outClosed = false) (empty : s.out = [])
  (unchanged : s.secondPass = s.inData) (magic : s.params.huffMagic = u.params.huffMagic)
  (begins : u.inBits <+: s.compressed.out)
include ready isOpen empty unchanged magic begins

/-- A COMPRESS output that is cut in its header (46_pipelines.md R116 b). -/
theorem rejects_stream_cut_in_header (long : 32 ≤ u.inBits.length)
    (short : u.inBits.length < 32 + s.compressTree.header.length) : ∃ info, u.Rejects .truncHeader info [] := by
  obtain ⟨padding, out⟩ := out_compressed_of_empty empty unchanged
  rw [out, magic] at begins
  obtain ⟨p, bits, afterMagic⟩ := exists_append_of_prefix begins (by simpa using long)
  have inside : p.length < s.compressTree.header.length := by
    rw [bits, List.length_append, bitsOf_length] at short
    omega
  obtain ⟨cut, part, rfl, token, size, leaves⟩ := Tree.exists_headerCut (prefix_left_of_lt afterMagic inside) inside
  have readable : cut.Readable := ⟨fun v hv => values_compressTree s v (leaves v hv),
    size.le.trans (size_le_of_leaves (leaves_compressTree s))⟩
  exact ⟨_, rejects_cut_header ready isOpen readable token (by rw [bits, List.append_assoc])⟩

/-- A COMPRESS output that is cut before the last bit of its payload (46_pipelines.md R116 b). -/
theorem rejects_stream_cut_in_payload (start : s.inPos = 0) (long : 32 + s.compressTree.header.length ≤ u.inBits.length)
    (short : u.inBits.length < 32 + s.compressTree.header.length + (s.compressed.payload s.inData).length) :
    ∃ k, u.Rejects .truncPayload (BitVec.ofNat 32 u.inBits.length) (byteBits (s.inData.take k)) := by
  have spells := spells_compressed start
  obtain ⟨padding, out⟩ := out_compressed_of_empty empty unchanged
  rw [out, magic, ← List.append_assoc] at begins
  obtain ⟨q, bits, afterHeader⟩ := exists_append_of_prefix begins (by simpa using long)
  have inside : q.length < (s.compressed.payload s.inData).length := by
    rw [bits, List.length_append, List.length_append, bitsOf_length] at short
    omega
  obtain ⟨k, last, l, r, rfl, node⟩ := spells.exists_cut (prefix_left_of_lt afterHeader inside) inside
  rw [← List.append_assoc, ← spelled_bits] at bits
  have leads := spells.leads fun b (hb : b ∈ s.inData.take k) => List.mem_of_mem_take hb
  have rejected := rejects_cut_payload ready isOpen (values_compressTree s) (size_le_of_leaves (leaves_compressTree s))
    leads node bits
  rw [emitted_spelled] at rejected
  exact ⟨k, rejected⟩

end CutStream

/-- Settles O44: each clause is the fault of a stage, and a cut COMPRESS output is cut in a header or in a payload. -/
theorem decompressRejectsMalformedInput : Obligations.DecompressRejectsMalformedInput := by
  intro s ready isOpen
  refine ⟨rejects_short ready isOpen, fun w rest => rejects_other_word ready isOpen,
    fun cut part => rejects_cut_header ready isOpen, fun cut v rest => rejects_bad_leaf ready isOpen,
    fun cut token rest => rejects_full_arena ready isOpen, fun v rest => rejects_byte_root ready isOpen,
    fun tree left right spelled last => rejects_cut_payload ready isOpen,
    fun c t tree cReady cOpen start empty unchanged fits magic run found cut => ?_⟩
  obtain rfl : c.compressed = t := Host.Outcome.next.inj
    ((execCompress_of_coded start cReady cOpen fits fun b hb => unchanged ▸ hb).symm.trans run)
  obtain rfl : c.compressTree = tree := Option.some.inj ((tree_compressed c).symm.trans found)
  exact ⟨rejects_stream_cut_in_header ready isOpen empty unchanged magic cut,
    rejects_stream_cut_in_payload ready isOpen empty unchanged magic cut start⟩

/-- Settles O46: what COMPRESS wrote is a stream whose payload spells the input. -/
theorem decompressInvertsCompress : Obligations.DecompressInvertsCompress := by
  intro s u ready isOpen start empty unchanged fits
  refine ⟨s.compressed, execCompress_of_coded start ready isOpen fits fun b hb => unchanged ▸ hb, ready.2, rfl,
    fun uReady uOpen uStart uEmpty magic data => ?_⟩
  have spells := spells_compressed start
  have bits : u.inBits = s.compressed.out := inBits_of_outBytes uStart data (outClose_aligned _)
  obtain ⟨padding, out⟩ := out_compressed_of_empty empty unchanged
  have stream : u.inBits = bitsOf 32 u.params.huffMagic.toNat ++ s.compressTree.header ++
      (s.compressed.spelled s.inData).flatMap Prod.snd ++ (s.compressed.codeEntry 256).bits ++ padding := by
    rw [bits, out, magic, spelled_bits, ← List.append_assoc, ← List.append_assoc,
      List.append_assoc _ (s.compressed.codes _)]
    rfl
  obtain ⟨cur, pad, small, aligned, run⟩ := decompressReadsTheStream u _ _ _ _ uReady uOpen (values_compressTree s)
    (size_le_of_leaves (leaves_compressTree s)) (spells.leads fun _ => id) spells.sentinel stream
  obtain rfl : pad = 0 := by
    rw [uEmpty, List.length_nil] at aligned
    omega
  refine ⟨_, run, uReady.2, rfl, ?_⟩
  have written : emitted (s.compressed.spelled s.inData) = byteBits s.inData := emitted_spelled ..
  rw [emitted] at written
  rw [uEmpty, written, List.nil_append, List.replicate_zero, List.append_nil, outBytes_byteBits]

end Sys2Proof.Machine

/-! ## A recorded error (60_exceptions.md R126) -/

namespace Sys2Proof.Machine

/-- Settles O12: a word is dropped, while busy or under the error, or it is that of CLOSE_OUT on an open output, which
completes without a new fault. -/
theorem recordedErrorIsSticky : Obligations.RecordedErrorIsSticky := by
  intro op s t err notClear run
  by_cases busy : s.status.busy = true
  · rw [exec_of_busy busy] at run
    cases run
    exact ⟨rfl, rfl⟩
  · have idle : s.status.busy = false := Bool.eq_false_of_not_eq_true busy
    by_cases dropped : op = .closeOut → s.status.outClosed = true
    · rw [exec_of_error idle err (acceptsUnderError_eq_false_iff.mpr ⟨notClear, dropped⟩)] at run
      cases run
      exact ⟨rfl, rfl⟩
    · obtain ⟨rfl, isOpen⟩ := Classical.not_imp.mp dropped
      obtain ⟨pad, -, -, closes⟩ := closeOutPadsAndCloses s idle (Bool.eq_false_of_not_eq_true isOpen)
      obtain rfl := Host.Outcome.next.inj (closes.symm.trans run)
      exact ⟨rfl, rfl⟩

end Sys2Proof.Machine

/-! ## COMPRESS of an input that changes between its passes (70_reset_and_hazards.md R141) -/

namespace Sys2Proof.Machine

theorem mem_leaves_of_follow {t : Tree} {path : Bits} {v : Nat} (leads : t.follow path = some (.leaf v)) : v ∈ t.leaves := by
  induction t generalizing path with
  | leaf w =>
    cases path with
    | nil =>
      cases leads
      exact List.mem_singleton.mpr rfl
    | cons b path => cases leads
  | node l r ihl ihr =>
    cases path with
    | nil => cases leads
    | cons b path =>
      cases b with
      | false => exact List.mem_append_left _ (ihl leads)
      | true => exact List.mem_append_right _ (ihr leads)

/-- A symbol has a code exactly where the tree has a leaf of it (43_code_table.md R96). -/
theorem entry_valid_iff {t : Tree} {v : Nat} : (t.entry v).valid = true ↔ v ∈ t.leaves :=
  ⟨fun valid => mem_leaves_of_follow (follow_entry_of_valid valid), entry_valid_of_mem_leaves⟩

/-- A byte that the count pass did not meet has no code in the encode pass. -/
theorem uncoded_beforePayload {s : State} (start : s.inPos = 0) {u : Byte} (absent : u ∉ s.inData) :
    (s.beforePayload.codeEntry u.toNat).valid = false := by
  have byte : u.toNat < 256 := u.isLt
  have count : s.afterCount.count u.toNat = 0 := by
    rw [count_of_counters (s := s.afterCount) (data := s.inData) (by rw [State.afterCount, start]) byte, count_map_toNat]
    exact List.count_eq_zero.mpr absent
  have leafless : u.toNat ∉ s.afterCount.built.leaves := by
    rw [(built_leaves _).mem_iff, State.leafValues, State.counted]
    simp [count, byte.ne]
  rw [codeEntry_beforePayload s (by omega), ← Bool.not_eq_true, entry_valid_iff]
  exact leafless

/-- The state in which COMPRESS, offered in the state, ends where its encode pass meets u after the bytes pre, and u has no
code: the output is closed after the codes of those bytes (46_pipelines.md R111, R113). -/
def State.compressUncoded (s : State) (pre : List Byte) (u : Byte) : State :=
  recordFault .uncodedSymbol (BitVec.ofNat 32 u.toNat) (outClose
    ((s.reading .compress).beforePayload.encoding (pre.length + 1) ((s.reading .compress).beforePayload.codes pre)))

theorem count_congr {s t : State} (freq : t.freq = s.freq) : t.count = s.count :=
  funext fun v => by rw [State.count, freq, State.count]

section Changed

variable {s : State} {pre post : List Byte} {u : Byte}

theorem execCompress_of_uncoded (ready : s.Ready) (isOpen : s.status.outClosed = false) (start : s.inPos = 0)
    (fits : s.inData.length ≤ s.params.maxBytes) (data : s.secondPass = pre ++ u :: post)
    (met : ∀ b ∈ pre, b ∈ s.inData) (absent : u ∉ s.inData) : exec .compress s = .next (s.compressUncoded pre u) := by
  have coded := (coded_beforePayload (s := s.reading .compress) start).1
  have stages : compressStages (s.reading .compress) = .raised .uncodedSymbol (BitVec.ofNat 32 u.toNat) _ :=
    (compressStages_of_fits (by simpa [State.reading, start] using fits)).trans
      (encodeBody_of_uncoded_byte (s := (s.reading .compress).beforePayload) data (fun b hb => coded b (met b hb))
        (uncoded_beforePayload (s := s.reading .compress) start absent))
  rw [execCompress_of_ready ready isOpen, stages]
  rfl

theorem tree_compressUncoded : (s.compressUncoded pre u).tree = some s.compressTree := tree_of_merged rfl rfl

theorem count_compressUncoded : (s.compressUncoded pre u).count = s.compressed.count := count_congr rfl

theorem counted_compressUncoded : (s.compressUncoded pre u).counted = s.compressed.counted := by
  rw [State.counted, count_compressUncoded, State.counted]

theorem codeEntry_compressUncoded : (s.compressUncoded pre u).codeEntry = s.compressed.codeEntry := codeEntry_congr rfl

theorem out_compressUncoded : (s.compressUncoded pre u).out = s.out ++ bitsOf 32 s.params.huffMagic.toNat ++
    s.compressTree.header ++ s.compressed.codes pre ++ List.replicate (padLength (s.out ++
      (bitsOf 32 s.params.huffMagic.toNat ++ s.compressTree.header) ++ s.compressed.codes pre).length) false := by
  rw [List.append_assoc s.out]
  rfl

/-- BITS_IN counts 8 bits a byte of the count pass and of what the encode pass read (10_state.md R34). -/
theorem bitsIn_compressUncoded (start : s.inPos = 0) :
    (s.compressUncoded pre u).bitsIn = BitVec.ofNat 32 (8 * (s.inData.length + pre.length + 1)) := by
  have passes : (s.compressUncoded pre u).bitsIn =
      0#32 + BitVec.ofNat 32 (8 * s.compressed.nbytes) + BitVec.ofNat 32 (8 * (pre.length + 1)) := rfl
  rw [passes, nbytes_compressed start, BitVec.zero_add, ← BitVec.ofNat_add, ← Nat.mul_add, Nat.add_assoc]

theorem status_compressUncoded (idle : s.status.busy = false) : (s.compressUncoded pre u).status = { s.status with
    freqValid := true, treeValid := true, codeValid := true, outClosed := true, eos := true, done := false
    err := .uncodedSymbol } := by
  simp only [State.compressUncoded, recordFault_status, outClose_status, idle]
  rfl

end Changed

/-- Settles O40: the encode pass reads what the port holds from the rewind on, with the codes of the counts of the first pass,
and a byte that was not counted has none. -/
theorem compressOfChangedInput : Obligations.CompressOfChangedInput := by
  refine ⟨fun s data busy => ?_, fun s data late atOnce => ?_, fun s => secondPass_of_none,
    fun s pre post u ready isOpen start fits data met absent => ?_⟩
  · rcases bindInput_cases data true s with ⟨-, -, bound⟩ | ⟨idle | ⟨early, -⟩, -⟩
    · exact ⟨congrArg _ bound, rfl⟩
    · simp [busy] at idle
    · cases early
  · rcases bindInput_cases data late s with ⟨busy, late, -⟩ | ⟨-, bound⟩
    · rcases atOnce with idle | ⟨early, none⟩
      · simp [busy] at idle
      · simp [early, none] at late
    · exact congrArg _ bound
  · have units : (unitsFrom s.inData s.inPos).length ≤ s.params.maxBytes := by simpa [start] using fits
    refine ⟨s.compressUncoded pre u, s.compressTree, _, execCompress_of_uncoded ready isOpen start fits data met absent,
      tree_compressUncoded, padLength_lt _, out_compressUncoded, outClose_aligned _, fun v => ?_, fun v hv => ?_, ?_,
      exec_count_then_build ready units, rfl, rfl, bitsIn_compressUncoded start, rfl, rfl, status_compressUncoded ready.1⟩
    · rw [count_compressUncoded, count_compressed start v.isLt, count_map_toNat]
    · rw [codeEntry_compressUncoded, codeEntry_compressed s hv]
    · rw [counted_compressUncoded]
      exact leaves_compressTree s

end Sys2Proof.Machine

/-! ## Reset (70_reset_and_hazards.md R135 to R137, R145) -/

namespace Sys2Proof.Machine

theorem resetBlock_of_idle {s : State} (idle : s.status.busy = false) : resetBlock s =
    { State.reset with
      params := s.params
      inData := s.inData
      inPos := s.inPos
      lateInput := s.lateInput
      hostOps := s.hostOps
      hostReads := s.hostReads
      draws := s.draws } := if_neg (by simp [idle])

theorem resetBlock_of_busy {s : State} (busy : s.status.busy = true) : resetBlock s =
    { State.reset with
      params := s.params
      inData := s.secondPass
      inPos := Config.freeNat s.draws % (8 * s.secondPass.length + 1)
      out := if freshOutput s then [] else s.out ++ (wouldWrite s).take (Config.freeNat (s.draws + 1))
      hostOps := s.hostOps
      hostReads := s.hostReads
      draws := s.draws + 2 } := if_pos busy

/-- Settles O15: CLEAR and reset write the same values but for CMD and DONE. -/
theorem clearMatchesReset : Obligations.ClearMatchesReset := by
  intro s idle
  rw [clearGivesResetValues s idle, resetBlock_of_idle idle]
  exact ⟨rfl, rfl, rfl⟩

/-- The host has a fresh output port where the one it had is closed, or CLEAR runs (R145). -/
theorem freshOutput_iff (s : State) : freshOutput s = true ↔ s.status.outClosed = true ∨ s.cmd = 0x00000001#32 := by
  have clears : decodeOp s.cmd = .ok .clear ↔ s.cmd = 0x00000001#32 :=
    ⟨decodeOp_eq_ok, fun h => h ▸ decodeOp_word .clear⟩
  rw [← clears, freshOutput, Bool.or_eq_true]
  cases decodeOp s.cmd <;> simp

/-! ### No pseudocode reads DONE (40_control.md R80) -/

/-- The state with DONE as given. -/
def State.withDone (d : Bool) (s : State) : State := { s with status := { s.status with done := d } }

/-- What the pseudocode does and returns does not depend on DONE, which it leaves as it is. -/
def IgnoresDone {α : Type} (body : State → Run α) : Prop :=
  ∀ (d : Bool) (s : State), body (s.withDone d) = (body s).closing (State.withDone d)

theorem IgnoresDone.bind {α β : Type} {f : State → Run α} {g : α → State → Run β} (hf : IgnoresDone f)
    (hg : ∀ a, IgnoresDone (g a)) : IgnoresDone fun s => (f s).bind g := fun d s => by
  simp only [hf d s]
  cases f s with
  | ok a t => exact hg a d t
  | raised c w t => rfl
  | stuck e => rfl

theorem inRead_withDone (n : Nat) (d : Bool) (s : State) :
    inRead n (s.withDone d) = ((inRead n s).1, (inRead n s).2.withDone d) := by
  rcases inRead_cases n s with ⟨le, e⟩ | ⟨lt, e⟩
  · rw [e]
    exact if_pos le
  · rw [e]
    exact if_neg (Nat.not_le.mpr lt)

theorem countBody_ignoresDone : IgnoresDone countBody := fun d s => by
  rcases Nat.lt_or_ge s.params.maxBytes (unitsFrom s.inData s.inPos).length with beyond | fits
  · rw [countBody_of_beyond beyond, countBody_of_beyond (s := s.withDone d) beyond]
    rfl
  · rw [countBody_of_fits fits, countBody_of_fits (s := s.withDone d) fits]
    rfl

theorem buildBody_ignoresDone : IgnoresDone buildBody := fun d s => by
  rw [buildBody_eq, buildBody_eq, merged_nodes_congr (s := s) (t := s.withDone d) rfl rfl]
  rfl

theorem deriveBody_ignoresDone : IgnoresDone deriveBody := fun d s => by
  have same : (s.withDone d).tree = s.tree := rfl
  rw [deriveBody, deriveBody, same]
  cases s.tree <;> rfl

theorem wrHeaderBody_ignoresDone : IgnoresDone wrHeaderBody := fun d s => by
  have same : (s.withDone d).tree = s.tree := rfl
  rw [wrHeaderBody, wrHeaderBody, same]
  cases s.tree with
  | none => rfl
  | some t =>
    simp only [ser_eq]
    rfl

theorem emitCode_ignoresDone (sym : Nat) : IgnoresDone (emitCode sym) := fun d s => by
  have same : (s.withDone d).codeEntry sym = s.codeEntry sym := rfl
  rw [emitCode, emitCode, same]
  split <;> rfl

theorem encodeLoop_ignoresDone (bound : Nat) : IgnoresDone (encodeLoop bound) := by
  induction bound with
  | zero => exact fun _ _ => rfl
  | succ bound ih =>
    intro d s
    rw [encodeLoop, encodeLoop, inRead_withDone]
    rcases inRead 8 s with ⟨_ | u, t⟩
    · rfl
    · exact (emitCode_ignoresDone u).bind (fun _ => ih) d t

theorem encodeBody_ignoresDone : IgnoresDone encodeBody := fun d s =>
  (encodeLoop_ignoresDone (s.secondPass.length + 1)).bind (fun _ => emitCode_ignoresDone _) d (inReset s)

theorem rdMagicBody_ignoresDone : IgnoresDone rdMagicBody := fun d s => by
  rw [rdMagicBody, rdMagicBody, inRead_withDone]
  rcases inRead 32 s with ⟨_ | v, t⟩
  · rfl
  · have same : (t.withDone d).params = t.params := rfl
    simp only [same]
    split <;> rfl

theorem alloc_ignoresDone (nd : Node) : IgnoresDone (alloc nd) := fun d s => by
  have same : (s.withDone d).nodes = s.nodes := rfl
  rw [alloc, alloc, same]
  split <;> rfl

theorem des_ignoresDone (bound : Nat) : IgnoresDone (des bound) := by
  induction bound with
  | zero => exact fun _ _ => rfl
  | succ bound ih =>
    intro d s
    rw [des, des, inRead_withDone]
    rcases inRead 1 s with ⟨_ | b, t⟩
    · rfl
    · simp only
      split
      · rw [inRead_withDone]
        rcases inRead 9 t with ⟨_ | v, u⟩
        · rfl
        · simp only
          split
          · rfl
          · exact alloc_ignoresDone _ d u
      · exact (alloc_ignoresDone _).bind (fun i => ih.bind fun l => ih.bind fun r _ _ => rfl) d t

theorem rdHeaderBody_ignoresDone : IgnoresDone rdHeaderBody := fun d s =>
  (des_ignoresDone _).bind (fun _ _ _ => rfl) d (rdHeaderStart s)

theorem decodeLoop_ignoresDone (bound : Nat) : IgnoresDone (decodeLoop bound) := by
  induction bound with
  | zero => exact fun _ _ => rfl
  | succ bound ih =>
    intro d s
    rw [decodeLoop, decodeLoop, inRead_withDone]
    rcases inRead 1 s with ⟨_ | b, t⟩
    · rfl
    · have nodes : (t.withDone d).nodes = t.nodes := rfl
      have cur : (t.withDone d).cur = t.cur := rfl
      simp only [nodes, cur]
      split
      · rfl
      · split
        · rfl
        · split
          · split
            · rfl
            · rw [← ih]
              rfl
          · rw [← ih]
            rfl

theorem decodeBody_ignoresDone : IgnoresDone decodeBody := fun d s => by
  have nodes : (s.withDone d).nodes = s.nodes := rfl
  have root : (s.withDone d).root = s.root := rfl
  simp only [decodeBody, nodes, root]
  split
  · rfl
  · split
    · split <;> rfl
    · rw [← decodeLoop_ignoresDone]
      rfl

theorem unclosedBody_ignoresDone (op : Op) : IgnoresDone (unclosedBody op) := by
  cases op with
  | nop => exact fun _ _ => rfl
  | clear => exact fun _ _ => rfl
  | count => exact countBody_ignoresDone
  | build => exact buildBody_ignoresDone
  | derive => exact deriveBody_ignoresDone
  | wrMagic => exact fun _ _ => rfl
  | wrHeader => exact wrHeaderBody_ignoresDone
  | encode => exact encodeBody_ignoresDone
  | closeOut => exact fun _ _ => rfl
  | rdMagic => exact rdMagicBody_ignoresDone
  | rdHeader => exact rdHeaderBody_ignoresDone
  | decode => exact decodeBody_ignoresDone
  | compress =>
    exact countBody_ignoresDone.bind fun _ => buildBody_ignoresDone.bind fun _ => deriveBody_ignoresDone.bind fun _ =>
      IgnoresDone.bind (fun _ _ => rfl) fun _ => wrHeaderBody_ignoresDone.bind fun _ => encodeBody_ignoresDone
  | decompress =>
    exact rdMagicBody_ignoresDone.bind fun _ => rdHeaderBody_ignoresDone.bind fun _ => decodeBody_ignoresDone

theorem runAccepted_ignoresDone (op : Op) : IgnoresDone (runAccepted op (unclosedBody op)) := fun d s => by
  have pre : preHolds op (s.withDone d).status = preHolds op s.status := by cases op <;> rfl
  have start : startReading op (s.withDone d) = (startReading op s).withDone d := by
    unfold startReading
    split <;> rfl
  rw [runAccepted, runAccepted, pre, start]
  split
  · exact unclosedBody_ignoresDone op d _
  · rfl

/-! ### What the running command would have written (R137) -/

theorem compressStages_confined (s : State) : (compressStages s).Confined (opParts .compress) s := by
  refine .bind ((countBody_confined _).mono (by simp [opParts])) fun _ s1 => ?_
  refine .bind ((buildBody_confined _).mono (by simp [opParts])) fun _ s2 => ?_
  refine .bind ((deriveBody_confined _).mono (by simp [opParts])) fun _ s3 => ?_
  refine .bind ((wrMagicBody_confined _).mono (by simp [opParts])) fun _ s4 => ?_
  refine .bind ((wrHeaderBody_confined _).mono (by simp [opParts])) fun _ s5 => ?_
  exact (encodeBody_confined _).mono (by simp [opParts])

theorem decompressStages_confined (s : State) : (decompressStages s).Confined (opParts .decompress) s := by
  refine .bind ((rdMagicBody_confined _).mono (by simp [opParts])) fun _ s1 => ?_
  refine .bind ((rdHeaderBody_confined _).mono (by simp [opParts])) fun _ s2 => ?_
  exact (decodeBody_confined _).mono (by simp [opParts])

theorem unclosedBody_confined {op : Op} (notClear : op ≠ .clear) (s : State) :
    (unclosedBody op s).Confined (opParts op) s := by
  cases op with
  | compress => exact compressStages_confined s
  | decompress => exact decompressStages_confined s
  | _ => exact body_confined notClear s

/-- Neither completion nor the recording of a fault writes output. -/
theorem out_of_settle {out : Bits} {r : Run Unit} {t : State} (ends : r.Ends fun u => u.out = out)
    (run : settle r = .next t) : t.out = out :=
  settle_ends (Q := fun t => t.out = out) run ends (fun _ h => h) fun _ _ _ h => h

/-- Whatever the running command, run to its end but for a pipeline's close, has written stands after what was there. -/
theorem wouldWrite_ends {s : State} {op : Op} (cmd : s.cmd = op.word) (notClear : op ≠ .clear) :
    (runAccepted op (unclosedBody op) s).Ends fun t => t.out = s.out ++ wouldWrite s := by
  have appended : (runAccepted op (unclosedBody op) s).Ends fun t => ∃ bits, t.out = s.out ++ bits := by
    unfold runAccepted
    split
    · refine (unclosedBody_confined notClear _).ends.mono fun t f => ?_
      obtain ⟨bits, out, -⟩ := f.appends
      exact ⟨bits, by rw [out, startReading_out]⟩
    · exact ⟨[], (List.append_nil _).symm⟩
  rw [wouldWrite, cmd, decodeOp_word]
  cases run : runAccepted op (unclosedBody op) s with
  | ok a t =>
    obtain ⟨bits, out⟩ := run ▸ appended
    simp [Run.Ends, run, out]
  | raised c w t =>
    obtain ⟨bits, out⟩ := run ▸ appended
    simp [Run.Ends, run, out]
  | stuck e => trivial

/-- Only a pipeline closes the output after its stages (46_pipelines.md R113). -/
theorem runAccepted_opBody_cases (op : Op) {s : State} (isOpen : s.status.outClosed = false) :
    ((op = .compress ∨ op = .decompress) ∧
      runAccepted op (opBody op) s = (runAccepted op (unclosedBody op) s).closing outClose) ∨
    (op ≠ .compress ∧ op ≠ .decompress ∧ runAccepted op (opBody op) s = runAccepted op (unclosedBody op) s) := by
  cases op with
  | compress =>
    refine .inl ⟨.inl rfl, ?_⟩
    simp only [runAccepted, preHolds, isOpen]
    rfl
  | decompress =>
    refine .inl ⟨.inr rfl, ?_⟩
    simp only [runAccepted, preHolds, isOpen]
    rfl
  | _ => exact .inr ⟨nofun, nofun, rfl⟩

/-- The latched command, run at once, runs from the state it was latched in but for DONE, which its acceptance had lowered. -/
theorem exec_of_latched {s : State} {op : Op} (busy : s.status.busy = true) (cmd : s.cmd = op.word)
    (accepted : s.status.err = ErrCode.none ∨ s.status.acceptsUnderError op = true) :
    exec op.instr { s with status := { s.status with busy := false } } =
      settle (runAccepted op (opBody op) (s.withDone false)) := by
  have again : accept op { s with status := { s.status with busy := false } } = s.withDone false := by
    simp only [accept, State.withDone, ← cmd, ← busy]
  rw [exec_of_accepted (s := { s with status := { s.status with busy := false } }) rfl accepted, again]

/-- What exec of the latched command appends: what it would have written, and the padding of a pipeline's close. -/
theorem exec_of_latched_appends {s t : State} {op : Op} (busy : s.status.busy = true) (cmd : s.cmd = op.word)
    (notClear : op ≠ .clear) (isOpen : s.status.outClosed = false) (accepted : s.status.err = ErrCode.none ∨ op = .closeOut)
    (run : exec op.instr { s with status := { s.status with busy := false } } = .next t) :
    ∃ pad, pad < 8 ∧ t.out = s.out ++ wouldWrite s ++ List.replicate pad false ∧
      (op ≠ .compress → op ≠ .decompress → pad = 0) := by
  have taken : s.status.err = ErrCode.none ∨ s.status.acceptsUnderError op = true :=
    accepted.imp_right fun closes => by simp [Status.acceptsUnderError, closes, isOpen]
  rw [exec_of_latched busy cmd taken] at run
  have wrote : (runAccepted op (unclosedBody op) (s.withDone false)).Ends fun u => u.out = s.out ++ wouldWrite s := by
    rw [runAccepted_ignoresDone]
    exact (wouldWrite_ends cmd notClear).closing fun _ out => out
  rcases runAccepted_opBody_cases op (s := s.withDone false) isOpen with ⟨pipeline, e⟩ | ⟨-, -, e⟩ <;> rw [e] at run
  · have out := out_of_settle (wrote.closing fun u (out : u.out = _) => (outClose_out u).trans (by rw [out])) run
    exact ⟨_, padLength_lt _, out, fun nc nd => absurd pipeline (not_or.mpr ⟨nc, nd⟩)⟩
  · have out := out_of_settle wrote run
    exact ⟨0, by decide, by rw [out, List.replicate_zero, List.append_nil], fun _ _ => rfl⟩

/-- Settles O60: the reset state itself, and what a reset of a running block takes of its command's output. -/
theorem resetGivesResetValues : Obligations.ResetGivesResetValues := by
  refine ⟨fun s => ?_, fun s t op busy cmd notClear isOpen => exec_of_latched_appends busy cmd notClear isOpen⟩
  show ∃ pos out draws, Host.Outcome.next (resetBlock s) = _ ∧ _
  by_cases busy : s.status.busy = true
  · rw [resetBlock_of_busy busy]
    refine ⟨_, _, _, by simp only [busy]; rfl, fun idle => by simp [busy] at idle,
      fun _ => ⟨Nat.le_of_lt_succ (Nat.mod_lt _ (Nat.succ_pos _)), fun fresh => ?_, fun isOpen other => ?_⟩⟩
    · exact if_pos ((freshOutput_iff s).mpr fresh)
    · have kept : ¬ freshOutput s = true := by simp [freshOutput_iff, isOpen, other]
      exact ⟨_, List.take_prefix _ _, if_neg kept⟩
  · have idle : s.status.busy = false := Bool.eq_false_of_not_eq_true busy
    rw [resetBlock_of_idle idle]
    exact ⟨_, _, _, by simp only [idle]; rfl, fun _ => ⟨rfl, rfl⟩, fun h => absurd h busy⟩

end Sys2Proof.Machine
